-- ==== Sys2Proof/Word.lean ====
section
/-! DEFINITION. The word and byte types of the machine (spec 00_scope.md R6: 16-bit registers, words and addresses,
8-bit bytes). Bit 0 is the least significant bit (R11); `+` and `-` on `Word` wrap modulo 2^16 as R11 asks. -/

namespace Sys2Proof

/-- A 16-bit word: a register, an address, an instruction word (R6). -/
abbrev Word := BitVec 16

/-- An 8-bit byte (R6). -/
abbrev Byte := BitVec 8

end Sys2Proof
end

