-- ==== Sys2Proof/Config.lean ====
section
/-! DEFINITION. What an implementation fixes: the parameters of spec 00_scope.md R7 and R8, and the cycle costs of R31,
which the spec leaves without a value and which are therefore constants with no body (log entry 3). -/

namespace Sys2Proof.Config

/-- R7: `WRITE_POLICY`, write-back or write-through. -/
inductive WritePolicy where
  | wb
  | wt
deriving DecidableEq, Repr

/-- R7: `ORGANISATION`, associative or direct-mapped. -/
inductive Organisation where
  | assoc
  | direct
deriving DecidableEq, Repr

/-- R8: `BR_OFF_BITS`, the width of the displacement field of a conditional branch. -/
abbrev brOffBits : Nat := 10

/-- R8: `BL_OFF_BITS`, the width of the displacement field of branch-and-link. -/
abbrev blOffBits : Nat := 13

/-- R8: the default of `N_LINES`. Only `State.reset` uses it: every operation of the cache takes the number of lines
from the state it acts on, so the model holds for every `N_LINES` of at least 1 (log entry 4). -/
def nLines : Nat := 32

/-- R7: the default configuration input, "write-back as default". -/
def defaultWritePolicy : WritePolicy := .wb

/-- R7: the default configuration input, the associative organisation. -/
def defaultOrganisation : Organisation := .assoc

/-- R31, D33: cycles of one MemoryBus access. The spec gives no number. DESIGN CHOICE, safe (log entry 3). -/
opaque clkBus : Nat

/-- R31, D33: cycles of a fetch, beside its bus accesses. DESIGN CHOICE, safe (log entry 3). -/
opaque clkFetch : Nat

/-- R31, D33: cycles of decoding a word that is an instruction. DESIGN CHOICE, safe (log entry 3). -/
opaque clkDecode : Nat

/-- R31, D33: cycles of executing an instruction. DESIGN CHOICE, safe (log entry 3). -/
opaque clkExecute : Nat

/-- R31, D33: the per-instruction overhead. DESIGN CHOICE, safe (log entry 3). -/
opaque clkInstruction : Nat

/-- R232: cycles charged after the fetch when the decoder abandons an undefined opcode ("the clock still advances for
work already done"); the spec does not say which costs that is. DESIGN CHOICE, safe (log entry 3). -/
opaque clkAbandonedOpcode : Nat

/-- R232: cycles charged after the decode when an undefined addressing mode abandons LD or ST.
DESIGN CHOICE, safe (log entry 3). -/
opaque clkAbandonedMode : Nat

end Sys2Proof.Config
end

