-- ==== Sys2Proof/Syntax.lean ====
section
/-! DEFINITION. The instructions: one constructor of `Instr` for each of the 35 rows of spec/opcode_table.json
(spec 30_encoding.md R111), with the operand types their fields decode to (R102, R104, R105, R106, R108). -/

namespace Sys2Proof

/-- R102: the W/B selector, 0 word and 1 byte. It is also the access width `n` (2 or 1 bytes) of R12. -/
inductive Width where
  | word
  | byte
deriving DecidableEq, Repr

/-- R20: the eight general registers. R21 names `r4` BP, `r5` LR, `r6` SP and `r7` PC. -/
inductive Reg where
  | r0 | r1 | r2 | r3 | r4 | r5 | r6 | r7
deriving DecidableEq, Repr

/-- R23: the indices of the constants table. -/
inductive ConstIdx where
  | k0 | k1 | k2 | k3 | k4 | k5 | k6 | k7
deriving DecidableEq, Repr

/-- R102, R107, R160: the source of a two-operand instruction, selected by R/C: the register `x[SRC]` (0) or the
constant `k[SRC]` (1). -/
inductive Operand where
  | reg (r : Reg)
  | const (k : ConstIdx)
deriving DecidableEq, Repr

/-- R108: the three mode bits of an indexed load or store, as they stand in the word. R141 says which five of the eight
values are legal; the decoder passes all eight on, since the mode is checked when the instruction executes. -/
structure ModeBits where
  prpo : Bool
  dec : Bool
  inc : Bool
deriving DecidableEq, Repr

/-- R111: the 35 instructions. `off` is a branch displacement field (R105) or the relative offset OFF7 (R104), `b` the
immediate byte (R106). -/
inductive Instr where
  | bl (off : BitVec Config.blOffBits)
  | beq (off : BitVec Config.brOffBits)
  | bne (off : BitVec Config.brOffBits)
  | bc (off : BitVec Config.brOffBits)
  | bnc (off : BitVec Config.brOffBits)
  | bn (off : BitVec Config.brOffBits)
  | bge (off : BitVec Config.brOffBits)
  | blt (off : BitVec Config.brOffBits)
  | bra (off : BitVec Config.brOffBits)
  | add (src : Operand) (w : Width) (dst : Reg)
  | addc (src : Operand) (w : Width) (dst : Reg)
  | sub (src : Operand) (w : Width) (dst : Reg)
  | subc (src : Operand) (w : Width) (dst : Reg)
  | dadd (src : Operand) (w : Width) (dst : Reg)
  | cmp (src : Operand) (w : Width) (dst : Reg)
  | xor (src : Operand) (w : Width) (dst : Reg)
  | and (src : Operand) (w : Width) (dst : Reg)
  | or (src : Operand) (w : Width) (dst : Reg)
  | bit (src : Operand) (w : Width) (dst : Reg)
  | bic (src : Operand) (w : Width) (dst : Reg)
  | bis (src : Operand) (w : Width) (dst : Reg)
  | mov (w : Width) (src dst : Reg)
  | swap (src dst : Reg)
  | sra (w : Width) (dst : Reg)
  | rrc (w : Width) (dst : Reg)
  | swpb (dst : Reg)
  | sxt (dst : Reg)
  | ld (m : ModeBits) (w : Width) (src dst : Reg)
  | st (m : ModeBits) (w : Width) (src dst : Reg)
  | movl (b : Byte) (dst : Reg)
  | movlz (b : Byte) (dst : Reg)
  | movls (b : Byte) (dst : Reg)
  | movh (b : Byte) (dst : Reg)
  | ldr (off : BitVec 7) (w : Width) (src dst : Reg)
  | str (off : BitVec 7) (w : Width) (src dst : Reg)
deriving DecidableEq, Repr

/-- R111: the mnemonic of an instruction, as the opcode map writes it. -/
def Instr.mnemonic : Instr → String
  | .bl _ => "BL"
  | .beq _ => "BEQ"
  | .bne _ => "BNE"
  | .bc _ => "BC"
  | .bnc _ => "BNC"
  | .bn _ => "BN"
  | .bge _ => "BGE"
  | .blt _ => "BLT"
  | .bra _ => "BRA"
  | .add _ _ _ => "ADD"
  | .addc _ _ _ => "ADDC"
  | .sub _ _ _ => "SUB"
  | .subc _ _ _ => "SUBC"
  | .dadd _ _ _ => "DADD"
  | .cmp _ _ _ => "CMP"
  | .xor _ _ _ => "XOR"
  | .and _ _ _ => "AND"
  | .or _ _ _ => "OR"
  | .bit _ _ _ => "BIT"
  | .bic _ _ _ => "BIC"
  | .bis _ _ _ => "BIS"
  | .mov _ _ _ => "MOV"
  | .swap _ _ => "SWAP"
  | .sra _ _ => "SRA"
  | .rrc _ _ => "RRC"
  | .swpb _ => "SWPB"
  | .sxt _ => "SXT"
  | .ld _ _ _ _ => "LD"
  | .st _ _ _ _ => "ST"
  | .movl _ _ => "MOVL"
  | .movlz _ _ => "MOVLZ"
  | .movls _ _ => "MOVLS"
  | .movh _ _ => "MOVH"
  | .ldr _ _ _ _ => "LDR"
  | .str _ _ _ _ => "STR"

end Sys2Proof
end

