-- ==== Sys2Proof/WellFormed.lean ====
section
/-! DEFINITION. Which instructions are well formed. The types of `Instr` leave one check: an indexed load or store must
name one of the five legal addressing modes of spec 40_load_store.md R141; 30_encoding.md R112 calls the words of the
other three "undefined addressing modes" beside the 35 instructions. An ill-formed instruction still decodes and still
executes: R141 gives it the effect of reporting `UndefinedAddrMode` and being abandoned. -/

namespace Sys2Proof

/-- R141: the legal values of (PRPO, DEC, INC) are 000, 001, 010, 101 and 110. -/
def ModeBits.legal (m : ModeBits) : Bool :=
  match m.prpo, m.dec, m.inc with
  | false, false, false => true
  | false, false, true => true
  | false, true, false => true
  | true, false, true => true
  | true, true, false => true
  | false, true, true => false
  | true, false, false => false
  | true, true, true => false

/-- An instruction is well formed when its addressing mode, if it has mode bits, is one of the five of R141. -/
def Instr.wellFormed : Instr → Bool
  | .bl _ => true
  | .beq _ => true
  | .bne _ => true
  | .bc _ => true
  | .bnc _ => true
  | .bn _ => true
  | .bge _ => true
  | .blt _ => true
  | .bra _ => true
  | .add _ _ _ => true
  | .addc _ _ _ => true
  | .sub _ _ _ => true
  | .subc _ _ _ => true
  | .dadd _ _ _ => true
  | .cmp _ _ _ => true
  | .xor _ _ _ => true
  | .and _ _ _ => true
  | .or _ _ _ => true
  | .bit _ _ _ => true
  | .bic _ _ _ => true
  | .bis _ _ _ => true
  | .mov _ _ _ => true
  | .swap _ _ => true
  | .sra _ _ => true
  | .rrc _ _ => true
  | .swpb _ => true
  | .sxt _ => true
  | .ld m _ _ _ => m.legal
  | .st m _ _ _ => m.legal
  | .movl _ _ => true
  | .movlz _ _ => true
  | .movls _ _ => true
  | .movh _ _ => true
  | .ldr _ _ _ _ => true
  | .str _ _ _ _ => true

end Sys2Proof
end

