-- ==== Sys2Proof/Decode.lean ====
section
/-! DEFINITION. The decoder of spec 30_encoding.md R110, total on every 16-bit word and on every byte list, and the
encoder written from the formats of R103 and the match values of R111. A word that is no instruction is rejected by the
name of the undefined space of R112 it lies in. -/

namespace Sys2Proof

/-- Why a decode is rejected: the undefined spaces of R112, and a byte list too short to hold a word (R100). Every
constructor but `truncated` is the condition `UndefinedOpcode` of R110. -/
inductive Reject where
  /-- 0x4CC0 to 0x4CFF: SWAP with bit 6 set. -/
  | swapByte
  /-- One-operand sub-functions 2, 5, 6 and 7. -/
  | oneOperandSub
  /-- 0x4D58 to 0x4D5F: SWPB with bit 6 set. -/
  | swpbByte
  /-- 0x4D60 to 0x4D67: SXT with bit 6 set. -/
  | sxtByte
  /-- 0x4D80 to 0x4DFF: the one-operand group with bit 7 set. -/
  | oneOperandBit7
  /-- 0x4E00 to 0x4FFF: register group functions 14 and 15. -/
  | registerFunction
  /-- 0x5000 to 0x57FF: the words 0101 0xxx xxxx xxxx. -/
  | indexedBit11
  /-- Fewer than two bytes: no word to decode. -/
  | truncated
deriving DecidableEq, Repr

/-- R102: a one-bit selector field as a width (W/B = 0 word, 1 byte). -/
def widthOfBit (b : Bool) : Width := if b then .byte else .word

/-- R102: a three-bit field as a register. -/
def regOfBits (b : BitVec 3) : Reg :=
  match b.toNat with
  | 0 => .r0
  | 1 => .r1
  | 2 => .r2
  | 3 => .r3
  | 4 => .r4
  | 5 => .r5
  | 6 => .r6
  | _ => .r7

/-- R107: a three-bit field as an index into the constants table. -/
def constOfBits (b : BitVec 3) : ConstIdx :=
  match b.toNat with
  | 0 => .k0
  | 1 => .k1
  | 2 => .k2
  | 3 => .k3
  | 4 => .k4
  | 5 => .k5
  | 6 => .k6
  | _ => .k7

/-- R102: DST, bits 2 to 0. -/
def dstField (w : Word) : Reg := regOfBits (w.extractLsb' 0 3)

/-- R102: SRC, bits 5 to 3. -/
def srcField (w : Word) : Reg := regOfBits (w.extractLsb' 3 3)

/-- R102: W/B, bit 6. -/
def widthField (w : Word) : Width := widthOfBit (w.getLsbD 6)

/-- R102: R/C, bit 7, with SRC: the source operand of a two-operand instruction. -/
def operandField (w : Word) : Operand :=
  if w.getLsbD 7 then .const (constOfBits (w.extractLsb' 3 3)) else .reg (regOfBits (w.extractLsb' 3 3))

/-- R108: PRPO bit 9, DEC bit 8, INC bit 7. -/
def modeField (w : Word) : ModeBits := ⟨w.getLsbD 9, w.getLsbD 8, w.getLsbD 7⟩

/-- R104: OFF7, bits 13 to 7. -/
def off7Field (w : Word) : BitVec 7 := w.extractLsb' 7 7

/-- R105: OFF10, bits 9 to 0. -/
def brOffField (w : Word) : BitVec Config.brOffBits := w.extractLsb' 0 Config.brOffBits

/-- R105: OFF13, bits 12 to 0. -/
def blOffField (w : Word) : BitVec Config.blOffBits := w.extractLsb' 0 Config.blOffBits

/-- R106: the immediate byte, bits 10 to 3. -/
def immField (w : Word) : Byte := w.extractLsb' 3 8

/-- R110, the branch leaf: `IR[12:10]` selects the condition. -/
def decodeBranch (w : Word) : Instr :=
  match (w.extractLsb' 10 3).toNat with
  | 0 => .beq (brOffField w)
  | 1 => .bne (brOffField w)
  | 2 => .bc (brOffField w)
  | 3 => .bnc (brOffField w)
  | 4 => .bn (brOffField w)
  | 5 => .bge (brOffField w)
  | 6 => .blt (brOffField w)
  | _ => .bra (brOffField w)

/-- R110, the move-immediate leaf: `IR[12:11]` selects the instruction. -/
def decodeMoveImm (w : Word) : Instr :=
  match (w.extractLsb' 11 2).toNat with
  | 0 => .movl (immField w) (dstField w)
  | 1 => .movlz (immField w) (dstField w)
  | 2 => .movls (immField w) (dstField w)
  | _ => .movh (immField w) (dstField w)

/-- R110, the one-operand leaf (register group function 13): bit 7 must be 0 and `IR[5:3]` selects. -/
def decodeOneOperand (w : Word) : Except Reject Instr :=
  if w.getLsbD 7 then .error .oneOperandBit7
  else match (w.extractLsb' 3 3).toNat with
    | 0 => .ok (.sra (widthField w) (dstField w))
    | 1 => .ok (.rrc (widthField w) (dstField w))
    | 3 => if w.getLsbD 6 then .error .swpbByte else .ok (.swpb (dstField w))
    | 4 => if w.getLsbD 6 then .error .sxtByte else .ok (.sxt (dstField w))
    | _ => .error .oneOperandSub

/-- R110, the register group 0100: `IR[11:8]` selects. -/
def decodeRegisterGroup (w : Word) : Except Reject Instr :=
  match (w.extractLsb' 8 4).toNat with
  | 0 => .ok (.add (operandField w) (widthField w) (dstField w))
  | 1 => .ok (.addc (operandField w) (widthField w) (dstField w))
  | 2 => .ok (.sub (operandField w) (widthField w) (dstField w))
  | 3 => .ok (.subc (operandField w) (widthField w) (dstField w))
  | 4 => .ok (.dadd (operandField w) (widthField w) (dstField w))
  | 5 => .ok (.cmp (operandField w) (widthField w) (dstField w))
  | 6 => .ok (.xor (operandField w) (widthField w) (dstField w))
  | 7 => .ok (.and (operandField w) (widthField w) (dstField w))
  | 8 => .ok (.or (operandField w) (widthField w) (dstField w))
  | 9 => .ok (.bit (operandField w) (widthField w) (dstField w))
  | 10 => .ok (.bic (operandField w) (widthField w) (dstField w))
  | 11 => .ok (.bis (operandField w) (widthField w) (dstField w))
  | 12 =>
    if !w.getLsbD 7 then .ok (.mov (widthField w) (srcField w) (dstField w))
    else if !w.getLsbD 6 then .ok (.swap (srcField w) (dstField w))
    else .error .swapByte
  | 13 => decodeOneOperand w
  | _ => .error .registerFunction

/-- R110: the decision tree on a 16-bit word. -/
def decode (w : Word) : Except Reject Instr :=
  if w.getLsbD 15 then
    if !w.getLsbD 14 then .ok (.ldr (off7Field w) (widthField w) (srcField w) (dstField w))
    else .ok (.str (off7Field w) (widthField w) (srcField w) (dstField w))
  else if !w.getLsbD 14 then
    if !w.getLsbD 13 then .ok (.bl (blOffField w))
    else .ok (decodeBranch w)
  else if w.getLsbD 13 then .ok (decodeMoveImm w)
  else if !w.getLsbD 12 then decodeRegisterGroup w
  else if !w.getLsbD 11 then .error .indexedBit11
  else if !w.getLsbD 10 then .ok (.ld (modeField w) (widthField w) (srcField w) (dstField w))
  else .ok (.st (modeField w) (widthField w) (srcField w) (dstField w))

/-- R51: a word from the byte at its even address and the byte above it (little-endian). -/
def wordOfBytes (lo hi : Byte) : Word := hi ++ lo

/-- The decoder on bytes, the lowest address first: R100 gives every instruction one word, R51 its byte order. It
answers the instruction and the bytes after it. -/
def decodeBytes : List Byte → Except Reject (Instr × List Byte)
  | lo :: hi :: rest =>
    match decode (wordOfBytes lo hi) with
    | .ok i => .ok (i, rest)
    | .error e => .error e
  | _ => .error .truncated

/-- R102: the three-bit field of a register. -/
def regBits : Reg → BitVec 3
  | .r0 => 0
  | .r1 => 1
  | .r2 => 2
  | .r3 => 3
  | .r4 => 4
  | .r5 => 5
  | .r6 => 6
  | .r7 => 7

/-- R107: the three-bit field of a constant. -/
def constBits : ConstIdx → BitVec 3
  | .k0 => 0
  | .k1 => 1
  | .k2 => 2
  | .k3 => 3
  | .k4 => 4
  | .k5 => 5
  | .k6 => 6
  | .k7 => 7

/-- R102: the W/B bit. -/
def widthBit : Width → BitVec 1
  | .word => 0
  | .byte => 1

/-- R103, format BC: `001c ccoo oooo oooo`. -/
def encodeBC (c : BitVec 3) (off : BitVec Config.brOffBits) : Word := 0b001#3 ++ c ++ off

/-- R103, format A2: `0100 ffff rwss sddd`. -/
def encodeA2 (f : BitVec 4) (src : Operand) (w : Width) (dst : Reg) : Word :=
  match src with
  | .reg r => 0b0100#4 ++ f ++ 0#1 ++ widthBit w ++ regBits r ++ regBits dst
  | .const k => 0b0100#4 ++ f ++ 1#1 ++ widthBit w ++ constBits k ++ regBits dst

/-- R103, format R1: `0100 1101 0wuu uddd`. -/
def encodeR1 (w : Width) (u : BitVec 3) (dst : Reg) : Word := 0b010011010#9 ++ widthBit w ++ u ++ regBits dst

/-- R103, format IX: `0101 1tpm iwss sddd`. -/
def encodeIX (t : BitVec 1) (m : ModeBits) (w : Width) (src dst : Reg) : Word :=
  0b01011#5 ++ t ++ BitVec.ofBool m.prpo ++ BitVec.ofBool m.dec ++ BitVec.ofBool m.inc ++ widthBit w ++ regBits src
    ++ regBits dst

/-- R103, format MI: `011e ebbb bbbb bddd`. -/
def encodeMI (e : BitVec 2) (b : Byte) (dst : Reg) : Word := 0b011#3 ++ e ++ b ++ regBits dst

/-- R103, format RL: `1too oooo owss sddd`. -/
def encodeRL (t : BitVec 1) (off : BitVec 7) (w : Width) (src dst : Reg) : Word :=
  1#1 ++ t ++ off ++ widthBit w ++ regBits src ++ regBits dst

/-- R103, R111: the word of an instruction. -/
def encode : Instr → Word
  | .bl off => 0b000#3 ++ off
  | .beq off => encodeBC 0 off
  | .bne off => encodeBC 1 off
  | .bc off => encodeBC 2 off
  | .bnc off => encodeBC 3 off
  | .bn off => encodeBC 4 off
  | .bge off => encodeBC 5 off
  | .blt off => encodeBC 6 off
  | .bra off => encodeBC 7 off
  | .add src w dst => encodeA2 0 src w dst
  | .addc src w dst => encodeA2 1 src w dst
  | .sub src w dst => encodeA2 2 src w dst
  | .subc src w dst => encodeA2 3 src w dst
  | .dadd src w dst => encodeA2 4 src w dst
  | .cmp src w dst => encodeA2 5 src w dst
  | .xor src w dst => encodeA2 6 src w dst
  | .and src w dst => encodeA2 7 src w dst
  | .or src w dst => encodeA2 8 src w dst
  | .bit src w dst => encodeA2 9 src w dst
  | .bic src w dst => encodeA2 10 src w dst
  | .bis src w dst => encodeA2 11 src w dst
  | .mov w src dst => 0b010011000#9 ++ widthBit w ++ regBits src ++ regBits dst
  | .swap src dst => 0b0100110010#10 ++ regBits src ++ regBits dst
  | .sra w dst => encodeR1 w 0 dst
  | .rrc w dst => encodeR1 w 1 dst
  | .swpb dst => encodeR1 .word 3 dst
  | .sxt dst => encodeR1 .word 4 dst
  | .ld m w src dst => encodeIX 0 m w src dst
  | .st m w src dst => encodeIX 1 m w src dst
  | .movl b dst => encodeMI 0 b dst
  | .movlz b dst => encodeMI 1 b dst
  | .movls b dst => encodeMI 2 b dst
  | .movh b dst => encodeMI 3 b dst
  | .ldr off w src dst => encodeRL 0 off w src dst
  | .str off w src dst => encodeRL 1 off w src dst

/-- The instruction the decoder reads from the table's word `w` of `nbits` bits (the bits above `nbits` are 0), laid out
as the hardware stores it: the low byte at the lower address (R51). -/
def decodeTableWord (nbits w : Nat) : Option Instr :=
  let v := w % 2 ^ nbits
  match decodeBytes [BitVec.ofNat 8 v, BitVec.ofNat 8 (v / 256)] with
  | .ok (i, _) => some i
  | .error _ => none

end Sys2Proof
end

