-- ==== Sys2Proof/Machine/State.lean ====
section
/-! DEFINITION. The state of the machine as plain data: every piece of state of spec 10_state.md, the main memory behind
the MemoryBus (R36), and the two output streams of the block boundary (R10), and the state after reset (R38, R270). -/

namespace Sys2Proof.Machine

open Sys2Proof

/-- R20: the eight general registers `x[0]` to `x[7]`; `x7` is the program counter (R24). -/
structure RegFile where
  x0 : Word
  x1 : Word
  x2 : Word
  x3 : Word
  x4 : Word
  x5 : Word
  x6 : Word
  x7 : Word
deriving DecidableEq, Repr

/-- R26: the status word as a record of its fields, which R27 allows; `PSW.toWord` gives the 16-bit layout of R27. -/
structure PSW where
  c : Bool
  z : Bool
  n : Bool
  v : Bool
  slp : Bool
  flt : Bool
  cur : BitVec 3
  prv : BitVec 3
deriving DecidableEq, Repr

/-- R34: one cache line. `vlo`, `vhi` say that `lo`, `hi` hold a usable copy; `dlo`, `dhi` that they differ from main
memory; a larger `age` is a more recent touch. -/
structure Line where
  tag : Word
  lo : Byte
  hi : Byte
  vlo : Bool
  vhi : Bool
  dlo : Bool
  dhi : Bool
  age : Nat
deriving DecidableEq, Repr

/-- R34: the lines `L[0]` to `L[N_LINES-1]`. The first line stands by itself, so that there is always at least one
(R8: `N_LINES` is at least 1); `N_LINES` is `1 + rest.length`. -/
structure Cache where
  first : Line
  rest : List Line
deriving DecidableEq, Repr

/-- R36: main memory, as (address, byte) pairs in the canonical form `Memory.wf`: addresses strictly rising and below
65536, and no pair whose byte is the one an unlisted address reads as (0x00, log entry 2). -/
abbrev Memory := List Host.Cell

/-- R231: the eight diagnostic conditions. -/
inductive Diag where
  | undefinedOpcode
  | undefinedAddrMode
  | misalignedWord
  | outOfRange
  | cacheInvariant
  | unknownAluOp
  | nullWriteTarget
  | bitIndexRange
deriving DecidableEq, Repr

/-- R230: one event on the diagnostic output, a condition and a 16-bit information value. -/
structure Event where
  diag : Diag
  info : Word
deriving DecidableEq, Repr

/-- R10 (b), R52: one transaction on the MemoryBus. A byte write carries the byte in bits 7 to 0 and zeros above. -/
inductive BusTxn where
  | read (addr : Word) (w : Width)
  | write (addr : Word) (w : Width) (v : Word)
deriving DecidableEq, Repr

/-- The machine. `diags` and `bus` are the two outputs of R10 (the diagnostic output (d) and the MemoryBus master
port (b)) kept as lists, the oldest first: the model's own fields, which no rule reads back (R39; log entries 5, 6). -/
structure State where
  /-- R20, R24: the general registers and the program counter. -/
  regs : RegFile
  /-- R26: the status word. -/
  psw : PSW
  /-- R30: the instruction register IR. -/
  ir : Word
  /-- R31: the clock CLK. -/
  clk : Nat
  /-- R32: the configuration register `WRITE_POLICY`. -/
  writePolicy : Config.WritePolicy
  /-- R32: the configuration register `ORGANISATION`. -/
  organisation : Config.Organisation
  /-- R33: the stop latch STOPPED. -/
  stopped : Bool
  /-- R34: the cache lines. -/
  cache : Cache
  /-- R36: main memory `M`. -/
  mem : Memory
  /-- R230: the diagnostic output, oldest event first. -/
  diags : List Event
  /-- R10 (b): the MemoryBus transactions, oldest first. -/
  bus : List BusTxn
deriving DecidableEq, Repr

/-- Why the machine stops with a fault. No step of the core does (`Obligations.StepAlwaysHasNextState`): R236 has no
condition that stops it. -/
inductive Fault where
  /-- Raised by the host port's loader only (`loadImage`), for an image byte at an address beyond 0xFFFF, which R36 says
  does not exist. No address the core forms is beyond 0xFFFF (R54). Safe: the image is not loaded at all. -/
  | outOfRange (addr : Nat)
deriving DecidableEq, Repr

/-- Why the model gives no meaning. -/
inductive Refusal where
  /-- Raised by an arm of `exec` whose instruction has no meaning yet; no arm of this model does. Safe. -/
  | notModelled (mnemonic : String)
  /-- Raised by the host port's loader only (`loadImage`), when the host writes main memory while a cache line is valid:
  R273 and 93_implementation_defined.md U21 refuse it until a reset. Safe. -/
  | loadBehindCache
deriving DecidableEq, Repr

/-- R38: a line after reset, invalid, clean, of age 0, with tag and data zero. -/
def Line.reset : Line :=
  { tag := 0, lo := 0, hi := 0, vlo := false, vhi := false, dlo := false, dhi := false, age := 0 }

/-- R38: `n + 1` lines after reset. -/
def Cache.reset (n : Nat) : Cache := { first := Line.reset, rest := List.replicate n Line.reset }

/-- R38: the general registers after reset. -/
def RegFile.reset : RegFile := { x0 := 0, x1 := 0, x2 := 0, x3 := 0, x4 := 0, x5 := 0, x6 := 0, x7 := 0 }

/-- R38: the status word after reset. -/
def PSW.reset : PSW :=
  { c := false, z := false, n := false, v := false, slp := false, flt := false, cur := 0, prv := 0 }

/-- R38, R270: the machine right after a reset with the default configuration inputs (R7, R8) and a main memory in
which nothing is listed (log entry 2). There is no reset vector (R271): `x[7]` is 0x0000 until the host sets it. -/
def State.reset : State :=
  { regs := RegFile.reset
    psw := PSW.reset
    ir := 0
    clk := 0
    writePolicy := Config.defaultWritePolicy
    organisation := Config.defaultOrganisation
    stopped := false
    cache := Cache.reset (Config.nLines - 1)
    mem := []
    diags := []
    bus := [] }

end Sys2Proof.Machine
end

