-- ==== Sys2Proof/Machine/Ops.lean ====
section
/-! DEFINITION. The named operations over the state: registers (spec 10_state.md), reporting and ending an instruction
(60_exceptions.md), the MemoryBus and the cache controller (20_memory.md), and the fetch (30_encoding.md R101).

This hardware has no trap (R236): what other machines raise as an exception it reports on the diagnostic output.
`State.report`, `abandon` and `retire` are the one shared form of that, and there is no return to model (R238). -/

namespace Sys2Proof.Machine

open Sys2Proof

/-- What one instruction or one step answers. -/
abbrev Result := Host.Outcome State Fault Refusal

/-! ## Bytes of a word (R51) -/

/-- Bits 7 to 0. -/
def lowByte (v : Word) : Byte := v.extractLsb' 0 8

/-- Bits 15 to 8. -/
def highByte (v : Word) : Byte := v.extractLsb' 8 8

/-- R12: the concatenation `hi : lo`. -/
def joinBytes (hi lo : Byte) : Word := hi ++ lo

/-- A byte as a 16-bit value with zeros above it. -/
def byteWord (b : Byte) : Word := 0#8 ++ b

/-! ## Registers (R20, R22, R24) -/

/-- R12: `x[i]`, read. -/
def State.x (s : State) (r : Reg) : Word :=
  match r with
  | .r0 => s.regs.x0
  | .r1 => s.regs.x1
  | .r2 => s.regs.x2
  | .r3 => s.regs.x3
  | .r4 => s.regs.x4
  | .r5 => s.regs.x5
  | .r6 => s.regs.x6
  | .r7 => s.regs.x7

/-- The register file with one register replaced. R20: no register is hard-wired; R22: an odd program counter is kept
as written. -/
def RegFile.put (f : RegFile) (r : Reg) (v : Word) : RegFile :=
  match r with
  | .r0 => { f with x0 := v }
  | .r1 => { f with x1 := v }
  | .r2 => { f with x2 := v }
  | .r3 => { f with x3 := v }
  | .r4 => { f with x4 := v }
  | .r5 => { f with x5 := v }
  | .r6 => { f with x6 := v }
  | .r7 => { f with x7 := v }

/-- R12: `x[i] <- v`. -/
def State.setX (s : State) (r : Reg) (v : Word) : State := { s with regs := s.regs.put r v }

/-- R12: `pc` is `x[7]`. -/
def State.pc (s : State) : Word := s.x .r7

/-- R23: the constants table `k[0..7]`, which nothing writes. -/
def constTable : ConstIdx → Word
  | .k0 => 0x0000
  | .k1 => 0x0001
  | .k2 => 0x0002
  | .k3 => 0x0004
  | .k4 => 0x0008
  | .k5 => 0x0010
  | .k6 => 0x0020
  | .k7 => 0xFFFF

/-- The status word replaced. -/
def State.setPsw (s : State) (p : PSW) : State := { s with psw := p }

/-- R30: the instruction register replaced. Only the fetch does this. -/
def State.setIr (s : State) (w : Word) : State := { s with ir := w }

/-! ## The clock and the diagnostics -/

/-- R31: the clock advanced by a cost. -/
def State.tick (s : State) (cost : Nat) : State := { s with clk := s.clk + cost }

/-- R231: the code of a condition. -/
def Diag.code : Diag → Nat
  | .undefinedOpcode => 1
  | .undefinedAddrMode => 2
  | .misalignedWord => 3
  | .outOfRange => 4
  | .cacheInvariant => 5
  | .unknownAluOp => 6
  | .nullWriteTarget => 7
  | .bitIndexRange => 8

/-- R234: `OutOfRange` is the only fatal condition. -/
def Diag.fatal : Diag → Bool
  | .outOfRange => true
  | .undefinedOpcode => false
  | .undefinedAddrMode => false
  | .misalignedWord => false
  | .cacheInvariant => false
  | .unknownAluOp => false
  | .nullWriteTarget => false
  | .bitIndexRange => false

/-- R12, R230, R234: `report`: one event on the diagnostic output; a fatal one also sets STOPPED. -/
def State.report (s : State) (d : Diag) (info : Word) : State :=
  { s with diags := s.diags ++ [⟨d, info⟩], stopped := s.stopped || d.fatal }

/-- R12, R232: `raise`: the event is reported and the instruction ends there with no further change but the clock's,
which advances "for work already done" by an amount the spec does not give (log entry 3). -/
def abandon (d : Diag) (info : Word) (cost : Nat) (s : State) : Result := .next ((s.report d info).tick cost)

/-- The end of an instruction that ran to completion: the clock takes the cost of the execution and the per-instruction
overhead (R31, R240). -/
def retire (s : State) : Result := .next (s.tick (Config.clkExecute + Config.clkInstruction))

/-! ## Main memory (R36, R50) -/

/-- The byte an address reads as when nothing is listed at it: 0x00. DESIGN CHOICE, unsafe: R38 and R272 call such a
byte unspecified (log entry 2). -/
def Memory.blank : Byte := 0x00

/-- The byte at an address. -/
def Memory.read : Memory → Nat → Byte
  | [], _ => Memory.blank
  | (b, v) :: m, a => if b = a then v else Memory.read m a

/-- A byte stored, in the canonical form: the pair in the place its address has, or no pair when the byte is the one an
unlisted address reads as. -/
def Memory.write : Memory → Nat → Byte → Memory
  | [], a, v => if v = Memory.blank then [] else [(a, v)]
  | (b, u) :: m, a, v =>
    if b = a then (if v = Memory.blank then m else (a, v) :: m)
    else if a < b then (if v = Memory.blank then (b, u) :: m else (a, v) :: (b, u) :: m)
    else (b, u) :: Memory.write m a v

/-- The canonical form of a memory all of whose addresses are at least `lo`. -/
def Memory.wfFrom : Nat → Memory → Bool
  | _, [] => true
  | lo, (b, v) :: m => decide (lo ≤ b) && decide (b < 65536) && decide (v ≠ Memory.blank) && Memory.wfFrom (b + 1) m

/-- The canonical form: addresses strictly rising and below 65536 (R36), no pair equal to what an unlisted address reads
as. -/
def Memory.wf (m : Memory) : Bool := Memory.wfFrom 0 m

/-- `M[a]`. -/
def State.memByte (s : State) (a : Word) : Byte := s.mem.read a.toNat

/-- `M[a] <- v`. -/
def State.setMemByte (s : State) (a : Word) (v : Byte) : State := { s with mem := s.mem.write a.toNat v }

/-! ## The MemoryBus (R50 to R53) -/

/-- Bit 0 of an address. -/
def isOdd (a : Word) : Bool := a.getLsbD 0

/-- R61: `T(a) = a & 0xFFFE`, the address of the word that contains `a`. -/
def wordAddr (a : Word) : Word := a &&& 0xFFFE

/-- R53: the address an access of width `w` at `a` uses: a word access is canonicalised down to the even address. -/
def alignAddr (w : Width) (a : Word) : Word :=
  match w with
  | .word => wordAddr a
  | .byte => a

/-- R53: a word access at an odd address is reported, once, with that address. -/
def State.checkAlign (s : State) (w : Width) (a : Word) : State :=
  match w with
  | .word => if isOdd a then s.report .misalignedWord a else s
  | .byte => s

/-- R10 (b): a transaction issued on the MemoryBus port. -/
def State.logBus (s : State) (t : BusTxn) : State := { s with bus := s.bus ++ [t] }

/-- R52: the value of `BusRead(a, n)`; a byte stands in bits 7 to 0 with zeros above. -/
def State.busValue (s : State) (w : Width) (a : Word) : Word :=
  match w with
  | .byte => byteWord (s.memByte a)
  | .word => joinBytes (s.memByte (wordAddr a + 1#16)) (s.memByte (wordAddr a))

/-- R52: the effect of `BusRead(a, n)`: the access is issued, the clock takes its cost, memory is not changed. -/
def State.busRead (s : State) (w : Width) (a : Word) : State :=
  ((s.checkAlign w a).logBus (.read a w)).tick Config.clkBus

/-- R52: `BusWrite(a, n, v)`. -/
def State.busWrite (s : State) (w : Width) (a : Word) (v : Word) : State :=
  let s1 := (s.checkAlign w a).tick Config.clkBus
  match w with
  | .byte => (s1.logBus (.write a .byte (byteWord (lowByte v)))).setMemByte a (lowByte v)
  | .word =>
    ((s1.logBus (.write a .word v)).setMemByte (wordAddr a) (lowByte v)).setMemByte (wordAddr a + 1#16) (highByte v)

/-! ## The cache lines (R34, R62 to R66) -/

/-- The lines in index order. -/
def Cache.toList (c : Cache) : List Line := c.first :: c.rest

/-- `N_LINES` (R8). -/
def Cache.size (c : Cache) : Nat := c.toList.length

/-- `MAX_AGE = N_LINES - 1` (R8, R66). -/
def Cache.maxAge (c : Cache) : Nat := c.size - 1

/-- `L[i]`. Every index the controller forms is below `N_LINES`. -/
def Cache.get (c : Cache) (i : Nat) : Line := c.toList.getD i c.first

/-- Every line replaced by a function of its index and itself. -/
def Cache.update (c : Cache) (f : Nat → Line → Line) : Cache :=
  { first := f 0 c.first, rest := c.rest.mapIdx (fun i l => f (i + 1) l) }

/-- One line replaced. -/
def Cache.modify (c : Cache) (i : Nat) (f : Line → Line) : Cache := c.update (fun j l => if j = i then f l else l)

/-- R34: a line is valid when either of its bytes is. -/
def Line.valid (l : Line) : Bool := l.vlo || l.vhi

/-- R62: `find(T)`, the lowest index of a valid line whose tag is `t`. -/
def Cache.find (c : Cache) (t : Word) : Option Nat := c.toList.findIdx? (fun l => l.valid && l.tag == t)

/-- The lowest age of any line. -/
def Cache.minAge (c : Cache) : Nat := c.rest.foldl (fun m l => min m l.age) c.first.age

/-- R63: the associative victim, the lowest index among the lines of the lowest age. -/
def Cache.victimAssoc (c : Cache) : Nat := c.toList.findIdx (fun l => l.age == c.minAge)

/-- R64: the direct-mapped victim, the word address modulo `N_LINES`. -/
def Cache.victimDirect (c : Cache) (t : Word) : Nat := t.toNat % c.size

/-- R63, R64: `victim(T)`. -/
def State.victim (s : State) (t : Word) : Nat :=
  match s.organisation with
  | .assoc => s.cache.victimAssoc
  | .direct => s.cache.victimDirect t

/-- The cache replaced. -/
def State.setCache (s : State) (c : Cache) : State := { s with cache := c }

/-- One line of the cache replaced. -/
def State.modifyLine (s : State) (i : Nat) (f : Line → Line) : State := s.setCache (s.cache.modify i f)

/-- R65: the line made invalid and clean. Its tag, data and age stay. -/
def Line.invalidate (l : Line) : Line := { l with vlo := false, vhi := false, dlo := false, dhi := false }

/-- R65: the dirty bytes of line `i` written to main memory at its own tag; under write-through nothing is written. -/
def State.flush (s : State) (i : Nat) : State :=
  let l := s.cache.get i
  match s.writePolicy with
  | .wt => s
  | .wb =>
    if l.dlo && l.dhi then s.busWrite .word l.tag (joinBytes l.hi l.lo)
    else if l.dlo then s.busWrite .byte l.tag (byteWord l.lo)
    else if l.dhi then s.busWrite .byte (l.tag + 1#16) (byteWord l.hi)
    else s

/-- R65: `evict(i)`. -/
def State.evict (s : State) (i : Nat) : State := (s.flush i).modifyLine i Line.invalidate

/-- R70, R71, the miss: the victim is evicted and given the new tag. -/
def State.install (s : State) (t : Word) (i : Nat) : State := (s.evict i).modifyLine i (fun l => { l with tag := t })

/-- R70, R71: the index of the line an access to the word at `t` uses: the one found, or the victim. -/
def State.lineFor (s : State) (t : Word) : Nat := (s.cache.find t).getD (s.victim t)

/-- R70, R71: the state in which line `lineFor t` has the tag `t`. -/
def State.locate (s : State) (t : Word) : State :=
  match s.cache.find t with
  | some _ => s
  | none => s.install t (s.victim t)

/-- R66: `touch(i)`. `p` is the counter of line `i` before the touch. -/
def Cache.touch (c : Cache) (i : Nat) : Cache :=
  let p := (c.get i).age
  c.update (fun j l =>
    if j = i then { l with age := c.maxAge }
    else if 0 < l.age ∧ p < l.age then { l with age := l.age - 1 }
    else l)

/-- R66: line `i` touched. -/
def State.touch (s : State) (i : Nat) : State := s.setCache (s.cache.touch i)

/-! ## MemRead and MemWrite (R70, R71) -/

/-- R61: does an access of width `w` at `a` need the low byte of its line? -/
def needsLo (w : Width) (a : Word) : Bool :=
  match w with
  | .word => true
  | .byte => !isOdd a

/-- R61: does an access of width `w` at `a` need the high byte of its line? -/
def needsHi (w : Width) (a : Word) : Bool :=
  match w with
  | .word => true
  | .byte => isOdd a

/-- R70: the low byte of line `i` fetched, clean, if it is needed and not valid. -/
def State.fillLo (s : State) (w : Width) (a : Word) (i : Nat) : State :=
  if needsLo w a && !(s.cache.get i).vlo then
    (s.busRead .byte (wordAddr a)).modifyLine i
      (fun l => { l with lo := lowByte (s.busValue .byte (wordAddr a)), vlo := true })
  else s

/-- R70: the high byte of line `i` fetched, clean, if it is needed and not valid. -/
def State.fillHi (s : State) (w : Width) (a : Word) (i : Nat) : State :=
  if needsHi w a && !(s.cache.get i).vhi then
    (s.busRead .byte (wordAddr a + 1#16)).modifyLine i
      (fun l => { l with hi := lowByte (s.busValue .byte (wordAddr a + 1#16)), vhi := true })
  else s

/-- R70: the bytes a read needs and line `i` lacks, fetched from the bus: both with one word read when the line holds
neither, otherwise only the missing one. -/
def State.fill (s : State) (w : Width) (a : Word) (i : Nat) : State :=
  if w == .word && !(s.cache.get i).vlo && !(s.cache.get i).vhi then
    (s.busRead .word (wordAddr a)).modifyLine i
      (fun l => { l with
        lo := lowByte (s.busValue .word (wordAddr a))
        hi := highByte (s.busValue .word (wordAddr a))
        vlo := true
        vhi := true })
  else (s.fillLo w a i).fillHi w a i

/-- R70: what an access of width `w` at `a` takes from its line; a byte stands in bits 7 to 0 with zeros above. -/
def Line.value (l : Line) (w : Width) (a : Word) : Word :=
  match w with
  | .word => joinBytes l.hi l.lo
  | .byte => if isOdd a then byteWord l.hi else byteWord l.lo

/-- R70, up to the touch: the state in which line `lineFor` holds every byte the read needs. -/
def State.readFill (s : State) (w : Width) (a : Word) : State :=
  ((s.checkAlign w a).locate (wordAddr a)).fill w a (s.lineFor (wordAddr a))

/-- R70: `MemRead(a, n)`, the value and the state after it. -/
def State.memRead (s : State) (w : Width) (a : Word) : Word × State :=
  let i := s.lineFor (wordAddr a)
  let s1 := s.readFill w a
  ((s1.cache.get i).value w a, s1.touch i)

/-- R71: the line after a store into it; `d` is the dirty flag the stored bytes get. -/
def Line.store (l : Line) (w : Width) (a : Word) (v : Word) (d : Bool) : Line :=
  match w with
  | .word => { l with lo := lowByte v, hi := highByte v, vlo := true, vhi := true, dlo := d, dhi := d }
  | .byte =>
    if isOdd a then { l with hi := lowByte v, vhi := true, dhi := d }
    else { l with lo := lowByte v, vlo := true, dlo := d }

/-- R71: are stored bytes marked dirty under this policy? -/
def dirtyOnWrite : Config.WritePolicy → Bool
  | .wb => true
  | .wt => false

/-- R71: under write-through the store also goes to main memory at once. -/
def State.writeThrough (s : State) (w : Width) (a : Word) (v : Word) : State :=
  match s.writePolicy with
  | .wb => s
  | .wt => s.busWrite w (alignAddr w a) v

/-- R71: `MemWrite(a, n, v)`. -/
def State.memWrite (s : State) (w : Width) (a : Word) (v : Word) : State :=
  let i := s.lineFor (wordAddr a)
  let s1 := (s.checkAlign w a).locate (wordAddr a)
  ((s1.modifyLine i (fun l => l.store w a v (dirtyOnWrite s.writePolicy))).writeThrough w a v).touch i

/-! ## The architectural memory (R80, R85) -/

/-- R85: the architectural value of the byte at `a`: the cached byte when its line is found and the byte is valid, else
the byte of main memory. -/
def State.archByte (s : State) (a : Word) : Byte :=
  match s.cache.find (wordAddr a) with
  | none => s.memByte a
  | some i =>
    let l := s.cache.get i
    if isOdd a then (if l.vhi then l.hi else s.memByte a)
    else (if l.vlo then l.lo else s.memByte a)

/-- R51, R85: the architectural word at the even address at or below `a`. -/
def State.archWord (s : State) (a : Word) : Word := joinBytes (s.archByte (wordAddr a + 1#16)) (s.archByte (wordAddr a))

/-! ## Fetch (R101) -/

/-- R101: IR takes the word at `x[7]` (through the cache, R83; an odd `x[7]` reads the word below it and is reported,
R25) and `x[7]` advances by 2 modulo 2^16. -/
def State.fetch (s : State) : State :=
  let p := s.memRead .word s.pc
  ((p.2.setIr p.1).setX .r7 (p.2.pc + 2#16)).tick Config.clkFetch

/-! ## Placing a word where the fetch reads it (the host's check of single instructions) -/

/-- A word put at `t` in main memory and in the line that holds `t`, if one does, so that a read of `t` answers it
whatever the cache holds. The valid and dirty flags stay. -/
def State.placeWord (s : State) (t : Word) (v : Word) : State :=
  let s1 := (s.setMemByte t (lowByte v)).setMemByte (t + 1#16) (highByte v)
  match s.cache.find t with
  | none => s1
  | some i => s1.modifyLine i (fun l => { l with lo := lowByte v, hi := highByte v })

end Sys2Proof.Machine
end

