-- ==== Sys2Proof/Machine/Operands.lean ====
section
/-! DEFINITION. The operand forms: the source of a two-operand instruction (spec 41_alu.md R160), writing a result of
either width (R164), the bit mask of BIT, BIC and BIS (R165), indexed and relative addresses (40_load_store.md R141,
R145), and branch targets (30_encoding.md R105, 43_branch.md R211). -/

namespace Sys2Proof.Machine

open Sys2Proof

/-- R160: the source operand `S`, `x[SRC]` or `k[SRC]`. -/
def State.operand (s : State) (src : Operand) : Word :=
  match src with
  | .reg r => s.x r
  | .const k => constTable k

/-- R160: `mask(W)`. -/
def widthMask : Width → Word
  | .word => 0xFFFF
  | .byte => 0x00FF

/-- R12: `msb(v, W)`, bit 15 for word and bit 7 for byte. -/
def msbOf (w : Width) (v : Word) : Bool :=
  match w with
  | .word => v.getLsbD 15
  | .byte => v.getLsbD 7

/-- R164: the value a register takes when a result of width `w` is written over `old`: a byte leaves bits 15 to 8. -/
def mergeResult (w : Width) (old r : Word) : Word :=
  match w with
  | .word => r
  | .byte => joinBytes (highByte old) (lowByte r)

/-- R164: `write_result(r, W)`. -/
def State.writeResult (s : State) (w : Width) (dst : Reg) (r : Word) : State :=
  s.setX dst (mergeResult w (s.x dst) r)

/-- R165: the bit index, the low four bits of the source. -/
def bitIndex (v : Word) : Nat := (v.extractLsb' 0 4).toNat

/-- R165: `bit_mask(S, W)`; in byte mode an index above 7 gives 0. -/
def bitMask (w : Width) (v : Word) : Word := ((1 : Word) <<< bitIndex v) &&& widthMask w

/-- R165: the warning of a byte-mode bit index above 7. -/
def State.checkBitIndex (s : State) (w : Width) (v : Word) : State :=
  match w with
  | .word => s
  | .byte => if 7 < bitIndex v then s.report .bitIndexRange (BitVec.ofNat 16 (bitIndex v)) else s

/-- R141: `delta`, 2 for word and 1 for byte. -/
def widthDelta : Width → Word
  | .word => 2
  | .byte => 1

/-- R141: what resolving an indexed address gives: the effective address `EA`, the address register's new value `A'`,
and whether it is modified. -/
structure Resolved where
  ea : Word
  next : Word
  modified : Bool
deriving DecidableEq, Repr

/-- R141: `resolve_indexed(A, PRPO, DEC, INC, delta)`; `none` is the undefined addressing mode. -/
def resolveIndexed (m : ModeBits) (w : Width) (a : Word) : Option Resolved :=
  match m.prpo, m.dec, m.inc with
  | false, false, false => some ⟨a, a, false⟩
  | false, false, true => some ⟨a, a + widthDelta w, true⟩
  | false, true, false => some ⟨a, a - widthDelta w, true⟩
  | true, false, true => some ⟨a + widthDelta w, a + widthDelta w, true⟩
  | true, true, false => some ⟨a - widthDelta w, a - widthDelta w, true⟩
  | false, true, true => none
  | true, false, false => none
  | true, true, true => none

/-- R142: the address register written back, unless it was not modified or is also the other register named. -/
def State.writeBack (s : State) (addr other : Reg) (r : Resolved) : State :=
  if r.modified ∧ addr ≠ other then s.setX addr r.next else s

/-- R104, R145: a relative effective address, `base + sext_7(OFF7)` modulo 2^16. -/
def relativeAddr (base : Word) (off : BitVec 7) : Word := base + off.signExtend 16

/-- R105: the displacement of a conditional branch, `sext_11(OFF10 << 1)`. -/
def branchDisp (off : BitVec Config.brOffBits) : Word := (off ++ 0#1).signExtend 16

/-- R105: the displacement of branch-and-link, `sext_14(OFF13 << 1)`. -/
def linkDisp (off : BitVec Config.blOffBits) : Word := (off ++ 0#1).signExtend 16

/-- R211: `branch_target(disp)`, from the post-fetch program counter, modulo 2^16. -/
def State.branchTarget (s : State) (disp : Word) : Word := s.pc + disp

end Sys2Proof.Machine
end

