-- ==== Sys2Proof/Machine/Flags.lean ====
section
/-! DEFINITION. The arithmetic unit's results and every flag computation: the add funnel with its two truth tables
(spec 41_alu.md R161, R162), the logic flags (R163), the decimal adder (R170), the shift flags (42_register_ops.md R193,
R194), and the 16-bit layout of the status word (10_state.md R27). -/

namespace Sys2Proof.Machine

open Sys2Proof

/-- R162: the CARRY table, indexed by the most significant bits of source, destination and result. -/
def carryTable (sm dm rm : Bool) : Bool :=
  match sm, dm, rm with
  | false, false, false => false
  | false, false, true => false
  | false, true, false => true
  | false, true, true => false
  | true, false, false => true
  | true, false, true => false
  | true, true, false => true
  | true, true, true => true

/-- R162: the OVERFLOW table. -/
def overflowTable (sm dm rm : Bool) : Bool :=
  match sm, dm, rm with
  | false, false, false => false
  | false, false, true => true
  | false, true, false => false
  | false, true, true => false
  | true, false, false => false
  | true, false, true => false
  | true, true, false => true
  | true, true, true => false

/-- A carry as a word. -/
def carryWord (c : Bool) : Word := if c then 1 else 0

/-- R161: the sum of the funnel, `(s + d + cin) & mask(W)`, for operands already reduced to `mask(W)`. -/
def funnelSum (w : Width) (sv dv : Word) (cin : Bool) : Word := (sv + dv + carryWord cin) &&& widthMask w

/-- R161: the flags of the funnel for the result `r`. -/
def funnelFlags (p : PSW) (w : Width) (sv dv r : Word) : PSW :=
  { p with
    c := carryTable (msbOf w sv) (msbOf w dv) (msbOf w r)
    v := overflowTable (msbOf w sv) (msbOf w dv) (msbOf w r)
    z := r == 0
    n := msbOf w r }

/-- R163: `logic_flags(r, W)`: Z and N from the result; C and V stay. -/
def logicFlags (p : PSW) (w : Width) (r : Word) : PSW := { p with z := r == 0, n := msbOf w r }

/-- R170, R193, R194: C given, Z and N from the result; V stays. -/
def carryLogicFlags (p : PSW) (w : Width) (c : Bool) (r : Word) : PSW := { logicFlags p w r with c := c }

/-- R170: one digit of the decimal sum and its carry. -/
def decimalDigit (x y : BitVec 4) (c : Bool) : BitVec 4 × Bool :=
  let t := x.toNat + y.toNat + c.toNat
  if 9 < t then (BitVec.ofNat 4 (t - 10), true) else (BitVec.ofNat 4 t, false)

/-- R170: nibble `i` of a word; nibble 0 is bits 3 to 0. -/
def nibble (v : Word) (i : Nat) : BitVec 4 := v.extractLsb' (4 * i) 4

/-- R170: the decimal sum of four nibbles (word) or two (byte), and the final carry. -/
def decimalSum (w : Width) (sv dv : Word) (cin : Bool) : Word × Bool :=
  let d0 := decimalDigit (nibble sv 0) (nibble dv 0) cin
  let d1 := decimalDigit (nibble sv 1) (nibble dv 1) d0.2
  match w with
  | .byte => (0#8 ++ d1.1 ++ d0.1, d1.2)
  | .word =>
    let d2 := decimalDigit (nibble sv 2) (nibble dv 2) d1.2
    let d3 := decimalDigit (nibble sv 3) (nibble dv 3) d2.2
    (d3.1 ++ d2.1 ++ d1.1 ++ d0.1, d3.2)

/-- R193, R194: a right shift by one with `top` entering at the most significant bit of the width. A byte result stands
in bits 7 to 0 with zeros above. -/
def shiftRightIn (w : Width) (top : Bool) (d : Word) : Word :=
  match w with
  | .word => BitVec.ofBool top ++ d.extractLsb' 1 15
  | .byte => 0#8 ++ BitVec.ofBool top ++ d.extractLsb' 1 7

/-- R27: the status word as 16 bits: C, Z, N, SLP, V at bits 0 to 4, CUR at 7 to 5, FLT at 8, zeros at 12 to 9, PRV at
15 to 13. -/
def PSW.toWord (p : PSW) : Word :=
  p.prv ++ 0#4 ++ BitVec.ofBool p.flt ++ p.cur ++ BitVec.ofBool p.v ++ BitVec.ofBool p.slp ++ BitVec.ofBool p.n
    ++ BitVec.ofBool p.z ++ BitVec.ofBool p.c

/-- R27: the status word read back from the layout; the reserved bits 12 to 9 are dropped. -/
def PSW.ofWord (w : Word) : PSW :=
  { c := w.getLsbD 0
    z := w.getLsbD 1
    n := w.getLsbD 2
    slp := w.getLsbD 3
    v := w.getLsbD 4
    cur := w.extractLsb' 5 3
    flt := w.getLsbD 8
    prv := w.extractLsb' 13 3 }

end Sys2Proof.Machine
end

