-- ==== Sys2Proof/Machine/Alu.lean ====
section
/-! DEFINITION. The arithmetic unit (spec 41_alu.md): the meanings of the twelve two-operand instructions, and the unit
at its own interface (R178). Each reads both operands before it writes anything, and writes its result and its flags
together at the end (R160, R164, R275). -/

namespace Sys2Proof.Machine

open Sys2Proof

/-- R161: the state after an add funnel whose result is written: sum and flags of `sv + D + cin`, where `sv` is the
source the funnel sees. -/
def State.addInto (s : State) (w : Width) (dst : Reg) (sv : Word) (cin : Bool) : State :=
  let d := s.x dst &&& widthMask w
  let r := funnelSum w sv d cin
  (s.setPsw (funnelFlags s.psw w sv d r)).writeResult w dst r

/-- R163: the state after a logic operation whose result `r` is written. -/
def State.logicInto (s : State) (w : Width) (dst : Reg) (r : Word) : State :=
  (s.setPsw (logicFlags s.psw w r)).writeResult w dst r

/-- R166: ADD, `DST + SRC`. -/
def State.aluAdd (s : State) (src : Operand) (w : Width) (dst : Reg) : State :=
  s.addInto w dst (s.operand src &&& widthMask w) false

/-- R167: ADDC, `DST + SRC + C`. -/
def State.aluAddc (s : State) (src : Operand) (w : Width) (dst : Reg) : State :=
  s.addInto w dst (s.operand src &&& widthMask w) s.psw.c

/-- R168: SUB, `DST + ~SRC + 1`; the funnel sees the complemented source. -/
def State.aluSub (s : State) (src : Operand) (w : Width) (dst : Reg) : State :=
  s.addInto w dst (~~~(s.operand src) &&& widthMask w) true

/-- R169: SUBC, `DST + ~SRC + C`. -/
def State.aluSubc (s : State) (src : Operand) (w : Width) (dst : Reg) : State :=
  s.addInto w dst (~~~(s.operand src) &&& widthMask w) s.psw.c

/-- R170: DADD, the decimal sum; C, Z and N are written, V stays. -/
def State.aluDadd (s : State) (src : Operand) (w : Width) (dst : Reg) : State :=
  let r := decimalSum w (s.operand src) (s.x dst) s.psw.c
  (s.setPsw (carryLogicFlags s.psw w r.2 r.1)).writeResult w dst r.1

/-- R171: CMP, the flags of SUB; no register is written. -/
def State.aluCmp (s : State) (src : Operand) (w : Width) (dst : Reg) : State :=
  let sv := ~~~(s.operand src) &&& widthMask w
  let d := s.x dst &&& widthMask w
  s.setPsw (funnelFlags s.psw w sv d (funnelSum w sv d true))

/-- R172: XOR. -/
def State.aluXor (s : State) (src : Operand) (w : Width) (dst : Reg) : State :=
  s.logicInto w dst ((s.x dst ^^^ s.operand src) &&& widthMask w)

/-- R173: AND. -/
def State.aluAnd (s : State) (src : Operand) (w : Width) (dst : Reg) : State :=
  s.logicInto w dst ((s.x dst &&& s.operand src) &&& widthMask w)

/-- R174: OR. -/
def State.aluOr (s : State) (src : Operand) (w : Width) (dst : Reg) : State :=
  s.logicInto w dst ((s.x dst ||| s.operand src) &&& widthMask w)

/-- R175: BIT, the flags of the tested bit; no register is written. -/
def State.aluBit (s : State) (src : Operand) (w : Width) (dst : Reg) : State :=
  let r := (s.x dst &&& widthMask w) &&& bitMask w (s.operand src)
  (s.checkBitIndex w (s.operand src)).setPsw (logicFlags s.psw w r)

/-- R176: BIC, the bit cleared. -/
def State.aluBic (s : State) (src : Operand) (w : Width) (dst : Reg) : State :=
  (s.checkBitIndex w (s.operand src)).logicInto w dst
    ((s.x dst &&& widthMask w) &&& ~~~(bitMask w (s.operand src)))

/-- R177: BIS, the bit set. -/
def State.aluBis (s : State) (src : Operand) (w : Width) (dst : Reg) : State :=
  (s.checkBitIndex w (s.operand src)).logicInto w dst
    ((s.x dst &&& widthMask w) ||| bitMask w (s.operand src))

/-- R166. -/
def execAdd (src : Operand) (w : Width) (dst : Reg) (s : State) : Result := retire (s.aluAdd src w dst)

/-- R167. -/
def execAddc (src : Operand) (w : Width) (dst : Reg) (s : State) : Result := retire (s.aluAddc src w dst)

/-- R168. -/
def execSub (src : Operand) (w : Width) (dst : Reg) (s : State) : Result := retire (s.aluSub src w dst)

/-- R169. -/
def execSubc (src : Operand) (w : Width) (dst : Reg) (s : State) : Result := retire (s.aluSubc src w dst)

/-- R170. -/
def execDadd (src : Operand) (w : Width) (dst : Reg) (s : State) : Result := retire (s.aluDadd src w dst)

/-- R171. -/
def execCmp (src : Operand) (w : Width) (dst : Reg) (s : State) : Result := retire (s.aluCmp src w dst)

/-- R172. -/
def execXor (src : Operand) (w : Width) (dst : Reg) (s : State) : Result := retire (s.aluXor src w dst)

/-- R173. -/
def execAnd (src : Operand) (w : Width) (dst : Reg) (s : State) : Result := retire (s.aluAnd src w dst)

/-- R174. -/
def execOr (src : Operand) (w : Width) (dst : Reg) (s : State) : Result := retire (s.aluOr src w dst)

/-- R175. -/
def execBit (src : Operand) (w : Width) (dst : Reg) (s : State) : Result := retire (s.aluBit src w dst)

/-- R176. -/
def execBic (src : Operand) (w : Width) (dst : Reg) (s : State) : Result := retire (s.aluBic src w dst)

/-- R177. -/
def execBis (src : Operand) (w : Width) (dst : Reg) (s : State) : Result := retire (s.aluBis src w dst)

/-- R178: the arithmetic unit at its own interface, given the four-bit operation code of D5. A code that is none of the
twelve is reported with the code and changes no flag and no register. The decoder never sends one. -/
def State.aluUnit (s : State) (code : BitVec 4) (src : Operand) (w : Width) (dst : Reg) : State :=
  match code.toNat with
  | 0 => s.aluAdd src w dst
  | 1 => s.aluAddc src w dst
  | 2 => s.aluSub src w dst
  | 3 => s.aluSubc src w dst
  | 4 => s.aluDadd src w dst
  | 5 => s.aluCmp src w dst
  | 6 => s.aluXor src w dst
  | 7 => s.aluAnd src w dst
  | 8 => s.aluOr src w dst
  | 9 => s.aluBit src w dst
  | 10 => s.aluBic src w dst
  | 11 => s.aluBis src w dst
  | _ => s.report .unknownAluOp (code.setWidth 16)

end Sys2Proof.Machine
end

