-- ==== Sys2Proof/Machine/Branch.lean ====
section
/-! DEFINITION. The branch unit (spec 43_branch.md): the meanings of BL and of the eight conditional branches. -/

namespace Sys2Proof.Machine

open Sys2Proof

/-- R211: a conditional branch; taken, it overwrites the program counter. No branch writes a flag (R28). -/
def branchIf (cond : Bool) (off : BitVec Config.brOffBits) (s : State) : Result :=
  retire (if cond then s.setX .r7 (s.branchTarget (branchDisp off)) else s)

/-- R212: BL saves the post-fetch program counter in `x[5]` and always branches. -/
def execBl (off : BitVec Config.blOffBits) (s : State) : Result :=
  retire ((s.setX .r5 s.pc).setX .r7 (s.branchTarget (linkDisp off)))

/-- R213: BEQ, taken when Z = 1. -/
def execBeq (off : BitVec Config.brOffBits) (s : State) : Result := branchIf s.psw.z off s

/-- R214: BNE, taken when Z = 0. -/
def execBne (off : BitVec Config.brOffBits) (s : State) : Result := branchIf (!s.psw.z) off s

/-- R215: BC, taken when C = 1. -/
def execBc (off : BitVec Config.brOffBits) (s : State) : Result := branchIf s.psw.c off s

/-- R216: BNC, taken when C = 0. -/
def execBnc (off : BitVec Config.brOffBits) (s : State) : Result := branchIf (!s.psw.c) off s

/-- R217: BN, taken when N = 1. -/
def execBn (off : BitVec Config.brOffBits) (s : State) : Result := branchIf s.psw.n off s

/-- R218: BGE, taken when N xor V = 0. -/
def execBge (off : BitVec Config.brOffBits) (s : State) : Result := branchIf (!(s.psw.n ^^ s.psw.v)) off s

/-- R219: BLT, taken when N xor V = 1. -/
def execBlt (off : BitVec Config.brOffBits) (s : State) : Result := branchIf (s.psw.n ^^ s.psw.v) off s

/-- R220: BRA, always taken. -/
def execBra (off : BitVec Config.brOffBits) (s : State) : Result := branchIf true off s

end Sys2Proof.Machine
end

