-- ==== Sys2Proof/Machine/LoadStore.lean ====
section
/-! DEFINITION. The loads and stores (spec 40_load_store.md). Every access goes through the cache controller (R83's
`MemRead` and R71's `MemWrite`); no load or store writes a flag (R140). -/

namespace Sys2Proof.Machine

open Sys2Proof

/-- R143, R146: the end of a load: the value read goes to the destination, a byte to its low half only (R140). -/
def State.loadInto (s : State) (w : Width) (dst : Reg) (v : Word) : State := s.writeResult w dst v

/-- R143: LD. The mode is checked before any access (R141); the address register is written back before the
destination, and not at all when the two are one register (R142). -/
def execLd (m : ModeBits) (w : Width) (src dst : Reg) (s : State) : Result :=
  match resolveIndexed m w (s.x src) with
  | none => abandon .undefinedAddrMode s.ir Config.clkAbandonedMode s
  | some r =>
    let p := s.memRead w r.ea
    retire ((p.2.writeBack src dst r).loadInto w dst p.1)

/-- R144: ST. The data register is read before the address register is written back. -/
def execSt (m : ModeBits) (w : Width) (src dst : Reg) (s : State) : Result :=
  match resolveIndexed m w (s.x dst) with
  | none => abandon .undefinedAddrMode s.ir Config.clkAbandonedMode s
  | some r => retire ((s.memWrite w r.ea (s.x src)).writeBack dst src r)

/-- R146: LDR. The base register is not modified. -/
def execLdr (off : BitVec 7) (w : Width) (src dst : Reg) (s : State) : Result :=
  let p := s.memRead w (relativeAddr (s.x src) off)
  retire (p.2.loadInto w dst p.1)

/-- R147: STR. No register is written. -/
def execStr (off : BitVec 7) (w : Width) (src dst : Reg) (s : State) : Result :=
  retire (s.memWrite w (relativeAddr (s.x dst) off) (s.x src))

end Sys2Proof.Machine
end

