-- ==== Sys2Proof/Machine/RegOps.lean ====
section
/-! DEFINITION. Register moves, one-operand and move-immediate instructions (spec 42_register_ops.md). -/

namespace Sys2Proof.Machine

open Sys2Proof

/-- R191: MOV; the byte form keeps the high byte of the destination. No flag. -/
def execMov (w : Width) (src dst : Reg) (s : State) : Result := retire (s.writeResult w dst (s.x src))

/-- R192: SWAP. Both registers are read before either is written. No flag. -/
def execSwap (src dst : Reg) (s : State) : Result := retire ((s.setX dst (s.x src)).setX src (s.x dst))

/-- R193: SRA: the sign bit of the width is kept; the bit shifted out goes to C; Z and N from the result; V stays. -/
def execSra (w : Width) (dst : Reg) (s : State) : Result :=
  let d := s.x dst
  let r := shiftRightIn w (msbOf w d) d
  retire ((s.setPsw (carryLogicFlags s.psw w (d.getLsbD 0) r)).writeResult w dst r)

/-- R194: RRC: the old carry enters at the top; the bit rotated out becomes C; Z and N from the result; V stays. -/
def execRrc (w : Width) (dst : Reg) (s : State) : Result :=
  let d := s.x dst
  let r := shiftRightIn w s.psw.c d
  retire ((s.setPsw (carryLogicFlags s.psw w (d.getLsbD 0) r)).writeResult w dst r)

/-- R195: SWPB. No flag. -/
def execSwpb (dst : Reg) (s : State) : Result := retire (s.setX dst (joinBytes (lowByte (s.x dst)) (highByte (s.x dst))))

/-- R196: SXT: bit 7 copied into bits 15 to 8; Z and N from the result; C and V stay. -/
def execSxt (dst : Reg) (s : State) : Result :=
  let r := (lowByte (s.x dst)).signExtend 16
  retire ((s.setPsw (logicFlags s.psw .word r)).setX dst r)

/-- R197: MOVL, the low byte from the immediate, the high byte kept. -/
def execMovl (b : Byte) (dst : Reg) (s : State) : Result := retire (s.setX dst (joinBytes (highByte (s.x dst)) b))

/-- R198: MOVLZ, the high byte 0x00. -/
def execMovlz (b : Byte) (dst : Reg) (s : State) : Result := retire (s.setX dst (joinBytes 0x00 b))

/-- R199: MOVLS, the high byte 0xFF. -/
def execMovls (b : Byte) (dst : Reg) (s : State) : Result := retire (s.setX dst (joinBytes 0xFF b))

/-- R200: MOVH, the high byte from the immediate, the low byte kept. -/
def execMovh (b : Byte) (dst : Reg) (s : State) : Result := retire (s.setX dst (joinBytes b (lowByte (s.x dst))))

end Sys2Proof.Machine
end

