-- ==== Sys2Proof/Machine/Dispatch.lean ====
section
/-! DEFINITION. The dispatch: one arm per instruction of spec 30_encoding.md R111, each one call of its meaning. -/

namespace Sys2Proof.Machine

open Sys2Proof

def exec (i : Instr) (s : State) : Host.Outcome State Fault Refusal :=
  match i with
  | .bl off => Sys2Proof.Machine.execBl off s
  | .beq off => Sys2Proof.Machine.execBeq off s
  | .bne off => Sys2Proof.Machine.execBne off s
  | .bc off => Sys2Proof.Machine.execBc off s
  | .bnc off => Sys2Proof.Machine.execBnc off s
  | .bn off => Sys2Proof.Machine.execBn off s
  | .bge off => Sys2Proof.Machine.execBge off s
  | .blt off => Sys2Proof.Machine.execBlt off s
  | .bra off => Sys2Proof.Machine.execBra off s
  | .add src w dst => Sys2Proof.Machine.execAdd src w dst s
  | .addc src w dst => Sys2Proof.Machine.execAddc src w dst s
  | .sub src w dst => Sys2Proof.Machine.execSub src w dst s
  | .subc src w dst => Sys2Proof.Machine.execSubc src w dst s
  | .dadd src w dst => Sys2Proof.Machine.execDadd src w dst s
  | .cmp src w dst => Sys2Proof.Machine.execCmp src w dst s
  | .xor src w dst => Sys2Proof.Machine.execXor src w dst s
  | .and src w dst => Sys2Proof.Machine.execAnd src w dst s
  | .or src w dst => Sys2Proof.Machine.execOr src w dst s
  | .bit src w dst => Sys2Proof.Machine.execBit src w dst s
  | .bic src w dst => Sys2Proof.Machine.execBic src w dst s
  | .bis src w dst => Sys2Proof.Machine.execBis src w dst s
  | .mov w src dst => Sys2Proof.Machine.execMov w src dst s
  | .swap src dst => Sys2Proof.Machine.execSwap src dst s
  | .sra w dst => Sys2Proof.Machine.execSra w dst s
  | .rrc w dst => Sys2Proof.Machine.execRrc w dst s
  | .swpb dst => Sys2Proof.Machine.execSwpb dst s
  | .sxt dst => Sys2Proof.Machine.execSxt dst s
  | .ld m w src dst => Sys2Proof.Machine.execLd m w src dst s
  | .st m w src dst => Sys2Proof.Machine.execSt m w src dst s
  | .movl b dst => Sys2Proof.Machine.execMovl b dst s
  | .movlz b dst => Sys2Proof.Machine.execMovlz b dst s
  | .movls b dst => Sys2Proof.Machine.execMovls b dst s
  | .movh b dst => Sys2Proof.Machine.execMovh b dst s
  | .ldr off w src dst => Sys2Proof.Machine.execLdr off w src dst s
  | .str off w src dst => Sys2Proof.Machine.execStr off w src dst s

end Sys2Proof.Machine
end

