-- ==== Sys2Proof/Machine/Step.lean ====
section
/-! DEFINITION. One step of the core (spec 60_exceptions.md R251): fetch, decode, execute. -/

namespace Sys2Proof.Machine

open Sys2Proof

/-- R251: when STOPPED is 0 one instruction is fetched (R101), decoded (R110) and executed to completion; when it is 1
nothing happens. A word that is no instruction is reported and abandoned (R113, R232). -/
def step (s : State) : Host.Outcome State Fault Refusal :=
  if s.stopped then .next s
  else
    let s1 := s.fetch
    match decode s1.ir with
    | .error _ => abandon .undefinedOpcode s1.ir Config.clkAbandonedOpcode s1
    | .ok i => exec i (s1.tick Config.clkDecode)

/-- `s` with the word `w` of `nbits` bits where the next fetch reads it: at the word address of `x[7]`, in main memory
and in the cache line that holds it if one does, and with STOPPED clear so that the next step runs it (log entry 7). -/
def State.withFetchWord (s : State) (nbits w : Nat) : State :=
  { s.placeWord (wordAddr s.pc) (BitVec.ofNat 16 (w % 2 ^ nbits)) with stopped := false }

end Sys2Proof.Machine
end

