-- ==== Sys2Proof/Machine/HostPort.lean ====
section
/-! DEFINITION. The host port (spec 60_exceptions.md section 5), the loader (R255) and the reset of the block
(70_reset_and_hazards.md R270). The host acts between instructions only (R250); no step of the core calls these.
`Step` (R251) is `step`. -/

namespace Sys2Proof.Machine

open Sys2Proof

/-- R253: `GetReg(i)`. -/
def State.hostGetReg (s : State) (r : Reg) : Word := s.x r

/-- R253: `SetReg(i, v)`; no alignment is forced on the program counter. -/
def State.hostSetReg (s : State) (r : Reg) (v : Word) : State := s.setX r v

/-- R253: `GetPC`, which is `GetReg(7)`. -/
def State.hostGetPC (s : State) : Word := s.hostGetReg .r7

/-- R253: `SetPC(v)`, which is `SetReg(7, v)`. -/
def State.hostSetPC (s : State) (v : Word) : State := s.hostSetReg .r7 v

/-- R253: the single-bit fields `GetFlag` and `SetFlag` name. -/
inductive FlagName where
  | c | z | n | v | slp | flt
deriving DecidableEq, Repr

/-- R253: the two three-bit fields `GetFlag` and `SetFlag` also reach. -/
inductive PriorityName where
  | cur | prv
deriving DecidableEq, Repr

/-- R253: `GetFlag(f)` of a single-bit field. -/
def State.hostGetFlag (s : State) (f : FlagName) : Bool :=
  match f with
  | .c => s.psw.c
  | .z => s.psw.z
  | .n => s.psw.n
  | .v => s.psw.v
  | .slp => s.psw.slp
  | .flt => s.psw.flt

/-- R253: `SetFlag(f, b)` of a single-bit field. -/
def State.hostSetFlag (s : State) (f : FlagName) (b : Bool) : State :=
  match f with
  | .c => s.setPsw { s.psw with c := b }
  | .z => s.setPsw { s.psw with z := b }
  | .n => s.setPsw { s.psw with n := b }
  | .v => s.setPsw { s.psw with v := b }
  | .slp => s.setPsw { s.psw with slp := b }
  | .flt => s.setPsw { s.psw with flt := b }

/-- R253: `GetFlag(f)` of a priority field. -/
def State.hostGetPriority (s : State) (f : PriorityName) : BitVec 3 :=
  match f with
  | .cur => s.psw.cur
  | .prv => s.psw.prv

/-- R253: `SetFlag(f, v)` of a priority field. -/
def State.hostSetPriority (s : State) (f : PriorityName) (v : BitVec 3) : State :=
  match f with
  | .cur => s.setPsw { s.psw with cur := v }
  | .prv => s.setPsw { s.psw with prv := v }

/-- R254: `CacheSnapshot`, every line in index order; it touches nothing. -/
def State.cacheSnapshot (s : State) : List Line := s.cache.toList

/-- R254: `GetClock`. -/
def State.hostGetClock (s : State) : Nat := s.clk

/-- R252: `RunUntil(target, cancel)`. The list holds what the cancellation signal reads after each instruction in turn;
the answer says whether the loop returned to the host, or the list ended first with the run still going. The
signal and the target are looked at after an instruction only, so at least one is executed when the core is not stopped
and the list is not empty. -/
def runUntil (target : Word) : List Bool → State → Host.Outcome (Bool × State) Fault Refusal
  | [], s => .next (s.stopped, s)
  | cancel :: later, s =>
    if s.stopped then .next (true, s)
    else match step s with
      | .next t => if cancel || t.pc == target then .next (true, t) else runUntil target later t
      | .fault f => .fault f
      | .refused r => .refused r

/-- R255: the image's bytes written to main memory, first to last, on the memory side of the bus. -/
def State.storeImage (s : State) : List Host.Cell → State
  | [] => s
  | (a, b) :: img => State.storeImage (s.setMemByte (BitVec.ofNat 16 a) b) img

/-- R255, R272: the loader. Main memory is written directly, not through the cache. R273 and U21 refuse it while any
line is valid; a byte beyond 0xFFFF has no place in the address space (R36). -/
def loadImage (img : List Host.Cell) (s : State) : Result :=
  match img.find? (fun p => decide (65536 ≤ p.1)) with
  | some p => .fault (.outOfRange p.1)
  | none =>
    if s.cache.toList.any Line.valid then .refused .loadBehindCache
    else .next (s.storeImage img)

/-- R270: reset of the block with the configuration inputs `wp` and `org` (R32): every piece of its state takes the value
of R38; main memory is not written and nothing is flushed (R84), and what has left on the two outputs stays. -/
def State.resetBlock (s : State) (wp : Config.WritePolicy) (org : Config.Organisation) : State :=
  { regs := RegFile.reset
    psw := PSW.reset
    ir := 0
    clk := 0
    writePolicy := wp
    organisation := org
    stopped := false
    cache := Cache.reset (s.cache.size - 1)
    mem := s.mem
    diags := s.diags
    bus := s.bus }

end Sys2Proof.Machine
end

