-- ==== Sys2Proof/Safety.lean ====
section
/-! DEFINITION. What the claims about runs are stated with: the coherent states of spec 10_state.md R35, the states a
run reaches, and the runs that report nothing. -/

namespace Sys2Proof.Machine

open Sys2Proof

/-- R35, with R34's "bit 0 always 0" of every tag and the canonical form of main memory: what every rule of
20_memory.md keeps, from reset onward. The proviso of R35 (c) and (d) holds of a run by itself, since a step writes main
memory through the cache controller only. -/
structure State.Coherent (s : State) : Prop where
  /-- Main memory is in its canonical form. -/
  memory : s.mem.wf = true
  /-- R34: bit 0 of a tag is always 0. -/
  tagEven : ∀ i < s.cache.size, isOdd (s.cache.get i).tag = false
  /-- R35 (a). -/
  dirtyValid : ∀ i < s.cache.size, ((s.cache.get i).dlo = true → (s.cache.get i).vlo = true) ∧
    ((s.cache.get i).dhi = true → (s.cache.get i).vhi = true)
  /-- R35 (b). -/
  uniqueTags : ∀ i < s.cache.size, ∀ j < s.cache.size, (s.cache.get i).valid = true → (s.cache.get j).valid = true →
    (s.cache.get i).tag = (s.cache.get j).tag → i = j
  /-- R35 (c), the flags: under write-through nothing is dirty. -/
  throughClean : s.writePolicy = .wt → ∀ i < s.cache.size, (s.cache.get i).dlo = false ∧ (s.cache.get i).dhi = false
  /-- R35 (c) and (d), the low byte: valid and not dirty, it equals main memory. -/
  cleanLo : ∀ i < s.cache.size, (s.cache.get i).vlo = true → (s.cache.get i).dlo = false →
    (s.cache.get i).lo = s.memByte (s.cache.get i).tag
  /-- R35 (c) and (d), the high byte. -/
  cleanHi : ∀ i < s.cache.size, (s.cache.get i).vhi = true → (s.cache.get i).dhi = false →
    (s.cache.get i).hi = s.memByte ((s.cache.get i).tag + 1#16)
  /-- R35 (e). -/
  ageBound : ∀ i < s.cache.size, (s.cache.get i).age ≤ s.cache.maxAge
  /-- R35 (f). -/
  directIndex : s.organisation = .direct → ∀ i < s.cache.size, (s.cache.get i).valid = true →
    (s.cache.get i).tag.toNat % s.cache.size = i

/-- R71, R53: the addresses of the bytes a store of width `w` at `a` writes: the two bytes of the aligned word, or the
one byte. -/
def storedAt (w : Width) (a b : Word) : Bool :=
  match w with
  | .word => wordAddr b == wordAddr a
  | .byte => b == a

/-- R71, R51: the byte a store of `v` leaves at `b`, one of the addresses it writes. -/
def storedByte (w : Width) (b v : Word) : Byte :=
  match w with
  | .word => if isOdd b then highByte v else lowByte v
  | .byte => lowByte v

/-- The states a run of the core reaches from `s`. -/
inductive Reaches (s : State) : State → Prop where
  | start : Reaches s s
  | next (t u : State) : Reaches s t → step t = .next u → Reaches s u

/-- R230: a stretch of a run that reported nothing: the diagnostic output is as it was. -/
def Quiet (s t : State) : Prop := t.diags = s.diags

end Sys2Proof.Machine
end

