-- ==== Sys2Proof/Certificates/Slice0/Obligations.lean ====
section
/-! DEFINITION. The statements for the provers, each `def Obligations.<Name> : Prop`. They speak of the model's own
reads: `State.x` (a register), `State.archByte` and `State.archWord` (the memory a program sees, spec 20_memory.md R85),
`State.memByte` (main memory), `exec` (one instruction after its fetch) and `step` (a whole one). -/

open Sys2Proof Sys2Proof.Machine

namespace Sys2Proof.Claim

/-! ## Words the statements share -/

/-- The instruction ran to completion and left `s` with these registers and this status word, and everything else (IR,
the cache, every byte of memory, the configuration, STOPPED, the outputs) as it was. The clock advanced by some cost,
which is left open here (log entry 3). -/
def Completes (r : Result) (s : State) (regs : RegFile) (psw : PSW) : Prop :=
  ∃ cost, r = .next { s with regs := regs, psw := psw, clk := s.clk + cost }

/-- The same with events reported first. -/
def CompletesWith (r : Result) (s : State) (regs : RegFile) (psw : PSW) (ev : List Event) : Prop :=
  Completes r { s with diags := s.diags ++ ev } regs psw

/-- What no access to memory changes: IR, the configuration, STOPPED, the number of lines; and the clock does not go
back. -/
def SameControl (s t : State) : Prop :=
  t.ir = s.ir ∧ t.writePolicy = s.writePolicy ∧ t.organisation = s.organisation ∧ t.stopped = s.stopped ∧
  t.cache.size = s.cache.size ∧ s.clk ≤ t.clk

/-- The event of a word access at an odd address (R53). -/
def alignReport (w : Width) (a : Word) : List Event :=
  if w = .word ∧ isOdd a = true then [⟨.misalignedWord, a⟩] else []

/-- The flags of the sum `d + s + c` of `n`-bit operands, by arithmetic: C says the unsigned sum does not fit, V that
the signed sum does not. -/
def sumFlags {n : Nat} (p : PSW) (d s : BitVec n) (c : Bool) : PSW :=
  { p with
    c := decide (2 ^ n ≤ d.toNat + s.toNat + c.toNat)
    v := decide ((d + s + BitVec.ofNat n c.toNat).toInt ≠ d.toInt + s.toInt + c.toNat)
    z := decide (d + s + BitVec.ofNat n c.toNat = 0)
    n := (d + s + BitVec.ofNat n c.toNat).msb }

/-- The flags of the difference `d - s - b` of `n`-bit operands, by arithmetic: C says there is no borrow, V that the
signed difference does not fit. -/
def diffFlags {n : Nat} (p : PSW) (d s : BitVec n) (b : Bool) : PSW :=
  { p with
    c := decide (s.toNat + b.toNat ≤ d.toNat)
    v := decide ((d - s - BitVec.ofNat n b.toNat).toInt ≠ d.toInt - s.toInt - b.toNat)
    z := decide (d - s - BitVec.ofNat n b.toNat = 0)
    n := (d - s - BitVec.ofNat n b.toNat).msb }

/-- Z and N of an `n`-bit result; C and V stay. -/
def zn {n : Nat} (p : PSW) (r : BitVec n) : PSW := { p with z := decide (r = 0), n := r.msb }

/-- A word with its low byte replaced. -/
def withLow (d : Word) (b : Byte) : Word := joinBytes (highByte d) b

/-- R170 on numbers: the decimal sum of `n` digits, least significant first, and the last carry. -/
def decimal : Nat → Nat → Nat → Nat → Nat × Nat
  | 0, _, _, c => (0, c)
  | n + 1, x, y, c =>
    let t := x % 16 + y % 16 + c
    let r := decimal n (x / 16) (y / 16) (if 9 < t then 1 else 0)
    ((if 9 < t then t - 10 else t) % 16 + 16 * r.1, r.2)

/-- The number that `n` decimal digits stand for. -/
def decimalValue : Nat → Nat → Nat
  | 0, _ => 0
  | n + 1, x => x % 16 + 10 * decimalValue n (x / 16)

/-- All of the `n` lowest nibbles are decimal digits. -/
def decimalDigits : Nat → Nat → Prop
  | 0, _ => True
  | n + 1, x => x % 16 ≤ 9 ∧ decimalDigits n (x / 16)

/-- The number of digits and of bits of a width. -/
def digits : Width → Nat
  | .word => 4
  | .byte => 2

/-- A value reduced to a width, as a number. -/
def reduced : Width → Word → Nat
  | .word, v => v.toNat
  | .byte, v => (lowByte v).toNat

/-- R111: the rows of the opcode map: mnemonic, match, mask. -/
def opcodeMap : List (String × Word × Word) :=
  [("BL", 0x0000, 0xE000), ("BEQ", 0x2000, 0xFC00), ("BNE", 0x2400, 0xFC00), ("BC", 0x2800, 0xFC00),
   ("BNC", 0x2C00, 0xFC00), ("BN", 0x3000, 0xFC00), ("BGE", 0x3400, 0xFC00), ("BLT", 0x3800, 0xFC00),
   ("BRA", 0x3C00, 0xFC00)] ++
  [("ADD", 0x4000, 0xFF00), ("ADDC", 0x4100, 0xFF00), ("SUB", 0x4200, 0xFF00), ("SUBC", 0x4300, 0xFF00),
   ("DADD", 0x4400, 0xFF00), ("CMP", 0x4500, 0xFF00), ("XOR", 0x4600, 0xFF00), ("AND", 0x4700, 0xFF00),
   ("OR", 0x4800, 0xFF00), ("BIT", 0x4900, 0xFF00), ("BIC", 0x4A00, 0xFF00), ("BIS", 0x4B00, 0xFF00)] ++
  [("MOV", 0x4C00, 0xFF80), ("SWAP", 0x4C80, 0xFFC0), ("SRA", 0x4D00, 0xFFB8), ("RRC", 0x4D08, 0xFFB8),
   ("SWPB", 0x4D18, 0xFFF8), ("SXT", 0x4D20, 0xFFF8), ("LD", 0x5800, 0xFC00), ("ST", 0x5C00, 0xFC00),
   ("MOVL", 0x6000, 0xF800), ("MOVLZ", 0x6800, 0xF800), ("MOVLS", 0x7000, 0xF800), ("MOVH", 0x7800, 0xF800),
   ("LDR", 0x8000, 0xC000), ("STR", 0xC000, 0xC000)]

/-- Between two word values. -/
def within (lo hi w : Word) : Prop := lo.toNat ≤ w.toNat ∧ w.toNat ≤ hi.toNat

/-- R231, R235: the conditions an instruction of this block can meet at decode or execute. -/
def lateDiag : Diag → Prop
  | .undefinedOpcode => True
  | .undefinedAddrMode => True
  | .misalignedWord => True
  | .bitIndexRange => True
  | .outOfRange => False
  | .cacheInvariant => False
  | .unknownAluOp => False
  | .nullWriteTarget => False

/-- R28: the instructions that write C. -/
def writesC : Instr → Bool
  | .add .. | .addc .. | .sub .. | .subc .. | .cmp .. | .dadd .. | .sra .. | .rrc .. => true
  | _ => false

/-- R28: the instructions that write Z and N. -/
def writesZN : Instr → Bool
  | .xor .. | .and .. | .or .. | .bit .. | .bic .. | .bis .. | .sxt .. => true
  | i => writesC i

/-- R28: the instructions that write V. -/
def writesV : Instr → Bool
  | .add .. | .addc .. | .sub .. | .subc .. | .cmp .. => true
  | _ => false

/-- The instructions that store to memory. -/
def stores : Instr → Bool
  | .st .. | .str .. => true
  | _ => false

/-- The registers an instruction names as written: its destination, or the address register of a store. -/
def byteDestination : Instr → Option Reg
  | .add _ .byte d | .addc _ .byte d | .sub _ .byte d | .subc _ .byte d | .dadd _ .byte d | .cmp _ .byte d
  | .xor _ .byte d | .and _ .byte d | .or _ .byte d | .bit _ .byte d | .bic _ .byte d | .bis _ .byte d => some d
  | .mov .byte _ d | .sra .byte d | .rrc .byte d | .ld _ .byte _ d | .ldr _ .byte _ d => some d
  | _ => none

/-- A state with its inert fields (R29) replaced. -/
def withInert (s : State) (slp flt : Bool) (cur prv : BitVec 3) : State :=
  s.setPsw { s.psw with slp := slp, flt := flt, cur := cur, prv := prv }

/-- An outcome with its next state mapped. -/
def mapNext (f : State → State) : Result → Result
  | .next s => .next (f s)
  | .fault r => .fault r
  | .refused r => .refused r

/-- The recency counters are told apart: two lines share a counter only at 0. Every touch (R66) keeps this. -/
def AgesDistinct (s : State) : Prop :=
  ∀ i < s.cache.size, ∀ j < s.cache.size, (s.cache.get i).age = (s.cache.get j).age → i = j ∨ (s.cache.get i).age = 0

/-- R65: the bus transaction of flushing a line under write-back. -/
def flushTxns (l : Line) : List BusTxn :=
  match l.dlo, l.dhi with
  | true, true => [.write l.tag .word (joinBytes l.hi l.lo)]
  | true, false => [.write l.tag .byte (byteWord l.lo)]
  | false, true => [.write (l.tag + 1#16) .byte (byteWord l.hi)]
  | false, false => []

/-- `n` executions of one instruction in a row. -/
def repeated (i : Instr) : Nat → State → Result
  | 0, s => .next s
  | n + 1, s =>
    match exec i s with
    | .next t => repeated i n t
    | .fault r => .fault r
    | .refused r => .refused r

end Sys2Proof.Claim

open Sys2Proof.Claim

/-! ## Encoding -/

/-- Words of 95_test_vectors.md and of the instruction rules' examples, one or more for each format of R103. Rests on
the spec's own decisions D2 to D6 and D14. -/
def Obligations.DecodeReadsTheSpecsExampleWords : Prop :=
  decode 0x007F = .ok (.bl 0x7F) ∧
  decode 0x27FD = .ok (.bne 0x3FD) ∧
  decode 0x4008 = .ok (.add (.reg .r1) .word .r0) ∧
  decode 0x4AC8 = .ok (.bic (.const .k1) .byte .r0) ∧
  decode 0x4C2F = .ok (.mov .word .r5 .r7) ∧
  decode 0x4C88 = .ok (.swap .r1 .r0) ∧
  decode 0x4D48 = .ok (.rrc .byte .r0) ∧
  decode 0x4D1A = .ok (.swpb .r2) ∧
  decode 0x5F06 = .ok (.st ⟨true, true, false⟩ .word .r0 .r6) ∧
  decode 0x77F3 = .ok (.movls 0xFE .r3) ∧
  decode 0xBF08 = .ok (.ldr 0x7E .word .r1 .r0) ∧
  decode 0xC1C4 = .ok (.str 3 .byte .r0 .r4)

/-- R110, R111: every instruction, with every operand value its fields admit, is read back from its word, and from
its two bytes with whatever follows them left over. Rests on the spec's own decisions D2 to D6, D14 and D17. -/
def Obligations.DecodeOfEncodeIsTheInstruction : Prop :=
  ∀ (i : Instr) (rest : List Byte), decode (encode i) = .ok i ∧
    decodeBytes (lowByte (encode i) :: highByte (encode i) :: rest) = .ok (i, rest)

/-- R110, D39: no two words decode to one instruction and no bit of a word is dropped. Rests on the spec's own
decisions D2, D39. -/
def Obligations.EncodeOfDecodeIsTheWord : Prop :=
  ∀ (w : Word) (i : Instr), decode w = .ok i → encode i = w

/-- R112: the words that are no instruction, by the ranges of its table; and the words that are an LD or ST with an
undefined addressing mode. Rests on the spec's own decisions D2, D14 and D39. -/
def Obligations.UndefinedWordsAreThoseOfTheTable : Prop :=
  (∀ w : Word, (∃ e, decode w = .error e) ↔
    within 0x4CC0 0x4CFF w ∨ within 0x4D10 0x4D17 w ∨ within 0x4D50 0x4D57 w ∨ within 0x4D28 0x4D3F w ∨
    within 0x4D68 0x4D7F w ∨ within 0x4D58 0x4D5F w ∨ within 0x4D60 0x4D67 w ∨ within 0x4D80 0x4DFF w ∨
    within 0x4E00 0x4FFF w ∨ within 0x5000 0x57FF w) ∧
  (∀ (w : Word) (i : Instr), decode w = .ok i →
    (i.wellFormed = false ↔ within 0x5800 0x5FFF w ∧
      (w.extractLsb' 7 3 = 0b011#3 ∨ w.extractLsb' 7 3 = 0b100#3 ∨ w.extractLsb' 7 3 = 0b111#3)))

/-- R111: a word is the instruction of a row of the opcode map exactly when `w & mask = match`. Rests on the spec's
own decisions D1, D2, D4 and D5. -/
def Obligations.OpcodeMapSelectsByMatchAndMask : Prop :=
  ∀ row ∈ opcodeMap, ∀ w : Word,
    w &&& row.2.2 = row.2.1 ↔ ∃ i, decode w = .ok i ∧ i.mnemonic = row.1

/-- R114: the words that look useless execute as defined: 0x0000 is BL with displacement 0, which sets `x[5]` to the
post-fetch program counter and moves nothing else; 0x4C00 is MOV R0,R0 and changes nothing; 0x3C00 is BRA with
displacement 0 and falls through; 0x3FFF is BRA with displacement -2, to itself. -/
def Obligations.UselessLookingWordsExecuteAsDefined : Prop :=
  ∀ s : State,
    (∃ i, decode 0x0000 = .ok i ∧ i = .bl 0 ∧ Completes (exec i s) s (s.regs.put .r5 (s.x .r7)) s.psw) ∧
    (∃ i, decode 0x4C00 = .ok i ∧ i = .mov .word .r0 .r0 ∧ Completes (exec i s) s s.regs s.psw) ∧
    (∃ i, decode 0x3C00 = .ok i ∧ i = .bra 0 ∧ Completes (exec i s) s s.regs s.psw) ∧
    (∃ i, decode 0x3FFF = .ok i ∧ i = .bra 0x3FF ∧ Completes (exec i s) s (s.regs.put .r7 (s.x .r7 - 2#16)) s.psw)

/-! ## Fetch and step -/

/-- R251: a step runs the instruction the bytes at the program counter decode to. The step adds the fetch (IR takes
the word, `x[7]` advances, `Obligations.FetchReadsTheWordAndAdvances`) and the clock cost of the decode. An odd
program counter reads the word below it (R25). Rests on the spec's own decisions D18, D19, D20. -/
def Obligations.StepRunsTheDecodedInstruction : Prop :=
  ∀ (s : State) (i : Instr), s.Coherent → s.stopped = false →
    decodeBytes [s.archByte (wordAddr s.pc), s.archByte (wordAddr s.pc + 1#16)] = .ok (i, []) →
    step s = exec i (s.fetch.tick Config.clkDecode)

/-- R101, R25: the fetch puts the word at `x[7]`, or for an odd `x[7]` the word below it with a report, into IR,
advances `x[7]` by 2 modulo 2^16 from its own value, and changes no other register, no flag and no byte a program
sees. Rests on the spec's own decisions D18, D19, D20. -/
def Obligations.FetchReadsTheWordAndAdvances : Prop :=
  ∀ s : State, s.Coherent →
    s.fetch.ir = joinBytes (s.archByte (wordAddr s.pc + 1#16)) (s.archByte (wordAddr s.pc)) ∧
    s.fetch.x .r7 = s.x .r7 + 2#16 ∧ (∀ q, q ≠ .r7 → s.fetch.x q = s.x q) ∧ s.fetch.psw = s.psw ∧
    (∀ b, s.fetch.archByte b = s.archByte b) ∧ s.fetch.diags = s.diags ++ alignReport .word (s.x .r7) ∧
    s.fetch.writePolicy = s.writePolicy ∧ s.fetch.organisation = s.organisation ∧ s.fetch.stopped = s.stopped ∧
    s.fetch.cache.size = s.cache.size ∧ s.clk ≤ s.fetch.clk

/-- R113, R232: a word that is no instruction is reported with the word as information and abandoned; the program
counter keeps its advance, IR holds the word, and no other register, no flag and no byte a program sees changes. An
odd program counter fetches the word below it, and its report comes first (R25, R53, R235). Rests on the spec's own
decisions D19 (the odd program counter), D31 (the order of the events) and D32 (what an abandoned instruction
leaves), which log entry 14 follows. -/
def Obligations.UndefinedOpcodeIsReportedAndAbandoned : Prop :=
  ∀ (s : State) (e : Reject), s.Coherent → s.stopped = false → decode (s.archWord s.pc) = .error e →
    ∃ t, step s = .next t ∧ t.x .r7 = s.x .r7 + 2#16 ∧ (∀ q, q ≠ .r7 → t.x q = s.x q) ∧ t.psw = s.psw ∧
      (∀ b, t.archByte b = s.archByte b) ∧ t.ir = s.archWord s.pc ∧
      t.diags = s.diags ++ alignReport .word (s.x .r7) ++ [⟨.undefinedOpcode, s.archWord s.pc⟩] ∧
      t.cache = s.fetch.cache ∧ t.mem = s.fetch.mem ∧ t.stopped = false ∧ s.clk ≤ t.clk

/-- R33: STOPPED is set by the fatal diagnostic and by no other (R234); while it is 1 no instruction is executed;
only reset clears it; and no step sets it. Rests on the spec's own decisions D31, and on log entry 8 (a stopped
core's step answers the same state). -/
def Obligations.StopLatchIsSetOnlyByTheFatalDiagnostic : Prop :=
  (∀ (s : State) (v : Word), (s.report .outOfRange v).stopped = true) ∧
  (∀ (s : State) (d : Diag) (v : Word), d ≠ .outOfRange → (s.report d v).stopped = s.stopped) ∧
  (∀ s : State, s.stopped = true → step s = .next s) ∧
  (∀ s t : State, step s = .next t → t.stopped = s.stopped) ∧
  (∀ (s : State) (wp : Config.WritePolicy) (org : Config.Organisation), (s.resetBlock wp org).stopped = false)

/-- R236, R113, R232: from every state a step answers a next state, never a fault or a refusal. That a stopped core's
step answers one, the same state (R33, R251), is the model's choice, log entry 8: R234 says such a core refuses Step.
Rests on the spec's own decisions D31, D32. -/
def Obligations.StepAlwaysHasNextState : Prop := ∀ s : State, ∃ t, step s = .next t

/-- R235: the events of one step, in stage order: a misaligned fetch, then at most one other. Rests on the spec's own
decisions D31. -/
def Obligations.StepReportsAtMostTwoEventsInStageOrder : Prop :=
  ∀ s t : State, s.Coherent → s.stopped = false → step s = .next t →
    ∃ ev : List Event, t.diags = s.diags ++ alignReport .word (s.x .r7) ++ ev ∧ ev.length ≤ 1 ∧
      (∀ e ∈ ev, lateDiag e.diag) ∧
      ((∃ e, decode (s.archWord s.pc) = .error e) → ev = [⟨.undefinedOpcode, s.archWord s.pc⟩])

/-- R35: every step keeps the coherence of cache and memory. Rests on the inference R35 marks as derived; the
canonical form of memory is the model's (log entry 2). -/
def Obligations.StepKeepsCoherence : Prop := ∀ s t : State, s.Coherent → step s = .next t → t.Coherent

/-- R35: the state after reset is coherent. Rests on the spec's own decisions D23 and the inference R35 marks as
derived. -/
def Obligations.ResetStateIsCoherent : Prop := State.reset.Coherent

/-- R270, R84: after any reset of the block, with any number of lines, the state is coherent again, and its memory is
main memory: what was dirty in the cache is lost. Rests on the spec's own decisions D23, D38. -/
def Obligations.ResetMakesCoherentAndDropsDirtyBytes : Prop :=
  ∀ (s : State) (wp : Config.WritePolicy) (org : Config.Organisation), s.mem.wf = true →
    (s.resetBlock wp org).Coherent ∧ AgesDistinct (s.resetBlock wp org) ∧
    ∀ b, (s.resetBlock wp org).archByte b = s.memByte b

/-- R38, R270: the table of reset values. Main memory is not changed; the number of lines is a parameter and stays.
Rests on the spec's own decisions D23, D24, D31, D36. -/
def Obligations.ResetGivesTheTableOfResetValues : Prop :=
  (∀ (s : State) (wp : Config.WritePolicy) (org : Config.Organisation),
    (∀ q, (s.resetBlock wp org).x q = 0x0000) ∧
    (s.resetBlock wp org).psw = ⟨false, false, false, false, false, false, 0, 0⟩ ∧
    (s.resetBlock wp org).ir = 0x0000 ∧ (s.resetBlock wp org).clk = 0 ∧
    (s.resetBlock wp org).writePolicy = wp ∧ (s.resetBlock wp org).organisation = org ∧
    (s.resetBlock wp org).stopped = false ∧ (s.resetBlock wp org).cache.size = s.cache.size ∧
    (∀ i < s.cache.size, (s.resetBlock wp org).cache.get i = ⟨0x0000, 0x00, 0x00, false, false, false, false, 0⟩) ∧
    (s.resetBlock wp org).mem = s.mem) ∧
  State.reset = State.reset.resetBlock .wb .assoc ∧ State.reset.cache.size = 32

/-- R29: SLP, FLT, CUR and PRV are storage only: a step neither reads nor writes them. Whatever they hold, the step
does the same, and leaves them. Rests on the spec's own decisions D22. -/
def Obligations.InertFieldsNeitherReadNorWritten : Prop :=
  ∀ (s : State) (slp flt : Bool) (cur prv : BitVec 3),
    step (withInert s slp flt cur prv) = mapNext (fun t => withInert t slp flt cur prv) (step s)

/-- R31, R32, R39: a step never turns the clock back and never changes the configuration registers or the number of
lines. Rests on the spec's own decisions D33, D36. -/
def Obligations.StepKeepsConfigurationAndClockNeverDecreases : Prop :=
  ∀ s t : State, step s = .next t →
    s.clk ≤ t.clk ∧ t.writePolicy = s.writePolicy ∧ t.organisation = s.organisation ∧ t.cache.size = s.cache.size

/-- R36, R80: only ST and STR change a byte of the memory a program sees. Rests on the inference R80 marks as
derived. -/
def Obligations.OnlyStoresChangeArchitecturalMemory : Prop :=
  ∀ s t : State, s.Coherent → step s = .next t →
    (∀ i, decode (s.archWord s.pc) = .ok i → stores i = false) → ∀ b, t.archByte b = s.archByte b

/-- R28: the writers of each flag: an instruction that is not in a flag's row leaves it, and none writes SLP, FLT,
CUR or PRV. Rests on the spec's own decisions D9, D11, D22. -/
def Obligations.OnlyTheListedInstructionsWriteAFlag : Prop :=
  ∀ (i : Instr) (s t : State), exec i s = .next t →
    (writesC i = false → t.psw.c = s.psw.c) ∧ (writesZN i = false → t.psw.z = s.psw.z ∧ t.psw.n = s.psw.n) ∧
    (writesV i = false → t.psw.v = s.psw.v) ∧
    t.psw.slp = s.psw.slp ∧ t.psw.flt = s.psw.flt ∧ t.psw.cur = s.psw.cur ∧ t.psw.prv = s.psw.prv

/-! ## The cache controller and main memory -/

/-- R52: the bus primitives on main memory. A word access at an odd address is canonicalised and reported. Rests on
the spec's own decisions D17. -/
def Obligations.BusPrimitivesReadAndWriteMainMemory : Prop :=
  (∀ (s : State) (a : Word), s.busValue .byte a = byteWord (s.memByte a) ∧
    s.busValue .word a = joinBytes (s.memByte (wordAddr a + 1#16)) (s.memByte (wordAddr a))) ∧
  (∀ (s : State) (w : Width) (a : Word), (s.busRead w a).mem = s.mem ∧
    s.clk ≤ (s.busRead w a).clk ∧ (s.busRead w a).diags = s.diags ++ alignReport w a) ∧
  (∀ (s : State) (w : Width) (a v b : Word), s.mem.wf = true →
    (s.busWrite w a v).memByte b = (if storedAt w a b then storedByte w b v else s.memByte b) ∧
    s.clk ≤ (s.busWrite w a v).clk ∧ (s.busWrite w a v).diags = s.diags ++ alignReport w a)

/-- R72: a read that finds its line with every byte it needs valid changes nothing but ages, beside the report of a
misaligned address; the bus is not used. -/
def Obligations.ReadHitChangesOnlyAges : Prop :=
  ∀ (s : State) (w : Width) (a : Word) (i : Nat), s.cache.find (wordAddr a) = some i →
    (needsLo w a = true → (s.cache.get i).vlo = true) → (needsHi w a = true → (s.cache.get i).vhi = true) →
    ∃ c : Cache, (s.memRead w a).2 = { s with cache := c, diags := s.diags ++ alignReport w a } ∧
      c.size = s.cache.size ∧
      ∀ j < s.cache.size, c.get j = { s.cache.get j with age := (c.get j).age }

/-- R66: every MemRead and every MemWrite touches exactly one line, the one that then holds the word, exactly once:
its counter becomes MAX_AGE and every other counter above its prior value drops by one. Rests on the spec's own
decisions D24. -/
def Obligations.EveryAccessTouchesOneLine : Prop :=
  ∀ (s t : State) (w : Width) (a v : Word), t = (s.memRead w a).2 ∨ t = s.memWrite w a v →
    ∃ i < s.cache.size, (t.cache.get i).tag = wordAddr a ∧ (t.cache.get i).age = s.cache.size - 1 ∧
      ∀ j < s.cache.size, j ≠ i →
        (t.cache.get j).age = if (s.cache.get j).age > (s.cache.get i).age then (s.cache.get j).age - 1
          else (s.cache.get j).age

/-- R65: eviction writes exactly the dirty bytes of the line to main memory at its own tag, as one transaction, under
write-back, and nothing under write-through; then the line is invalid and clean, with its age kept, and no other line
changes. That the invalid line keeps its tag and data is the model's choice, log entry 15, and no rule of the spec:
U18 allows any value. Rests on the spec's own decisions D27, D30. -/
def Obligations.EvictionFlushesExactlyTheDirtyBytes : Prop :=
  ∀ (s : State) (i : Nat), s.mem.wf = true → i < s.cache.size → isOdd (s.cache.get i).tag = false →
    (s.evict i).bus = s.bus ++ (match s.writePolicy with | .wb => flushTxns (s.cache.get i) | .wt => []) ∧
    (∀ b, (s.evict i).memByte b =
      if s.writePolicy = .wb ∧ (s.cache.get i).dlo = true ∧ b = (s.cache.get i).tag then (s.cache.get i).lo
      else if s.writePolicy = .wb ∧ (s.cache.get i).dhi = true ∧ b = (s.cache.get i).tag + 1#16 then (s.cache.get i).hi
      else s.memByte b) ∧
    (s.evict i).cache.get i =
      { s.cache.get i with vlo := false, vhi := false, dlo := false, dhi := false } ∧
    ∀ j < s.cache.size, j ≠ i → (s.evict i).cache.get j = s.cache.get j

/-- R65, R70, R277: on a read miss the dirty bytes of the victim go to the bus before the new content is read. Rests
on the spec's own decisions D26, D27, D30. -/
def Obligations.ReadMissFlushesBeforeItReads : Prop :=
  ∀ (s : State) (w : Width) (a : Word), s.Coherent → s.cache.find (wordAddr a) = none →
    (s.memRead w a).2.bus = s.bus ++
      (match s.writePolicy with | .wb => flushTxns (s.cache.get (s.victim (wordAddr a))) | .wt => []) ++
      [.read (alignAddr w a) w]

/-- R73: under write-through, when MemWrite returns main memory already holds the stored bytes. -/
def Obligations.WriteThroughIsImmediatelyInMainMemory : Prop :=
  ∀ (s : State) (w : Width) (a v b : Word), s.Coherent → s.writePolicy = .wt → storedAt w a b = true →
    (s.memWrite w a v).memByte b = storedByte w b v

/-- R74: under write-back main memory keeps its old bytes at the stored address until the line is evicted; the
eviction puts there exactly the stored bytes, and changes main memory nowhere outside the line's word. Rests on the
spec's own decisions D30. -/
def Obligations.WriteBackReachesMainMemoryAtEviction : Prop :=
  ∀ (s : State) (w : Width) (a v : Word) (i : Nat), s.Coherent → s.writePolicy = .wb →
    (s.memWrite w a v).cache.find (wordAddr a) = some i →
    (∀ b, storedAt w a b = true → (s.memWrite w a v).memByte b = s.memByte b ∧
      ((s.memWrite w a v).evict i).memByte b = storedByte w b v) ∧
    ∀ b, wordAddr b ≠ wordAddr a → ((s.memWrite w a v).evict i).memByte b = (s.memWrite w a v).memByte b

/-- R71, R61: a byte write that finds its line leaves the other byte of the line as it is, valid, dirty or neither,
and under write-back does not use the bus. That the other byte's data is kept also where it is invalid is the model's
choice, log entry 15: U18 allows any value. Rests on the spec's own decisions D25, D26. -/
def Obligations.ByteWriteHitLeavesTheSiblingByte : Prop :=
  ∀ (s : State) (a v : Word) (i : Nat), s.cache.find (wordAddr a) = some i →
    (isOdd a = true → (((s.memWrite .byte a v).cache.get i).lo, ((s.memWrite .byte a v).cache.get i).vlo,
      ((s.memWrite .byte a v).cache.get i).dlo) = ((s.cache.get i).lo, (s.cache.get i).vlo, (s.cache.get i).dlo) ∧
      ((s.memWrite .byte a v).cache.get i).hi = lowByte v ∧ ((s.memWrite .byte a v).cache.get i).vhi = true) ∧
    (isOdd a = false → (((s.memWrite .byte a v).cache.get i).hi, ((s.memWrite .byte a v).cache.get i).vhi,
      ((s.memWrite .byte a v).cache.get i).dhi) = ((s.cache.get i).hi, (s.cache.get i).vhi, (s.cache.get i).dhi) ∧
      ((s.memWrite .byte a v).cache.get i).lo = lowByte v ∧ ((s.memWrite .byte a v).cache.get i).vlo = true) ∧
    (s.writePolicy = .wb → (s.memWrite .byte a v).bus = s.bus ∧ (s.memWrite .byte a v).mem = s.mem)

/-- R66: every step keeps the recency counters told apart. Rests on the spec's own decisions D24 and the inference
R66 marks as derived. -/
def Obligations.StepKeepsAgesDistinct : Prop :=
  ∀ s t : State, s.Coherent → AgesDistinct s → step s = .next t → AgesDistinct t

/-- R75: under the associative organisation with more than one line, the line touched last is not the next victim;
the victim has the lowest counter of all lines, and of those the lowest index. Rests on the spec's own decisions D24. -/
def Obligations.JustTouchedLineIsNotTheNextVictim : Prop :=
  ∀ (s : State) (i : Nat) (t : Word), s.Coherent → AgesDistinct s → s.organisation = .assoc → 1 < s.cache.size →
    i < s.cache.size →
    (s.touch i).victim t ≠ i ∧ (s.touch i).victim t < s.cache.size ∧
    ∀ j < s.cache.size, ((s.touch i).cache.get ((s.touch i).victim t)).age < ((s.touch i).cache.get j).age ∨
      (((s.touch i).cache.get ((s.touch i).victim t)).age = ((s.touch i).cache.get j).age ∧
        (s.touch i).victim t ≤ j)

/-! ## The arithmetic unit -/

/-- R23: the constants table; it is read as the source when R/C is 1. -/
def Obligations.ConstantsTableHoldsTheEightValues : Prop :=
  ∀ s : State, [ConstIdx.k0, .k1, .k2, .k3, .k4, .k5, .k6, .k7].map (fun k => s.operand (.const k)) =
    [0x0000, 0x0001, 0x0002, 0x0004, 0x0008, 0x0010, 0x0020, 0xFFFF]

/-- R162: the carry and overflow tables, by their formulas, and row by row. Rests on the spec's own decisions D7. -/
def Obligations.CarryAndOverflowTables : Prop :=
  (∀ sm dm rm : Bool, carryTable sm dm rm = ((sm && dm) || ((sm || dm) && !rm)) ∧
    overflowTable sm dm rm = ((sm && dm && !rm) || (!sm && !dm && rm))) ∧
  [(false, false, false), (false, false, true), (false, true, false), (false, true, true), (true, false, false),
    (true, false, true), (true, true, false), (true, true, true)].map
      (fun p => (carryTable p.1 p.2.1 p.2.2, overflowTable p.1 p.2.1 p.2.2)) =
  [(false, false), (false, true), (true, false), (false, false), (true, false), (false, false), (true, true),
    (true, false)]

/-- R166, R167, R161, R164: ADD and ADDC, both widths. The byte forms work on the low bytes and keep the high byte. C
and V are the unsigned and signed overflow of the sum (R162). Rests on the spec's own decisions D6, D7. -/
def Obligations.AddAndAddcGiveTheSum : Prop :=
  ∀ (src : Operand) (dst : Reg) (s : State),
    Completes (exec (.add src .word dst) s) s
      (s.regs.put dst (s.x dst + s.operand src)) (sumFlags s.psw (s.x dst) (s.operand src) false) ∧
    Completes (exec (.add src .byte dst) s) s
      (s.regs.put dst (withLow (s.x dst) (lowByte (s.x dst) + lowByte (s.operand src))))
        (sumFlags s.psw (lowByte (s.x dst)) (lowByte (s.operand src)) false) ∧
    Completes (exec (.addc src .word dst) s) s
      (s.regs.put dst (s.x dst + s.operand src + BitVec.ofNat 16 s.psw.c.toNat))
        (sumFlags s.psw (s.x dst) (s.operand src) s.psw.c) ∧
    Completes (exec (.addc src .byte dst) s) s (s.regs.put dst (withLow (s.x dst)
          (lowByte (s.x dst) + lowByte (s.operand src) + BitVec.ofNat 8 s.psw.c.toNat)))
        (sumFlags s.psw (lowByte (s.x dst)) (lowByte (s.operand src)) s.psw.c)

/-- R168, R169, R161, R164: SUB and SUBC, both widths. C = 1 means no borrow. Rests on the spec's own decisions D6,
D7, D8. -/
def Obligations.SubAndSubcGiveTheDifference : Prop :=
  ∀ (src : Operand) (dst : Reg) (s : State),
    Completes (exec (.sub src .word dst) s) s
      (s.regs.put dst (s.x dst - s.operand src)) (diffFlags s.psw (s.x dst) (s.operand src) false) ∧
    Completes (exec (.sub src .byte dst) s) s
      (s.regs.put dst (withLow (s.x dst) (lowByte (s.x dst) - lowByte (s.operand src))))
        (diffFlags s.psw (lowByte (s.x dst)) (lowByte (s.operand src)) false) ∧
    Completes (exec (.subc src .word dst) s) s
      (s.regs.put dst (s.x dst - s.operand src - BitVec.ofNat 16 (!s.psw.c).toNat))
        (diffFlags s.psw (s.x dst) (s.operand src) (!s.psw.c)) ∧
    Completes (exec (.subc src .byte dst) s) s (s.regs.put dst (withLow (s.x dst)
          (lowByte (s.x dst) - lowByte (s.operand src) - BitVec.ofNat 8 (!s.psw.c).toNat)))
        (diffFlags s.psw (lowByte (s.x dst)) (lowByte (s.operand src)) (!s.psw.c))

/-- R171: CMP gives the flags of SUB and writes no register; the conditions that BEQ, BC, BGE and BLT test then hold
exactly when the destination is equal to, unsigned at least, signed at least, signed below the source. Rests on the
spec's own decisions D7, D8. -/
def Obligations.CompareOrdersTheOperands : Prop :=
  ∀ (src : Operand) (dst : Reg) (s : State),
    (∃ p, Completes (exec (.cmp src .word dst) s) s s.regs p ∧ p = diffFlags s.psw (s.x dst) (s.operand src) false ∧
      p.z = decide (s.x dst = s.operand src) ∧ p.c = decide ((s.operand src).toNat ≤ (s.x dst).toNat) ∧
      (!(p.n ^^ p.v)) = decide ((s.operand src).toInt ≤ (s.x dst).toInt) ∧
      (p.n ^^ p.v) = decide ((s.x dst).toInt < (s.operand src).toInt)) ∧
    (∃ p, Completes (exec (.cmp src .byte dst) s) s s.regs p ∧
      p = diffFlags s.psw (lowByte (s.x dst)) (lowByte (s.operand src)) false ∧
      p.z = decide (lowByte (s.x dst) = lowByte (s.operand src)) ∧
      p.c = decide ((lowByte (s.operand src)).toNat ≤ (lowByte (s.x dst)).toNat) ∧
      (!(p.n ^^ p.v)) = decide ((lowByte (s.operand src)).toInt ≤ (lowByte (s.x dst)).toInt) ∧
      (p.n ^^ p.v) = decide ((lowByte (s.x dst)).toInt < (lowByte (s.operand src)).toInt))

/-- R170: DADD, both widths, for every operand, by the digit algorithm on numbers: the result, the final carry in C,
Z and N from the result, V kept. Rests on the spec's own decisions D9. -/
def Obligations.DaddAddsDigitByDigit : Prop :=
  ∀ (src : Operand) (w : Width) (dst : Reg) (s : State),
    ∃ (regs : RegFile) (p : PSW), Completes (exec (.dadd src w dst) s) s regs p ∧
      (let r := decimal (digits w) (reduced w (s.operand src)) (reduced w (s.x dst)) s.psw.c.toNat
       regs = s.regs.put dst (match w with
         | .word => BitVec.ofNat 16 r.1
         | .byte => withLow (s.x dst) (BitVec.ofNat 8 r.1)) ∧
       p = { s.psw with
         c := decide (r.2 = 1)
         z := decide (r.1 = 0)
         n := decide (2 ^ (4 * digits w - 1) ≤ r.1) })

/-- R170: on decimal operands DADD is decimal addition: result and carry stand for the sum of the operands and C.
Rests on the spec's own decisions D9. -/
def Obligations.DaddOfDecimalDigitsIsDecimalAddition : Prop :=
  ∀ (src : Operand) (w : Width) (dst : Reg) (s t : State),
    decimalDigits (digits w) (reduced w (s.operand src)) → decimalDigits (digits w) (reduced w (s.x dst)) →
    exec (.dadd src w dst) s = .next t →
    decimalDigits (digits w) (reduced w (t.x dst)) ∧
    decimalValue (digits w) (reduced w (t.x dst)) + 10 ^ digits w * t.psw.c.toNat =
      decimalValue (digits w) (reduced w (s.operand src)) + decimalValue (digits w) (reduced w (s.x dst)) +
        s.psw.c.toNat

/-- R172 to R174, R163, R164: XOR, AND and OR, both widths: Z and N from the result, C and V kept. Rests on the
spec's own decisions D6. -/
def Obligations.LogicInstructionsGiveTheBitwiseResult : Prop :=
  ∀ (src : Operand) (dst : Reg) (s : State),
    Completes (exec (.xor src .word dst) s) s
      (s.regs.put dst (s.x dst ^^^ s.operand src)) (zn s.psw (s.x dst ^^^ s.operand src)) ∧
    Completes (exec (.xor src .byte dst) s) s
      (s.regs.put dst (withLow (s.x dst) (lowByte (s.x dst) ^^^ lowByte (s.operand src))))
        (zn s.psw (lowByte (s.x dst) ^^^ lowByte (s.operand src))) ∧
    Completes (exec (.and src .word dst) s) s
      (s.regs.put dst (s.x dst &&& s.operand src)) (zn s.psw (s.x dst &&& s.operand src)) ∧
    Completes (exec (.and src .byte dst) s) s
      (s.regs.put dst (withLow (s.x dst) (lowByte (s.x dst) &&& lowByte (s.operand src))))
        (zn s.psw (lowByte (s.x dst) &&& lowByte (s.operand src))) ∧
    Completes (exec (.or src .word dst) s) s
      (s.regs.put dst (s.x dst ||| s.operand src)) (zn s.psw (s.x dst ||| s.operand src)) ∧
    Completes (exec (.or src .byte dst) s) s
      (s.regs.put dst (withLow (s.x dst) (lowByte (s.x dst) ||| lowByte (s.operand src))))
        (zn s.psw (lowByte (s.x dst) ||| lowByte (s.operand src)))

/-- R175, R165: BIT tests the bit whose index is the low four bits of the source. In byte mode an index above 7 is
reported and the test gives Z = 1, N = 0. No register changes; C and V stay. Rests on the spec's own decisions D10. -/
def Obligations.BitTestsTheIndexedBit : Prop :=
  ∀ (src : Operand) (dst : Reg) (s : State),
    (let k := (s.operand src).toNat % 16
     Completes (exec (.bit src .word dst) s) s
       s.regs { s.psw with z := !(s.x dst).getLsbD k, n := decide (k = 15) && (s.x dst).getLsbD 15 } ∧
     (k ≤ 7 → Completes (exec (.bit src .byte dst) s) s s.regs
       { s.psw with z := !(s.x dst).getLsbD k, n := decide (k = 7) && (s.x dst).getLsbD 7 }) ∧
     (7 < k → CompletesWith (exec (.bit src .byte dst) s) s s.regs { s.psw with z := true, n := false }
       [⟨.bitIndexRange, BitVec.ofNat 16 k⟩]))

/-- R176, R177, R165: BIC clears and BIS sets the indexed bit and no other; Z and N are those of the whole result of
the width. In byte mode an index above 7 is reported and the register stays. Rests on the spec's own decisions D10. -/
def Obligations.BicAndBisChangeTheIndexedBit : Prop :=
  ∀ (src : Operand) (w : Width) (dst : Reg) (set : Bool) (s : State),
    (let k := (s.operand src).toNat % 16
     let i := if set then Instr.bis src w dst else Instr.bic src w dst
     let inRange := w = .word ∨ k ≤ 7
     ∃ r : Word,
       (∀ j < 16, r.getLsbD j = if j = k ∧ inRange then set else (s.x dst).getLsbD j) ∧
       CompletesWith (exec i s) s (s.regs.put dst r)
         (match w with | .word => zn s.psw r | .byte => zn s.psw (lowByte r))
         (if inRange then [] else [⟨.bitIndexRange, BitVec.ofNat 16 k⟩]))

/-- R178: at the arithmetic unit's own interface an operation code that is none of the twelve is reported and changes
no flag and no register; the twelve codes are the twelve instructions. Rests on the spec's own decisions D5. -/
def Obligations.UnknownAluOperationIsReportedOnly : Prop :=
  ∀ (s : State) (src : Operand) (w : Width) (dst : Reg),
    (∀ code : BitVec 4, 12 ≤ code.toNat →
      s.aluUnit code src w dst = { s with diags := s.diags ++ [⟨.unknownAluOp, code.setWidth 16⟩] }) ∧
    [exec (.add src w dst) s, exec (.addc src w dst) s, exec (.sub src w dst) s, exec (.subc src w dst) s,
     exec (.dadd src w dst) s, exec (.cmp src w dst) s, exec (.xor src w dst) s, exec (.and src w dst) s,
     exec (.or src w dst) s, exec (.bit src w dst) s, exec (.bic src w dst) s, exec (.bis src w dst) s] =
    (List.range 12).map (fun c => retire (s.aluUnit (BitVec.ofNat 4 c) src w dst))

/-- R164, R140, R190: a byte form of any instruction leaves bits 15 to 8 of its destination register. For a load the
destination may be the address register itself (R142). Rests on the spec's own decisions D16. -/
def Obligations.ByteFormsKeepTheHighByteOfTheDestination : Prop :=
  ∀ (i : Instr) (d : Reg) (s t : State), byteDestination i = some d → exec i s = .next t →
    highByte (t.x d) = highByte (s.x d)

/-! ## Register moves, one-operand and move-immediate -/

/-- R191, R192: MOV copies the word, or the low byte into the low byte; SWAP exchanges two registers. No flag. Rests
on the spec's own decisions D6, D11, D12. -/
def Obligations.MovCopiesAndSwapExchanges : Prop :=
  ∀ (src dst : Reg) (s : State),
    Completes (exec (.mov .word src dst) s) s (s.regs.put dst (s.x src)) s.psw ∧
    Completes (exec (.mov .byte src dst) s) s (s.regs.put dst (withLow (s.x dst) (lowByte (s.x src)))) s.psw ∧
    Completes (exec (.swap src dst) s) s ((s.regs.put dst (s.x src)).put src (s.x dst)) s.psw ∧
    encode (.mov .word src dst) = 0b0100110000#10 ++ regBits src ++ regBits dst ∧
    encode (.mov .byte src dst) = 0b0100110001#10 ++ regBits src ++ regBits dst ∧
    encode (.swap src dst) = 0b0100110010#10 ++ regBits src ++ regBits dst ∧
    ∃ e, decode (0b0100110011#10 ++ regBits src ++ regBits dst : BitVec 16) = .error e

/-- R193: SRA halves the signed number, rounding down; the bit shifted out goes to C; Z and N from the result; V
stays. R194: RRC shifts right by one with the old carry at the top; the bit rotated out goes to C; Z and N from the
result; V stays. Rests on the spec's own decisions D11, D12. -/
def Obligations.SraHalvesAndRrcRotatesThroughCarry : Prop :=
  ∀ (dst : Reg) (s : State),
    (∃ r : Word, r.toInt = (s.x dst).toInt / 2 ∧
      Completes (exec (.sra .word dst) s) s (s.regs.put dst r) { zn s.psw r with c := (s.x dst).getLsbD 0 }) ∧
    (∃ r : Byte, r.toInt = (lowByte (s.x dst)).toInt / 2 ∧
      Completes (exec (.sra .byte dst) s) s
        (s.regs.put dst (withLow (s.x dst) r)) { zn s.psw r with c := (s.x dst).getLsbD 0 }) ∧
    (∃ r : Word, r.toNat = (s.x dst).toNat / 2 + 32768 * s.psw.c.toNat ∧
      Completes (exec (.rrc .word dst) s) s (s.regs.put dst r) { zn s.psw r with c := (s.x dst).getLsbD 0 }) ∧
    (∃ r : Byte, r.toNat = (lowByte (s.x dst)).toNat / 2 + 128 * s.psw.c.toNat ∧
      Completes (exec (.rrc .byte dst) s) s
        (s.regs.put dst (withLow (s.x dst) r)) { zn s.psw r with c := (s.x dst).getLsbD 0 })

/-- R194: seventeen RRC of a word, or nine of a byte, restore the register and the carry. Rests on the spec's own
decisions D12. -/
def Obligations.RrcSeventeenTimesRestoresTheWord : Prop :=
  ∀ (dst : Reg) (s : State),
    (∃ t, repeated (.rrc .word dst) 17 s = .next t ∧ t.regs = s.regs ∧ t.psw.c = s.psw.c) ∧
    (∃ t, repeated (.rrc .byte dst) 9 s = .next t ∧ t.regs = s.regs ∧ t.psw.c = s.psw.c)

/-- R195: SWPB exchanges the two bytes; no flag. R196: SXT copies bit 7 into bits 15 to 8; Z and N from the result; C
and V stay. Rests on the spec's own decisions D11, D12. -/
def Obligations.SwpbExchangesBytesAndSxtExtendsTheSign : Prop :=
  ∀ (dst : Reg) (s : State),
    Completes (exec (.swpb dst) s) s (s.regs.put dst (joinBytes (lowByte (s.x dst)) (highByte (s.x dst)))) s.psw ∧
    (∃ r : Word, r.toInt = (lowByte (s.x dst)).toInt ∧
      Completes (exec (.sxt dst) s) s (s.regs.put dst r) (zn s.psw r)) ∧
    encode (.swpb dst) = 0b0100110100011#13 ++ regBits dst ∧ encode (.sxt dst) = 0b0100110100100#13 ++ regBits dst ∧
    (∃ e, decode (0b0100110101011#13 ++ regBits dst : BitVec 16) = .error e) ∧
    ∃ e, decode (0b0100110101100#13 ++ regBits dst : BitVec 16) = .error e

/-- R197 to R200: the four move-immediates, with their encodings; no flag. Rests on the spec's own decisions D2, D13. -/
def Obligations.MoveImmediatesWriteTheByte : Prop :=
  ∀ (b : Byte) (dst : Reg) (s : State),
    Completes (exec (.movl b dst) s) s (s.regs.put dst (joinBytes (highByte (s.x dst)) b)) s.psw ∧
    Completes (exec (.movlz b dst) s) s (s.regs.put dst (joinBytes 0x00 b)) s.psw ∧
    Completes (exec (.movls b dst) s) s (s.regs.put dst (joinBytes 0xFF b)) s.psw ∧
    Completes (exec (.movh b dst) s) s (s.regs.put dst (joinBytes b (lowByte (s.x dst)))) s.psw ∧
    encode (.movl b dst) = 0b01100#5 ++ b ++ regBits dst ∧ encode (.movlz b dst) = 0b01101#5 ++ b ++ regBits dst ∧
    encode (.movls b dst) = 0b01110#5 ++ b ++ regBits dst ∧ encode (.movh b dst) = 0b01111#5 ++ b ++ regBits dst

/-! ## Loads and stores -/

/-- R141: the five legal modes, and the three undefined ones. Rests on the spec's own decisions D14, D18. -/
def Obligations.IndexedAddressesOfTheFiveModes : Prop :=
  ∀ (w : Width) (a : Word),
    (let delta : Word := if w = .word then 2#16 else 1#16
     resolveIndexed ⟨false, false, false⟩ w a = some ⟨a, a, false⟩ ∧
     resolveIndexed ⟨false, false, true⟩ w a = some ⟨a, a + delta, true⟩ ∧
     resolveIndexed ⟨false, true, false⟩ w a = some ⟨a, a - delta, true⟩ ∧
     resolveIndexed ⟨true, false, true⟩ w a = some ⟨a + delta, a + delta, true⟩ ∧
     resolveIndexed ⟨true, true, false⟩ w a = some ⟨a - delta, a - delta, true⟩ ∧
     ∀ m : ModeBits, resolveIndexed m w a = none ↔
       m = ⟨false, true, true⟩ ∨ m = ⟨true, false, false⟩ ∨ m = ⟨true, true, true⟩)

/-- R143, R142, R140: LD in a legal mode. The destination takes the word, or its low byte the byte, that a program
sees at the effective address; the address register takes its new value unless it is the destination; no other
register, no flag and no byte of memory changes. Rests on the spec's own decisions D14, D15, D16, D18. -/
def Obligations.LdLoadsFromTheResolvedAddress : Prop :=
  ∀ (m : ModeBits) (w : Width) (src dst : Reg) (r : Resolved) (s : State), s.Coherent →
    resolveIndexed m w (s.x src) = some r →
    ∃ t, exec (.ld m w src dst) s = .next t ∧
      t.x dst = (match w with
        | .word => s.archWord r.ea
        | .byte => withLow (s.x dst) (s.archByte r.ea)) ∧
      (src ≠ dst → t.x src = r.next) ∧ (∀ q, q ≠ dst → q ≠ src → t.x q = s.x q) ∧
      t.psw = s.psw ∧ SameControl s t ∧ t.diags = s.diags ++ alignReport w r.ea ∧
      ∀ b, t.archByte b = s.archByte b

/-- R144, R142, R140: ST in a legal mode. The stored bytes take the data register's; every other byte a program sees
stays; the address register takes its new value unless it is also the data register; nothing else changes. Rests on
the spec's own decisions D14, D15, D16, D18. -/
def Obligations.StStoresToTheResolvedAddress : Prop :=
  ∀ (m : ModeBits) (w : Width) (src dst : Reg) (r : Resolved) (s : State), s.Coherent →
    resolveIndexed m w (s.x dst) = some r →
    ∃ t, exec (.st m w src dst) s = .next t ∧
      (∀ b, storedAt w r.ea b = true → t.archByte b = storedByte w b (s.x src)) ∧
      (∀ b, storedAt w r.ea b = false → t.archByte b = s.archByte b) ∧
      (src ≠ dst → t.x dst = r.next) ∧ (src = dst → t.x dst = s.x dst) ∧ (∀ q, q ≠ dst → t.x q = s.x q) ∧
      t.psw = s.psw ∧ SameControl s t ∧ t.diags = s.diags ++ alignReport w r.ea

/-- R146, R145, R140: LDR, from the base plus the signed offset; the base register is not modified unless it is the
destination. Rests on the spec's own decisions D16, D18. -/
def Obligations.LdrLoadsFromBasePlusOffset : Prop :=
  ∀ (off : BitVec 7) (w : Width) (src dst : Reg) (s : State), s.Coherent →
    (let ea : Word := s.x src + BitVec.ofInt 16 off.toInt
     ∃ t, exec (.ldr off w src dst) s = .next t ∧
      t.x dst = (match w with
        | .word => s.archWord ea
        | .byte => withLow (s.x dst) (s.archByte ea)) ∧
      (∀ q, q ≠ dst → t.x q = s.x q) ∧ t.psw = s.psw ∧ SameControl s t ∧
      t.diags = s.diags ++ alignReport w ea ∧ ∀ b, t.archByte b = s.archByte b)

/-- R147, R145, R140: STR, to the base plus the signed offset; no register is written. Rests on the spec's own
decisions D16, D18. -/
def Obligations.StrStoresToBasePlusOffset : Prop :=
  ∀ (off : BitVec 7) (w : Width) (src dst : Reg) (s : State), s.Coherent →
    (let ea : Word := s.x dst + BitVec.ofInt 16 off.toInt
     ∃ t, exec (.str off w src dst) s = .next t ∧
      (∀ b, storedAt w ea b = true → t.archByte b = storedByte w b (s.x src)) ∧
      (∀ b, storedAt w ea b = false → t.archByte b = s.archByte b) ∧
      t.regs = s.regs ∧ t.psw = s.psw ∧ SameControl s t ∧ t.diags = s.diags ++ alignReport w ea)

/-- R141, R232: LD and ST in an undefined mode are reported with IR and abandoned before any access: nothing but the
clock changes. The IR reported is that of the state the instruction runs in, log entry 13. Rests on the spec's own
decisions D14, D32. -/
def Obligations.UndefinedModeIsReportedAndAbandoned : Prop :=
  ∀ (m : ModeBits) (w : Width) (src dst : Reg) (s : State), m.legal = false →
    (∃ cost, exec (.ld m w src dst) s =
      .next { s with diags := s.diags ++ [⟨.undefinedAddrMode, s.ir⟩], clk := s.clk + cost }) ∧
    ∃ cost, exec (.st m w src dst) s =
      .next { s with diags := s.diags ++ [⟨.undefinedAddrMode, s.ir⟩], clk := s.clk + cost }

/-- R83: a word stored by ST is what a later fetch of that address reads, with nothing in between. Rests on the
spec's own decisions D20 and the inference R83 marks as derived. -/
def Obligations.StoredWordIsFetched : Prop :=
  ∀ (m : ModeBits) (src dst : Reg) (r : Resolved) (s t : State), s.Coherent →
    resolveIndexed m .word (s.x dst) = some r → exec (.st m .word src dst) s = .next t →
    (t.setX .r7 r.ea).fetch.ir = s.x src

/-! ## Branches -/

/-- R210, R211, R213 to R220: the eight conditional branches: taken, the program counter is the post-fetch one plus
twice the signed field, modulo 2^16; not taken, nothing moves. No flag. -/
def Obligations.ConditionalBranchesTakeTheirCondition : Prop :=
  ∀ (off : BitVec Config.brOffBits) (s : State),
    (let goes (i : Instr) (cond : Bool) : Prop :=
      Completes (exec i s) s
        (if cond then s.regs.put .r7 (s.x .r7 + BitVec.ofInt 16 (2 * off.toInt)) else s.regs) s.psw
     goes (.beq off) (s.psw.z == true) ∧ goes (.bne off) (s.psw.z == false) ∧
     goes (.bc off) (s.psw.c == true) ∧ goes (.bnc off) (s.psw.c == false) ∧
     goes (.bn off) (s.psw.n == true) ∧ goes (.bge off) (s.psw.n == s.psw.v) ∧
     goes (.blt off) (s.psw.n != s.psw.v) ∧ goes (.bra off) true) ∧
    decode (0b001000#6 ++ off : BitVec 16) = .ok (.beq off) ∧ decode (0b001001#6 ++ off : BitVec 16) = .ok (.bne off) ∧
    decode (0b001010#6 ++ off : BitVec 16) = .ok (.bc off) ∧ decode (0b001011#6 ++ off : BitVec 16) = .ok (.bnc off) ∧
    decode (0b001100#6 ++ off : BitVec 16) = .ok (.bn off) ∧ decode (0b001101#6 ++ off : BitVec 16) = .ok (.bge off) ∧
    decode (0b001110#6 ++ off : BitVec 16) = .ok (.blt off) ∧ decode (0b001111#6 ++ off : BitVec 16) = .ok (.bra off)

/-- R212: BL saves the post-fetch program counter in `x[5]` and always branches, to the post-fetch program counter
plus twice the signed field, modulo 2^16. No flag. -/
def Obligations.BlLinksAndBranches : Prop :=
  ∀ (off : BitVec Config.blOffBits) (s : State),
    Completes (exec (.bl off) s) s
      ((s.regs.put .r5 (s.x .r7)).put .r7 (s.x .r7 + BitVec.ofInt 16 (2 * off.toInt))) s.psw ∧
    encode (.bl off) = 0b000#3 ++ off ∧ decode (0b000#3 ++ off : BitVec 16) = .ok (.bl off)

/-! ## The status word and the host port -/

/-- R27: the layout of the status word. Rests on the spec's own decisions D21. -/
def Obligations.StatusWordLayout : Prop :=
  ∀ p : PSW, p.toWord.getLsbD 0 = p.c ∧ p.toWord.getLsbD 1 = p.z ∧ p.toWord.getLsbD 2 = p.n ∧
    p.toWord.getLsbD 3 = p.slp ∧ p.toWord.getLsbD 4 = p.v ∧ p.toWord.extractLsb' 5 3 = p.cur ∧
    p.toWord.getLsbD 8 = p.flt ∧ p.toWord.extractLsb' 9 4 = 0 ∧ p.toWord.extractLsb' 13 3 = p.prv ∧
    PSW.ofWord p.toWord = p

/-- R253: the host reads back the register, flag or priority field it wrote; the others, the cache, memory and the
clock stay. Rests on the spec's own decisions D34. -/
def Obligations.HostSetsAndGetsRegistersAndFlags : Prop :=
  ∀ s : State,
    (∀ (r q : Reg) (v : Word), (s.hostSetReg r v).hostGetReg q = if q = r then v else s.hostGetReg q) ∧
    (∀ (r : Reg) (v : Word), s.hostSetReg r v = { s with regs := (s.hostSetReg r v).regs }) ∧
    (∀ v : Word, s.hostSetPC v = s.hostSetReg .r7 v ∧ s.hostGetPC = s.hostGetReg .r7) ∧
    (∀ (f g : FlagName) (b : Bool), (s.hostSetFlag f b).hostGetFlag g = if g = f then b else s.hostGetFlag g) ∧
    (∀ (f g : PriorityName) (v : BitVec 3),
      (s.hostSetPriority f v).hostGetPriority g = if g = f then v else s.hostGetPriority g) ∧
    (∀ (f : FlagName) (b : Bool), s.hostSetFlag f b = { s with psw := (s.hostSetFlag f b).psw } ∧
      ∀ g, (s.hostSetFlag f b).hostGetPriority g = s.hostGetPriority g) ∧
    (∀ (f : PriorityName) (v : BitVec 3), s.hostSetPriority f v = { s with psw := (s.hostSetPriority f v).psw } ∧
      ∀ g, (s.hostSetPriority f v).hostGetFlag g = s.hostGetFlag g)

/-- R252: RunUntil looks at the cancellation and the target after each instruction only, so that at least one is
executed; a stopped core returns at once. Rests on the spec's own decisions D34 and on log entry 10 (the cancellation
as a list of samples). -/
def Obligations.RunUntilChecksAfterEachInstruction : Prop :=
  ∀ (target : Word) (cancel : Bool) (later : List Bool) (s t : State),
    (s.stopped = true → runUntil target (cancel :: later) s = .next (true, s)) ∧
    (s.stopped = false → step s = .next t →
      runUntil target (cancel :: later) s =
        if cancel = true ∨ t.x .r7 = target then .next (true, t) else runUntil target later t)

/-- R255, R272: after a reset the loader puts every byte of an image with distinct addresses in the 64 KiB where a
program sees it, and changes no other. Rests on the spec's own decisions D38. -/
def Obligations.LoadedImageIsWhatTheProgramSees : Prop :=
  ∀ (s : State) (wp : Config.WritePolicy) (org : Config.Organisation) (img : List Host.Cell), s.mem.wf = true →
    (img.map Prod.fst).Nodup → (∀ p ∈ img, p.1 < 65536) →
    ∃ t, loadImage img (s.resetBlock wp org) = .next t ∧ t.Coherent ∧
      (∀ p ∈ img, t.archByte (BitVec.ofNat 16 p.1) = p.2) ∧
      ∀ b : Word, (∀ p ∈ img, p.1 ≠ b.toNat) → t.archByte b = s.memByte b
end

