-- ==== Sys2Proof/Laws/State.lean ====
section
/-! SUPPORT. What each named update of the state does to each field: true by unfolding, and tagged for `simp`, so that no
later proof unfolds a record update. -/

namespace Sys2Proof.Machine

open Sys2Proof

section
variable (s : State) (r : Reg) (v : Word)

@[simp] theorem State.setX_regs : (s.setX r v).regs = s.regs.put r v := rfl
@[simp] theorem State.setX_psw : (s.setX r v).psw = s.psw := rfl
@[simp] theorem State.setX_ir : (s.setX r v).ir = s.ir := rfl
@[simp] theorem State.setX_clk : (s.setX r v).clk = s.clk := rfl
@[simp] theorem State.setX_writePolicy : (s.setX r v).writePolicy = s.writePolicy := rfl
@[simp] theorem State.setX_organisation : (s.setX r v).organisation = s.organisation := rfl
@[simp] theorem State.setX_stopped : (s.setX r v).stopped = s.stopped := rfl
@[simp] theorem State.setX_cache : (s.setX r v).cache = s.cache := rfl
@[simp] theorem State.setX_mem : (s.setX r v).mem = s.mem := rfl
@[simp] theorem State.setX_diags : (s.setX r v).diags = s.diags := rfl
@[simp] theorem State.setX_bus : (s.setX r v).bus = s.bus := rfl
@[simp] theorem State.setX_memByte (b : Word) : (s.setX r v).memByte b = s.memByte b := rfl

end

section
variable (s : State) (p : PSW)

@[simp] theorem State.setPsw_regs : (s.setPsw p).regs = s.regs := rfl
@[simp] theorem State.setPsw_psw : (s.setPsw p).psw = p := rfl
@[simp] theorem State.setPsw_ir : (s.setPsw p).ir = s.ir := rfl
@[simp] theorem State.setPsw_clk : (s.setPsw p).clk = s.clk := rfl
@[simp] theorem State.setPsw_writePolicy : (s.setPsw p).writePolicy = s.writePolicy := rfl
@[simp] theorem State.setPsw_organisation : (s.setPsw p).organisation = s.organisation := rfl
@[simp] theorem State.setPsw_stopped : (s.setPsw p).stopped = s.stopped := rfl
@[simp] theorem State.setPsw_cache : (s.setPsw p).cache = s.cache := rfl
@[simp] theorem State.setPsw_mem : (s.setPsw p).mem = s.mem := rfl
@[simp] theorem State.setPsw_diags : (s.setPsw p).diags = s.diags := rfl
@[simp] theorem State.setPsw_bus : (s.setPsw p).bus = s.bus := rfl
@[simp] theorem State.setPsw_x (q : Reg) : (s.setPsw p).x q = s.x q := by cases q <;> rfl
@[simp] theorem State.setPsw_pc : (s.setPsw p).pc = s.pc := rfl
@[simp] theorem State.setPsw_memByte (b : Word) : (s.setPsw p).memByte b = s.memByte b := rfl

end

section
variable (s : State) (w : Word)

@[simp] theorem State.setIr_regs : (s.setIr w).regs = s.regs := rfl
@[simp] theorem State.setIr_psw : (s.setIr w).psw = s.psw := rfl
@[simp] theorem State.setIr_ir : (s.setIr w).ir = w := rfl
@[simp] theorem State.setIr_clk : (s.setIr w).clk = s.clk := rfl
@[simp] theorem State.setIr_writePolicy : (s.setIr w).writePolicy = s.writePolicy := rfl
@[simp] theorem State.setIr_organisation : (s.setIr w).organisation = s.organisation := rfl
@[simp] theorem State.setIr_stopped : (s.setIr w).stopped = s.stopped := rfl
@[simp] theorem State.setIr_cache : (s.setIr w).cache = s.cache := rfl
@[simp] theorem State.setIr_mem : (s.setIr w).mem = s.mem := rfl
@[simp] theorem State.setIr_diags : (s.setIr w).diags = s.diags := rfl
@[simp] theorem State.setIr_bus : (s.setIr w).bus = s.bus := rfl
@[simp] theorem State.setIr_x (q : Reg) : (s.setIr w).x q = s.x q := by cases q <;> rfl
@[simp] theorem State.setIr_pc : (s.setIr w).pc = s.pc := rfl
@[simp] theorem State.setIr_memByte (b : Word) : (s.setIr w).memByte b = s.memByte b := rfl

end

section
variable (s : State) (n : Nat)

@[simp] theorem State.tick_regs : (s.tick n).regs = s.regs := rfl
@[simp] theorem State.tick_psw : (s.tick n).psw = s.psw := rfl
@[simp] theorem State.tick_ir : (s.tick n).ir = s.ir := rfl
@[simp] theorem State.tick_clk : (s.tick n).clk = s.clk + n := rfl
@[simp] theorem State.tick_writePolicy : (s.tick n).writePolicy = s.writePolicy := rfl
@[simp] theorem State.tick_organisation : (s.tick n).organisation = s.organisation := rfl
@[simp] theorem State.tick_stopped : (s.tick n).stopped = s.stopped := rfl
@[simp] theorem State.tick_cache : (s.tick n).cache = s.cache := rfl
@[simp] theorem State.tick_mem : (s.tick n).mem = s.mem := rfl
@[simp] theorem State.tick_diags : (s.tick n).diags = s.diags := rfl
@[simp] theorem State.tick_bus : (s.tick n).bus = s.bus := rfl
@[simp] theorem State.tick_x (q : Reg) : (s.tick n).x q = s.x q := by cases q <;> rfl
@[simp] theorem State.tick_pc : (s.tick n).pc = s.pc := rfl
@[simp] theorem State.tick_memByte (b : Word) : (s.tick n).memByte b = s.memByte b := rfl

end

section
variable (s : State) (d : Diag) (v : Word)

@[simp] theorem State.report_regs : (s.report d v).regs = s.regs := rfl
@[simp] theorem State.report_psw : (s.report d v).psw = s.psw := rfl
@[simp] theorem State.report_ir : (s.report d v).ir = s.ir := rfl
@[simp] theorem State.report_clk : (s.report d v).clk = s.clk := rfl
@[simp] theorem State.report_writePolicy : (s.report d v).writePolicy = s.writePolicy := rfl
@[simp] theorem State.report_organisation : (s.report d v).organisation = s.organisation := rfl
@[simp] theorem State.report_stopped : (s.report d v).stopped = (s.stopped || d.fatal) := rfl
@[simp] theorem State.report_cache : (s.report d v).cache = s.cache := rfl
@[simp] theorem State.report_mem : (s.report d v).mem = s.mem := rfl
@[simp] theorem State.report_diags : (s.report d v).diags = s.diags ++ [⟨d, v⟩] := rfl
@[simp] theorem State.report_bus : (s.report d v).bus = s.bus := rfl
@[simp] theorem State.report_x (q : Reg) : (s.report d v).x q = s.x q := by cases q <;> rfl
@[simp] theorem State.report_pc : (s.report d v).pc = s.pc := rfl
@[simp] theorem State.report_memByte (b : Word) : (s.report d v).memByte b = s.memByte b := rfl

end

section
variable (s : State) (a : Word) (v : Byte)

@[simp] theorem State.setMemByte_regs : (s.setMemByte a v).regs = s.regs := rfl
@[simp] theorem State.setMemByte_psw : (s.setMemByte a v).psw = s.psw := rfl
@[simp] theorem State.setMemByte_ir : (s.setMemByte a v).ir = s.ir := rfl
@[simp] theorem State.setMemByte_clk : (s.setMemByte a v).clk = s.clk := rfl
@[simp] theorem State.setMemByte_writePolicy : (s.setMemByte a v).writePolicy = s.writePolicy := rfl
@[simp] theorem State.setMemByte_organisation : (s.setMemByte a v).organisation = s.organisation := rfl
@[simp] theorem State.setMemByte_stopped : (s.setMemByte a v).stopped = s.stopped := rfl
@[simp] theorem State.setMemByte_cache : (s.setMemByte a v).cache = s.cache := rfl
@[simp] theorem State.setMemByte_mem : (s.setMemByte a v).mem = s.mem.write a.toNat v := rfl
@[simp] theorem State.setMemByte_diags : (s.setMemByte a v).diags = s.diags := rfl
@[simp] theorem State.setMemByte_bus : (s.setMemByte a v).bus = s.bus := rfl
@[simp] theorem State.setMemByte_x (q : Reg) : (s.setMemByte a v).x q = s.x q := by cases q <;> rfl
@[simp] theorem State.setMemByte_pc : (s.setMemByte a v).pc = s.pc := rfl

end

section
variable (s : State) (t : BusTxn)

@[simp] theorem State.logBus_regs : (s.logBus t).regs = s.regs := rfl
@[simp] theorem State.logBus_psw : (s.logBus t).psw = s.psw := rfl
@[simp] theorem State.logBus_ir : (s.logBus t).ir = s.ir := rfl
@[simp] theorem State.logBus_clk : (s.logBus t).clk = s.clk := rfl
@[simp] theorem State.logBus_writePolicy : (s.logBus t).writePolicy = s.writePolicy := rfl
@[simp] theorem State.logBus_organisation : (s.logBus t).organisation = s.organisation := rfl
@[simp] theorem State.logBus_stopped : (s.logBus t).stopped = s.stopped := rfl
@[simp] theorem State.logBus_cache : (s.logBus t).cache = s.cache := rfl
@[simp] theorem State.logBus_mem : (s.logBus t).mem = s.mem := rfl
@[simp] theorem State.logBus_diags : (s.logBus t).diags = s.diags := rfl
@[simp] theorem State.logBus_bus : (s.logBus t).bus = s.bus ++ [t] := rfl
@[simp] theorem State.logBus_x (q : Reg) : (s.logBus t).x q = s.x q := by cases q <;> rfl
@[simp] theorem State.logBus_pc : (s.logBus t).pc = s.pc := rfl
@[simp] theorem State.logBus_memByte (b : Word) : (s.logBus t).memByte b = s.memByte b := rfl

end

section
variable (s : State) (c : Cache)

@[simp] theorem State.setCache_regs : (s.setCache c).regs = s.regs := rfl
@[simp] theorem State.setCache_psw : (s.setCache c).psw = s.psw := rfl
@[simp] theorem State.setCache_ir : (s.setCache c).ir = s.ir := rfl
@[simp] theorem State.setCache_clk : (s.setCache c).clk = s.clk := rfl
@[simp] theorem State.setCache_writePolicy : (s.setCache c).writePolicy = s.writePolicy := rfl
@[simp] theorem State.setCache_organisation : (s.setCache c).organisation = s.organisation := rfl
@[simp] theorem State.setCache_stopped : (s.setCache c).stopped = s.stopped := rfl
@[simp] theorem State.setCache_cache : (s.setCache c).cache = c := rfl
@[simp] theorem State.setCache_mem : (s.setCache c).mem = s.mem := rfl
@[simp] theorem State.setCache_diags : (s.setCache c).diags = s.diags := rfl
@[simp] theorem State.setCache_bus : (s.setCache c).bus = s.bus := rfl
@[simp] theorem State.setCache_x (q : Reg) : (s.setCache c).x q = s.x q := by cases q <;> rfl
@[simp] theorem State.setCache_pc : (s.setCache c).pc = s.pc := rfl
@[simp] theorem State.setCache_memByte (b : Word) : (s.setCache c).memByte b = s.memByte b := rfl

end

section
variable (s : State) (i : Nat) (f : Line → Line)

@[simp] theorem State.modifyLine_regs : (s.modifyLine i f).regs = s.regs := rfl
@[simp] theorem State.modifyLine_psw : (s.modifyLine i f).psw = s.psw := rfl
@[simp] theorem State.modifyLine_ir : (s.modifyLine i f).ir = s.ir := rfl
@[simp] theorem State.modifyLine_clk : (s.modifyLine i f).clk = s.clk := rfl
@[simp] theorem State.modifyLine_writePolicy : (s.modifyLine i f).writePolicy = s.writePolicy := rfl
@[simp] theorem State.modifyLine_organisation : (s.modifyLine i f).organisation = s.organisation := rfl
@[simp] theorem State.modifyLine_stopped : (s.modifyLine i f).stopped = s.stopped := rfl
@[simp] theorem State.modifyLine_cache : (s.modifyLine i f).cache = s.cache.modify i f := rfl
@[simp] theorem State.modifyLine_mem : (s.modifyLine i f).mem = s.mem := rfl
@[simp] theorem State.modifyLine_diags : (s.modifyLine i f).diags = s.diags := rfl
@[simp] theorem State.modifyLine_bus : (s.modifyLine i f).bus = s.bus := rfl
@[simp] theorem State.modifyLine_x (q : Reg) : (s.modifyLine i f).x q = s.x q := by cases q <;> rfl
@[simp] theorem State.modifyLine_pc : (s.modifyLine i f).pc = s.pc := rfl
@[simp] theorem State.modifyLine_memByte (b : Word) : (s.modifyLine i f).memByte b = s.memByte b := rfl

end

section
variable (s : State) (i : Nat)

@[simp] theorem State.touch_regs : (s.touch i).regs = s.regs := rfl
@[simp] theorem State.touch_psw : (s.touch i).psw = s.psw := rfl
@[simp] theorem State.touch_ir : (s.touch i).ir = s.ir := rfl
@[simp] theorem State.touch_clk : (s.touch i).clk = s.clk := rfl
@[simp] theorem State.touch_writePolicy : (s.touch i).writePolicy = s.writePolicy := rfl
@[simp] theorem State.touch_organisation : (s.touch i).organisation = s.organisation := rfl
@[simp] theorem State.touch_stopped : (s.touch i).stopped = s.stopped := rfl
@[simp] theorem State.touch_cache : (s.touch i).cache = s.cache.touch i := rfl
@[simp] theorem State.touch_mem : (s.touch i).mem = s.mem := rfl
@[simp] theorem State.touch_diags : (s.touch i).diags = s.diags := rfl
@[simp] theorem State.touch_bus : (s.touch i).bus = s.bus := rfl
@[simp] theorem State.touch_x (q : Reg) : (s.touch i).x q = s.x q := by cases q <;> rfl
@[simp] theorem State.touch_pc : (s.touch i).pc = s.pc := rfl
@[simp] theorem State.touch_memByte (b : Word) : (s.touch i).memByte b = s.memByte b := rfl

end

/-- R12: a register read after a register write. -/
theorem State.setX_x (s : State) (r q : Reg) (v : Word) : (s.setX r v).x q = if q = r then v else s.x q := by
  cases r <;> cases q <;> rfl

@[simp] theorem State.setX_x_same (s : State) (r : Reg) (v : Word) : (s.setX r v).x r = v := by
  simp [State.setX_x]

theorem State.setX_x_other (s : State) {r q : Reg} (v : Word) (h : q ≠ r) : (s.setX r v).x q = s.x q := by
  simp [State.setX_x, h]

/-- A register file is its eight registers: writing back what a register holds changes nothing. -/
@[simp] theorem State.setX_x_self (s : State) (r : Reg) : s.setX r (s.x r) = s := by
  cases r <;> rfl

/-- Two states with the same registers answer the same reads. -/
theorem State.x_congr {s t : State} (h : t.regs = s.regs) (q : Reg) : t.x q = s.x q := by
  cases q <;> simp [State.x, h]

/-- Two register files that answer every read alike are equal. -/
theorem State.regs_ext {s t : State} (h : ∀ q, t.x q = s.x q) : t.regs = s.regs := by
  have h0 := h .r0; have h1 := h .r1; have h2 := h .r2; have h3 := h .r3
  have h4 := h .r4; have h5 := h .r5; have h6 := h .r6; have h7 := h .r7
  obtain ⟨⟨_, _, _, _, _, _, _, _⟩⟩ := s
  obtain ⟨⟨_, _, _, _, _, _, _, _⟩⟩ := t
  simp_all [State.x]

end Sys2Proof.Machine
end

