-- ==== Sys2Proof/Laws/Memory.lean ====
section
/-! SUPPORT. Main memory as a list in canonical form (spec 10_state.md R36): read after write, and that every write keeps
the form. -/

namespace Sys2Proof.Machine

open Sys2Proof

/-- The canonical form from a lower bound on. -/
theorem Memory.wfFrom_mono {m : Memory} {lo lo' : Nat} (h : Memory.wfFrom lo m = true) (hl : lo' ≤ lo) :
    Memory.wfFrom lo' m = true := by
  cases m with
  | nil => rfl
  | cons p m =>
    obtain ⟨b, u⟩ := p
    simp [Memory.wfFrom] at h ⊢
    exact ⟨⟨⟨by omega, h.1.1.2⟩, h.1.2⟩, h.2⟩

/-- Below the least address of a memory nothing is listed. -/
theorem Memory.read_below {m : Memory} {lo a : Nat} (h : Memory.wfFrom lo m = true) (ha : a < lo) :
    Memory.read m a = Memory.blank := by
  induction m generalizing lo with
  | nil => rfl
  | cons p m ih =>
    obtain ⟨b, u⟩ := p
    simp [Memory.wfFrom] at h
    have hb : b ≠ a := by omega
    simp [Memory.read, hb]
    exact ih h.2 (by omega)

/-- A read after a write, at any two addresses. -/
theorem Memory.read_write {m : Memory} {lo : Nat} (h : Memory.wfFrom lo m = true) (a b : Nat) (v : Byte) :
    Memory.read (Memory.write m a v) b = if b = a then v else Memory.read m b := by
  induction m generalizing lo with
  | nil =>
    by_cases hb : b = a
    · by_cases hv : v = Memory.blank <;> simp [Memory.write, Memory.read, hv, hb]
    · by_cases hv : v = Memory.blank <;> simp [Memory.write, Memory.read, hv, hb, Ne.symm hb]
  | cons p m ih =>
    obtain ⟨c, u⟩ := p
    have h' := h
    simp [Memory.wfFrom] at h'
    have hm := h'.2
    by_cases hca : c = a
    · subst hca
      by_cases hv : v = Memory.blank
      · by_cases hb : b = c
        · subst hb
          simp [Memory.write, hv, Memory.read_below hm (Nat.lt_succ_self b)]
        · simp [Memory.write, hv, Memory.read, hb, Ne.symm hb]
      · by_cases hb : b = c <;> simp [Memory.write, hv, Memory.read, hb, eq_comm]
    · by_cases hac : a < c
      · by_cases hv : v = Memory.blank
        · by_cases hb : b = a
          · subst hb
            simp [Memory.write, hca, hac, hv, Memory.read,
              Memory.read_below (Memory.wfFrom_mono hm (Nat.le_refl _)) (by omega : b < c + 1)]
          · simp [Memory.write, hca, hac, hv, hb]
        · by_cases hb : b = a
          · simp [Memory.write, hca, hac, hv, Memory.read, hb]
          · simp [Memory.write, hca, hac, hv, Memory.read, hb, Ne.symm hb]
      · simp only [Memory.write, if_neg hca, if_neg hac, Memory.read, ih hm]
        by_cases hcb : c = b
        · subst hcb; simp [hca]
        · simp [hcb]

/-- A write keeps the canonical form. -/
theorem Memory.wfFrom_write {m : Memory} {lo a : Nat} (h : Memory.wfFrom lo m = true) (hlo : lo ≤ a)
    (ha : a < 65536) (v : Byte) : Memory.wfFrom lo (Memory.write m a v) = true := by
  induction m generalizing lo with
  | nil =>
    by_cases hv : v = Memory.blank <;> simp [Memory.write, Memory.wfFrom, hv, hlo, ha]
  | cons p m ih =>
    obtain ⟨b, u⟩ := p
    have h' := h
    simp [Memory.wfFrom] at h'
    obtain ⟨⟨⟨h1, h2⟩, h3⟩, h4⟩ := h'
    by_cases hba : b = a
    · subst hba
      by_cases hv : v = Memory.blank
      · simpa [Memory.write, hv] using Memory.wfFrom_mono h4 (by omega)
      · simp [Memory.write, hv, Memory.wfFrom, hlo, ha, h4]
    · by_cases hab : a < b
      · by_cases hv : v = Memory.blank
        · simpa [Memory.write, hba, hab, hv] using h
        · simp [Memory.write, hba, hab, hv, Memory.wfFrom, hlo, ha, h2, h3, h4]
      · simp [Memory.write, hba, hab, Memory.wfFrom, h1, h2, h3]
        exact ih h4 (by omega)

/-- A write keeps the canonical form of a whole memory. -/
theorem Memory.wf_write {m : Memory} (h : m.wf = true) (a : Word) (v : Byte) : (m.write a.toNat v).wf = true :=
  Memory.wfFrom_write h (Nat.zero_le _) a.isLt v

/-- The memory of the reset state is in canonical form. -/
theorem Memory.wf_reset : State.reset.mem.wf = true := rfl

/-- A byte of main memory after a byte is stored. -/
theorem State.setMemByte_memByte {s : State} (h : s.mem.wf = true) (a b : Word) (v : Byte) :
    (s.setMemByte a v).memByte b = if b = a then v else s.memByte b := by
  simp [State.memByte, Memory.read_write h, BitVec.toNat_inj]

theorem State.setMemByte_wf {s : State} (h : s.mem.wf = true) (a : Word) (v : Byte) :
    (s.setMemByte a v).mem.wf = true := Memory.wf_write h a v

end Sys2Proof.Machine
end

