-- ==== Sys2Proof/Laws/Bits.lean ====
section
/-! SUPPORT. Bytes of words and word addresses: the arithmetic of spec 20_memory.md R51 and R61. -/

namespace Sys2Proof.Machine

open Sys2Proof

theorem joinBytes_getLsbD (h l : Byte) (i : Nat) :
    (joinBytes h l).getLsbD i = if i < 8 then l.getLsbD i else h.getLsbD (i - 8) := BitVec.getLsbD_append

theorem byteWord_getLsbD (b : Byte) (i : Nat) : (byteWord b).getLsbD i = b.getLsbD i := by
  refine (BitVec.getLsbD_append (x := 0#8) (y := b)).trans ?_
  split
  · rfl
  · rw [BitVec.getLsbD_of_ge b i (by omega)]; simp

theorem lowByte_getLsbD (v : Word) (i : Nat) : (lowByte v).getLsbD i = (decide (i < 8) && v.getLsbD i) := by
  simp [lowByte]

theorem highByte_getLsbD (v : Word) (i : Nat) : (highByte v).getLsbD i = (decide (i < 8) && v.getLsbD (8 + i)) := by
  simp [highByte]

@[simp] theorem lowByte_byteWord (b : Byte) : lowByte (byteWord b) = b := by
  apply BitVec.eq_of_getLsbD_eq
  intro i hi
  rw [lowByte_getLsbD, byteWord_getLsbD]; simp [hi]

@[simp] theorem lowByte_joinBytes (h l : Byte) : lowByte (joinBytes h l) = l := by
  apply BitVec.eq_of_getLsbD_eq
  intro i hi
  rw [lowByte_getLsbD, joinBytes_getLsbD]; simp [hi]

@[simp] theorem highByte_joinBytes (h l : Byte) : highByte (joinBytes h l) = h := by
  apply BitVec.eq_of_getLsbD_eq
  intro i hi
  rw [highByte_getLsbD, joinBytes_getLsbD]; simp [hi]

@[simp] theorem joinBytes_highByte_lowByte (v : Word) : joinBytes (highByte v) (lowByte v) = v := by
  apply BitVec.eq_of_getLsbD_eq
  intro i hi
  rw [joinBytes_getLsbD, lowByte_getLsbD, highByte_getLsbD]
  split
  · simp [*]
  · rw [show 8 + (i - 8) = i by omega, decide_eq_true (by omega : i - 8 < 8)]; simp

/-- A word address as a number: the address with bit 0 cleared. -/
theorem wordAddr_toNat (a : Word) : (wordAddr a).toNat = 2 * (a.toNat / 2) := by
  rw [show 2 * (a.toNat / 2) = (a.toNat >>> 1) <<< 1 by
    rw [Nat.shiftLeft_eq, Nat.shiftRight_eq_div_pow]; omega]
  apply Nat.eq_of_testBit_eq
  intro i
  have h : (wordAddr a).toNat.testBit i = (a.getLsbD i && (0xFFFE : Word).getLsbD i) := BitVec.getLsbD_and
  have ha : a.getLsbD i = a.toNat.testBit i := rfl
  rw [h, Nat.testBit_shiftLeft, Nat.testBit_shiftRight, ha]
  by_cases hi : i < 16
  · interval_cases i <;> simp
  · have : a.toNat.testBit i = false := BitVec.getLsbD_of_ge a i (by omega)
    rw [show 1 + (i - 1) = i by omega, this]; simp

theorem odd_iff (a : Word) : isOdd a = true ↔ a.toNat % 2 = 1 := by
  simp [isOdd, BitVec.getLsbD, Nat.testBit_zero]

theorem even_iff (a : Word) : isOdd a = false ↔ a.toNat % 2 = 0 := by
  rw [← Bool.not_eq_true, odd_iff]; omega

@[simp] theorem wordAddr_even (a : Word) : isOdd (wordAddr a) = false := by
  rw [even_iff, wordAddr_toNat]; omega

theorem wordAddr_of_even {a : Word} (h : isOdd a = false) : wordAddr a = a := by
  rw [even_iff] at h
  apply BitVec.eq_of_toNat_eq; rw [wordAddr_toNat]; omega

@[simp] theorem wordAddr_wordAddr (a : Word) : wordAddr (wordAddr a) = wordAddr a :=
  wordAddr_of_even (wordAddr_even a)

theorem even_succ_toNat {a : Word} (h : isOdd a = false) : (a + 1#16).toNat = a.toNat + 1 := by
  rw [even_iff] at h
  have := a.isLt
  rw [BitVec.toNat_add]
  show (a.toNat + 1) % 65536 = _
  omega

theorem even_succ_odd {a : Word} (h : isOdd a = false) : isOdd (a + 1#16) = true := by
  rw [odd_iff, even_succ_toNat h]
  rw [even_iff] at h; omega

theorem wordAddr_succ {a : Word} (h : isOdd a = false) : wordAddr (a + 1#16) = a := by
  apply BitVec.eq_of_toNat_eq; rw [wordAddr_toNat, even_succ_toNat h]
  rw [even_iff] at h; omega

/-- An odd address is one above its word address. -/
theorem wordAddr_add_one_of_odd {a : Word} (h : isOdd a = true) : wordAddr a + 1#16 = a := by
  apply BitVec.eq_of_toNat_eq
  rw [even_succ_toNat (wordAddr_even a), wordAddr_toNat]
  rw [odd_iff] at h; omega

/-- An odd address is not even. -/
theorem ne_of_parity {a b : Word} (ha : isOdd a = false) (hb : isOdd b = true) : a ≠ b := by
  rintro rfl; rw [ha] at hb; exact absurd hb (by decide)

theorem even_succ_ne {a b : Word} (ha : isOdd a = false) (hb : isOdd b = false) : a + 1#16 ≠ b :=
  fun h => ne_of_parity hb (even_succ_odd ha) h.symm

theorem alignAddr_byte (a : Word) : alignAddr .byte a = a := rfl

theorem alignAddr_word (a : Word) : alignAddr .word a = wordAddr a := rfl

@[simp] theorem wordAddr_alignAddr (w : Width) (a : Word) : wordAddr (alignAddr w a) = wordAddr a := by
  cases w <;> simp [alignAddr]

end Sys2Proof.Machine
end

