-- ==== Sys2Proof/Laws/Alu.lean ====
section
/-! SUPPORT. What the operand forms and the flag computations give, each said once: the add funnel (spec 41_alu.md R161,
R162), the masks of the two widths, the bit masks (R165), one decimal digit (R170), the shifts (42_register_ops.md R193,
R194), and the signed fields of relative addresses and branches (30_encoding.md R104, R105). -/

namespace Sys2Proof.Machine

open Sys2Proof

/-! ## Numbers of bytes and words -/

@[simp] theorem lowByte_toNat (v : Word) : (lowByte v).toNat = v.toNat % 256 := by
  simp [lowByte, BitVec.extractLsb'_toNat]

@[simp] theorem highByte_toNat (v : Word) : (highByte v).toNat = v.toNat / 256 := by
  have := v.isLt
  simp only [highByte, BitVec.extractLsb'_toNat, Nat.shiftRight_eq_div_pow]
  omega

theorem joinBytes_toNat (h l : Byte) : (joinBytes h l).toNat = 256 * h.toNat + l.toNat := by
  have e : (joinBytes h l).toNat = h.toNat <<< 8 ||| l.toNat := BitVec.toNat_append h l
  rw [e, Nat.shiftLeft_eq, ← Nat.shiftLeft_eq, ← Nat.shiftLeft_add_eq_or_of_lt l.isLt, Nat.shiftLeft_eq]
  omega

@[simp] theorem byteWord_toNat (b : Byte) : (byteWord b).toNat = b.toNat := by
  have : byteWord b = joinBytes 0#8 b := rfl
  rw [this, joinBytes_toNat]; simp

/-! ## The two widths -/

theorem mask_word (v : Word) : v &&& widthMask .word = v := by
  have : widthMask .word = BitVec.allOnes 16 := rfl
  rw [this, BitVec.and_allOnes]

theorem mask_byte (v : Word) : v &&& widthMask .byte = byteWord (lowByte v) := by
  apply BitVec.eq_of_getLsbD_eq
  intro i hi
  rw [byteWord_getLsbD, lowByte_getLsbD, Bool.and_comm (decide _)]
  refine BitVec.getLsbD_and.trans ?_
  congr 1
  interval_cases i <;> rfl

theorem msbOf_word (v : Word) : msbOf .word v = v.msb := rfl

theorem msbOf_byteWord (b : Byte) : msbOf .byte (byteWord b) = b.msb := by
  simp only [msbOf, byteWord_getLsbD, BitVec.msb_eq_getLsbD_last]

theorem byteWord_inj {a b : Byte} : byteWord a = byteWord b ↔ a = b :=
  ⟨fun h => by simpa using congrArg lowByte h, fun h => h ▸ rfl⟩

theorem byteWord_eq_zero {b : Byte} : byteWord b = 0#16 ↔ b = 0#8 := byteWord_inj (b := 0#8)

/-- R164: a byte result keeps the high byte. -/
theorem mergeResult_byte (old : Word) (b : Byte) : mergeResult .byte old (byteWord b) = joinBytes (highByte old) b := by
  simp [mergeResult]

/-! ## The add funnel -/

theorem carryWord_eq (c : Bool) : carryWord c = BitVec.ofNat 16 c.toNat := by cases c <;> rfl

theorem funnelSum_word (a b : Word) (c : Bool) : funnelSum .word a b c = a + b + BitVec.ofNat 16 c.toNat := by
  rw [funnelSum, mask_word, carryWord_eq]

theorem funnelSum_byte (a b : Byte) (c : Bool) :
    funnelSum .byte (byteWord a) (byteWord b) c = byteWord (a + b + BitVec.ofNat 8 c.toNat) := by
  rw [funnelSum, mask_byte, carryWord_eq]
  congr 1
  apply BitVec.eq_of_toNat_eq
  cases c <;> simp [BitVec.toNat_add]

/-- R162: the CARRY table is the carry out of the sum. -/
theorem carryTable_sum {n : Nat} (a b : BitVec n) (c : Bool) (hn : 0 < n) :
    carryTable a.msb b.msb (a + b + BitVec.ofNat n c.toNat).msb = decide (2 ^ n ≤ a.toNat + b.toNat + c.toNat) := by
  obtain ⟨m, rfl⟩ : ∃ m, n = m + 1 := ⟨n - 1, by omega⟩
  have ha := a.isLt
  have hb := b.isLt
  have hc : c.toNat ≤ 1 := Bool.toNat_le c
  have hr : (a + b + BitVec.ofNat (m + 1) c.toNat).toNat = (a.toNat + b.toNat + c.toNat) % 2 ^ (m + 1) := by
    simp [BitVec.toNat_add]
  have hp : 2 ^ (m + 1) = 2 * 2 ^ m := Nat.pow_succ'
  have hm : (a.toNat + b.toNat + c.toNat) % 2 ^ (m + 1) =
      if 2 ^ (m + 1) ≤ a.toNat + b.toNat + c.toNat then a.toNat + b.toNat + c.toNat - 2 ^ (m + 1)
      else a.toNat + b.toNat + c.toNat := by
    split
    · rw [Nat.mod_eq_sub_mod ‹_›, Nat.mod_eq_of_lt (by omega)]
    · exact Nat.mod_eq_of_lt (by omega)
  simp only [BitVec.msb_eq_decide, hr, hm, Nat.add_sub_cancel]
  generalize 2 ^ (m + 1) = q at *
  generalize 2 ^ m = p at *
  by_cases h1 : p ≤ a.toNat <;> by_cases h2 : p ≤ b.toNat <;>
    by_cases h3 : q ≤ a.toNat + b.toNat + c.toNat <;> simp only [h1, h2, h3, if_true, if_false, decide_true,
      decide_false] <;>
    first
    | omega
    | (by_cases h4 : p ≤ a.toNat + b.toNat + c.toNat - q <;> simp [h4, carryTable] <;> omega)
    | (by_cases h4 : p ≤ a.toNat + b.toNat + c.toNat <;> simp [h4, carryTable] <;> omega)

/-- R162: the OVERFLOW table is the two's-complement overflow of the sum. -/
theorem overflowTable_sum {n : Nat} (a b : BitVec n) (c : Bool) (hn : 0 < n) :
    overflowTable a.msb b.msb (a + b + BitVec.ofNat n c.toNat).msb =
      decide ((a + b + BitVec.ofNat n c.toNat).toInt ≠ a.toInt + b.toInt + c.toNat) := by
  obtain ⟨m, rfl⟩ : ∃ m, n = m + 1 := ⟨n - 1, by omega⟩
  have ha := a.isLt
  have hb := b.isLt
  have hc : c.toNat ≤ 1 := Bool.toNat_le c
  have hr : (a + b + BitVec.ofNat (m + 1) c.toNat).toNat = (a.toNat + b.toNat + c.toNat) % 2 ^ (m + 1) := by
    simp [BitVec.toNat_add]
  have hp : 2 ^ (m + 1) = 2 * 2 ^ m := Nat.pow_succ'
  have hm : (a.toNat + b.toNat + c.toNat) % 2 ^ (m + 1) =
      if 2 ^ (m + 1) ≤ a.toNat + b.toNat + c.toNat then a.toNat + b.toNat + c.toNat - 2 ^ (m + 1)
      else a.toNat + b.toNat + c.toNat := by
    split
    · rw [Nat.mod_eq_sub_mod ‹_›, Nat.mod_eq_of_lt (by omega)]
    · exact Nat.mod_eq_of_lt (by omega)
  simp only [BitVec.toInt_eq_msb_cond, BitVec.msb_eq_decide, hr, hm, Nat.add_sub_cancel, decide_eq_true_eq]
  have hq : ((2 ^ (m + 1) : Nat) : Int) = 2 * ((2 ^ m : Nat) : Int) := by rw [hp]; push_cast; rfl
  rw [hq]
  generalize 2 ^ (m + 1) = q at *
  generalize 2 ^ m = p at *
  by_cases h1 : p ≤ a.toNat <;> by_cases h2 : p ≤ b.toNat <;>
    by_cases h3 : q ≤ a.toNat + b.toNat + c.toNat <;> simp only [h1, h2, h3, if_true, if_false, decide_true,
      decide_false] <;>
    first
    | omega
    | (by_cases h4 : p ≤ a.toNat + b.toNat + c.toNat - q <;> simp only [h4, overflowTable, decide_true, decide_false,
        if_true, if_false] <;>
        first | (symm; rw [decide_eq_true_eq]; omega) | (symm; rw [decide_eq_false_iff_not]; omega))
    | (by_cases h4 : p ≤ a.toNat + b.toNat + c.toNat <;> simp only [h4, overflowTable, decide_true, decide_false,
        if_true, if_false] <;>
        first | (symm; rw [decide_eq_true_eq]; omega) | (symm; rw [decide_eq_false_iff_not]; omega))

/-- R168, R169: the funnel on the complemented source and the inverted borrow is the difference. -/
theorem add_not_eq_sub {n : Nat} (d s : BitVec n) (b : Bool) :
    ~~~s + d + BitVec.ofNat n (!b).toNat = d - s - BitVec.ofNat n b.toNat := by
  have h1 : (1#n).toNat = 1 % 2 ^ n := rfl
  have e : ~~~s = -s - 1#n := by rw [BitVec.neg_eq_not_add]; exact (BitVec.add_sub_cancel _ _).symm
  rw [e]
  cases b
  · show -s - 1#n + d + 1#n = d - s - 0#n
    rw [BitVec.sub_zero, BitVec.add_assoc, BitVec.add_comm d, ← BitVec.add_assoc, BitVec.sub_add_cancel,
      BitVec.add_comm, BitVec.sub_eq_add_neg]
  · show -s - 1#n + d + 0#n = d - s - 1#n
    rw [BitVec.add_zero, BitVec.sub_eq_add_neg (-s), BitVec.sub_eq_add_neg d, BitVec.sub_eq_add_neg (d + -s),
      BitVec.add_comm (-s + -1#n) d, BitVec.add_assoc]

/-! ## Bit masks, shifts and digits -/

theorem bitIndex_eq (v : Word) : bitIndex v = v.toNat % 16 := by
  simp [bitIndex, BitVec.extractLsb'_toNat]

theorem bitIndex_lt (v : Word) : bitIndex v < 16 := by rw [bitIndex_eq]; omega

/-- R165: the bits of the mask. -/
theorem bitMask_getLsbD (w : Width) (v : Word) (j : Nat) :
    (bitMask w v).getLsbD j = (decide (j = bitIndex v) && (w == .word || decide (j < 8))) := by
  have hk := bitIndex_lt v
  generalize hg : bitIndex v = k at hk
  have h1 : (1#16 <<< k).getLsbD j = decide (j = k) := by
    rw [BitVec.getLsbD_shiftLeft, BitVec.getLsbD_one]
    by_cases h : j = k
    · subst h; simp [hk]
    · have : (decide (j - k = 0) && !decide (j < k)) = false := by
        by_cases hjk : j < k
        · simp [hjk]
        · simp [hjk]; omega
      simp only [h, decide_false]
      rw [← this]
      by_cases hjk : j < k <;> by_cases h0 : j - k = 0 <;> simp [hjk, h0]
      omega
  have h2 : (widthMask w).getLsbD j = (decide (j < 16) && (w == .word || decide (j < 8))) := by
    by_cases hj : j < 16
    · interval_cases j <;> cases w <;> rfl
    · rw [BitVec.getLsbD_of_ge _ _ (by omega)]; simp [hj]
  have e : (bitMask w v).getLsbD j = ((1#16 <<< k).getLsbD j && (widthMask w).getLsbD j) := by
    rw [bitMask, hg]; exact BitVec.getLsbD_and
  rw [e, h1, h2]
  by_cases h : j = k
  · subst h; simp [hk]
  · simp [h]

/-- R193, R194: a word shifted right by one, as a number. -/
theorem shiftRightIn_word (top : Bool) (d : Word) :
    (shiftRightIn .word top d).toNat = d.toNat / 2 + 32768 * top.toNat := by
  have h := d.isLt
  have e : (shiftRightIn .word top d).toNat =
      (BitVec.ofBool top).toNat <<< 15 ||| (d.extractLsb' 1 15).toNat := BitVec.toNat_append _ _
  have hx : (d.extractLsb' 1 15).toNat = d.toNat / 2 := by
    rw [BitVec.extractLsb'_toNat, Nat.shiftRight_eq_div_pow]; omega
  rw [e, ← Nat.shiftLeft_add_eq_or_of_lt (BitVec.isLt _), hx, Nat.shiftLeft_eq]
  cases top <;> simp; omega

/-- R193, R194: a byte shifted right by one: the low half of the answer, as a number; the high half is zero. -/
theorem shiftRightIn_byte (top : Bool) (d : Word) : ∃ r : Byte, shiftRightIn .byte top d = byteWord r ∧
    r.toNat = (lowByte d).toNat / 2 + 128 * top.toNat := by
  refine ⟨BitVec.ofBool top ++ d.extractLsb' 1 7, ?_, ?_⟩
  · apply BitVec.eq_of_toNat_eq
    rw [byteWord_toNat]
    have e : (shiftRightIn .byte top d).toNat =
        (0#8 ++ BitVec.ofBool top).toNat <<< 7 ||| (d.extractLsb' 1 7).toNat := BitVec.toNat_append _ _
    rw [e, BitVec.toNat_append, BitVec.toNat_append]; simp
  have hx : (d.extractLsb' 1 7).toNat = d.toNat % 256 / 2 := by
    rw [BitVec.extractLsb'_toNat, Nat.shiftRight_eq_div_pow]; omega
  have hl : (d.extractLsb' 1 7).toNat < 2 ^ 7 := BitVec.isLt _
  rw [BitVec.toNat_append, ← Nat.shiftLeft_add_eq_or_of_lt hl, hx, Nat.shiftLeft_eq, lowByte_toNat]
  cases top <;> simp; omega

/-- R170: one digit of the sum, as numbers. -/
theorem decimalDigit_spec (x y : BitVec 4) (c : Bool) :
    (decimalDigit x y c).2 = decide (9 < x.toNat + y.toNat + c.toNat) ∧
    (decimalDigit x y c).1.toNat =
      (if 9 < x.toNat + y.toNat + c.toNat then x.toNat + y.toNat + c.toNat - 10
        else x.toNat + y.toNat + c.toNat) % 16 := by
  simp only [decimalDigit]
  split <;> simp [*]

theorem nibble_toNat (v : Word) (i : Nat) : (nibble v i).toNat = v.toNat / 2 ^ (4 * i) % 16 := by
  simp [nibble, BitVec.extractLsb'_toNat, Nat.shiftRight_eq_div_pow]

/-! ## Signed fields -/

/-- R104, R145: a relative address. -/
theorem relativeAddr_eq (base : Word) (off : BitVec 7) : relativeAddr base off = base + BitVec.ofInt 16 off.toInt := rfl

/-- R105: the displacement of a conditional branch is twice the signed field. -/
theorem branchDisp_eq (off : BitVec Config.brOffBits) : branchDisp off = BitVec.ofInt 16 (2 * off.toInt) := by
  have h := off.isLt
  have e : (off ++ 0#1).toNat = 2 * off.toNat := by
    rw [BitVec.toNat_append]; simp [Nat.shiftLeft_eq]; omega
  have hi : (off ++ 0#1).toInt = 2 * off.toInt := by
    simp only [BitVec.toInt_eq_toNat_cond, e]
    simp only [Config.brOffBits] at h ⊢
    split <;> split <;> omega
  show BitVec.ofInt 16 (off ++ 0#1).toInt = _
  rw [hi]

/-- R105: the displacement of branch-and-link is twice the signed field. -/
theorem linkDisp_eq (off : BitVec Config.blOffBits) : linkDisp off = BitVec.ofInt 16 (2 * off.toInt) := by
  have h := off.isLt
  have e : (off ++ 0#1).toNat = 2 * off.toNat := by
    rw [BitVec.toNat_append]; simp [Nat.shiftLeft_eq]; omega
  have hi : (off ++ 0#1).toInt = 2 * off.toInt := by
    simp only [BitVec.toInt_eq_toNat_cond, e]
    simp only [Config.blOffBits] at h ⊢
    split <;> split <;> omega
  show BitVec.ofInt 16 (off ++ 0#1).toInt = _
  rw [hi]

end Sys2Proof.Machine
end

