-- ==== Sys2Proof/Laws/Cache.lean ====
section
/-! SUPPORT. The cache lines as a list: the size, one line after an update, the lookup (spec 20_memory.md R62) and the
victims (R63, R64). -/

namespace Sys2Proof.Machine

open Sys2Proof

theorem Cache.toList_update (c : Cache) (f : Nat → Line → Line) : (c.update f).toList = c.toList.mapIdx f := by
  simp [Cache.update, Cache.toList, List.mapIdx_cons]

@[simp] theorem Cache.size_update (c : Cache) (f : Nat → Line → Line) : (c.update f).size = c.size := by
  simp [Cache.size, Cache.toList_update]

/-- R8: there is always a line. -/
theorem Cache.size_pos (c : Cache) : 0 < c.size := by simp [Cache.size, Cache.toList]

theorem Cache.get_eq {c : Cache} {i : Nat} (h : i < c.size) : c.get i = c.toList[i]'h := by
  have h' : i < c.toList.length := h
  simp only [Cache.get, List.getD_eq_getElem?_getD, List.getElem?_eq_getElem h', Option.getD_some]
  rfl

/-- One line after every line is updated. -/
theorem Cache.get_update {c : Cache} {i : Nat} (h : i < c.size) (f : Nat → Line → Line) :
    (c.update f).get i = f i (c.get i) := by
  have h' : i < c.toList.length := h
  simp only [Cache.get, List.getD_eq_getElem?_getD, Cache.toList_update, List.getElem?_mapIdx,
    List.getElem?_eq_getElem h', Option.map_some, Option.getD_some]

@[simp] theorem Cache.size_modify (c : Cache) (i : Nat) (f : Line → Line) : (c.modify i f).size = c.size := by
  simp [Cache.modify]

theorem Cache.get_modify {c : Cache} {j : Nat} (h : j < c.size) (i : Nat) (f : Line → Line) :
    (c.modify i f).get j = if j = i then f (c.get j) else c.get j := by
  rw [Cache.modify, Cache.get_update h]

@[simp] theorem Cache.size_touch (c : Cache) (i : Nat) : (c.touch i).size = c.size := by
  simp [Cache.touch]

@[simp] theorem Cache.maxAge_update (c : Cache) (f : Nat → Line → Line) : (c.update f).maxAge = c.maxAge := by
  simp [Cache.maxAge]

@[simp] theorem Cache.maxAge_modify (c : Cache) (i : Nat) (f : Line → Line) : (c.modify i f).maxAge = c.maxAge := by
  simp [Cache.maxAge]

@[simp] theorem Cache.maxAge_touch (c : Cache) (i : Nat) : (c.touch i).maxAge = c.maxAge := by
  simp [Cache.maxAge]

/-- R66: what a touch of line `i` does to line `j`. -/
theorem Cache.get_touch {c : Cache} {j : Nat} (h : j < c.size) (i : Nat) :
    (c.touch i).get j = { c.get j with age :=
      if j = i then c.maxAge else if (c.get i).age < (c.get j).age then (c.get j).age - 1 else (c.get j).age } := by
  rw [Cache.touch, Cache.get_update h]
  by_cases hji : j = i
  · simp [hji]
  · by_cases hp : (c.get i).age < (c.get j).age
    · have : 0 < (c.get j).age := by omega
      simp [hji, hp, this]
    · simp [hji, hp]

/-- R62: the line a lookup finds is valid and has the tag. -/
theorem Cache.find_some {c : Cache} {t : Word} {i : Nat} (h : c.find t = some i) :
    i < c.size ∧ (c.get i).valid = true ∧ (c.get i).tag = t := by
  obtain ⟨hi, hp, -⟩ := List.findIdx?_eq_some_iff_getElem.1 h
  refine ⟨hi, ?_⟩
  rw [Cache.get_eq hi]
  simpa using hp

/-- R62: a lookup that finds nothing. -/
theorem Cache.find_none {c : Cache} {t : Word} (h : c.find t = none) {i : Nat} (hi : i < c.size) :
    ¬ ((c.get i).valid = true ∧ (c.get i).tag = t) := by
  have := List.findIdx?_eq_none_iff.1 h (c.toList[i]'hi) (List.getElem_mem hi)
  rw [Cache.get_eq hi]
  simpa using this

/-- R62: the lookup depends on the valid flags and the tags only. -/
theorem Cache.find_update {c : Cache} (f : Nat → Line → Line)
    (h : ∀ i l, (f i l).valid = l.valid ∧ (f i l).tag = l.tag) (t : Word) : (c.update f).find t = c.find t := by
  have key : ∀ (l : List Line) (g : Nat → Line → Line), (∀ i l, (g i l).valid = l.valid ∧ (g i l).tag = l.tag) →
      (l.mapIdx g).findIdx? (fun l => l.valid && l.tag == t) = l.findIdx? (fun l => l.valid && l.tag == t) := by
    intro l
    induction l with
    | nil => intro g _; rfl
    | cons x xs ih =>
      intro g hg
      rw [List.mapIdx_cons, List.findIdx?_cons, List.findIdx?_cons, (hg 0 x).1, (hg 0 x).2,
        ih (fun i => g (i + 1)) (fun i l => hg (i + 1) l)]
  rw [Cache.find, Cache.find, Cache.toList_update, key _ _ h]

theorem Cache.find_touch (c : Cache) (i : Nat) (t : Word) : (c.touch i).find t = c.find t := by
  apply Cache.find_update
  intro j l
  by_cases hji : j = i
  · simp [hji, Line.valid]
  · by_cases hp : 0 < l.age ∧ (c.get i).age < l.age <;> simp [hji, hp, Line.valid]

/-- The lowest age is at most every age, and some line has it. -/
theorem Cache.minAge_spec (c : Cache) :
    (∀ l ∈ c.toList, c.minAge ≤ l.age) ∧ ∃ l ∈ c.toList, l.age = c.minAge := by
  have key : ∀ (ls : List Line) (m : Nat), (ls.foldl (fun m l => min m l.age) m ≤ m) ∧
      (∀ l ∈ ls, ls.foldl (fun m l => min m l.age) m ≤ l.age) ∧
      (ls.foldl (fun m l => min m l.age) m = m ∨ ∃ l ∈ ls, l.age = ls.foldl (fun m l => min m l.age) m) := by
    intro ls
    induction ls with
    | nil => intro m; simp
    | cons x xs ih =>
      intro m
      obtain ⟨h1, h2, h3⟩ := ih (min m x.age)
      simp only [List.foldl_cons, List.mem_cons]
      refine ⟨by omega, ?_, ?_⟩
      · rintro l (rfl | hl)
        · omega
        · exact h2 l hl
      · rcases h3 with h3 | ⟨l, hl, he⟩
        · rcases Nat.le_total m x.age with hm | hm
          · left; omega
          · right; exact ⟨x, Or.inl rfl, by omega⟩
        · right; exact ⟨l, Or.inr hl, he⟩
  obtain ⟨h1, h2, h3⟩ := key c.rest c.first.age
  constructor
  · intro l hl
    simp only [Cache.toList, List.mem_cons] at hl
    rcases hl with rfl | hl
    · exact h1
    · exact h2 l hl
  · rcases h3 with h3 | ⟨l, hl, he⟩
    · exact ⟨c.first, by simp [Cache.toList], h3.symm⟩
    · exact ⟨l, by simp [Cache.toList, hl], he⟩

theorem Cache.victimAssoc_lt (c : Cache) : c.victimAssoc < c.size := by
  obtain ⟨-, l, hl, he⟩ := c.minAge_spec
  exact List.findIdx_lt_length_of_exists ⟨l, hl, by simp [he]⟩

/-- R63: the associative victim has the lowest age, and every line before it a higher one. -/
theorem Cache.victimAssoc_spec (c : Cache) :
    (∀ j < c.size, (c.get c.victimAssoc).age ≤ (c.get j).age) ∧
    (∀ j < c.victimAssoc, (c.get c.victimAssoc).age < (c.get j).age) := by
  have hv := c.victimAssoc_lt
  have hmin : (c.get c.victimAssoc).age = c.minAge := by
    have := List.findIdx_getElem (p := fun l : Line => l.age == c.minAge) (xs := c.toList) (w := hv)
    rw [Cache.get_eq hv]
    exact beq_iff_eq.1 this
  have hle : ∀ j < c.size, c.minAge ≤ (c.get j).age := by
    intro j hj
    rw [Cache.get_eq hj]
    exact c.minAge_spec.1 _ (List.getElem_mem hj)
  refine ⟨fun j hj => hmin ▸ hle j hj, fun j hj => ?_⟩
  have hjs : j < c.size := Nat.lt_trans hj hv
  have hne := List.not_of_lt_findIdx (p := fun l : Line => l.age == c.minAge) (xs := c.toList) (i := j) hj
  have := hle j hjs
  rw [hmin]
  rw [Cache.get_eq hjs] at this ⊢
  simp at hne
  omega

theorem State.victim_lt (s : State) (t : Word) : s.victim t < s.cache.size := by
  unfold State.victim
  split
  · exact s.cache.victimAssoc_lt
  · exact Nat.mod_lt _ s.cache.size_pos

theorem State.lineFor_lt (s : State) (t : Word) : s.lineFor t < s.cache.size := by
  unfold State.lineFor
  cases h : s.cache.find t with
  | none => exact s.victim_lt t
  | some i => exact (Cache.find_some h).1

end Sys2Proof.Machine
end

