-- ==== Sys2Proof/Laws/Check.lean ====
section
/-! SUPPORT. A check that decides whether a concrete state is coherent (spec 10_state.md R35), for the witnesses. -/

namespace Sys2Proof.Machine

open Sys2Proof

/-- What R34 and R35 ask of line `i` and of each pair of lines. -/
def State.lineCheck (s : State) (i : Nat) : Bool :=
  let l := s.cache.get i
  !isOdd l.tag && (!l.dlo || l.vlo) && (!l.dhi || l.vhi) &&
  (List.range s.cache.size).all (fun j =>
    !l.valid || !(s.cache.get j).valid || !(l.tag == (s.cache.get j).tag) || i == j) &&
  (s.writePolicy == .wb || (!l.dlo && !l.dhi)) && (!l.vlo || l.dlo || l.lo == s.memByte l.tag) &&
  (!l.vhi || l.dhi || l.hi == s.memByte (l.tag + 1#16)) && decide (l.age ≤ s.cache.maxAge) &&
  (s.organisation == .assoc || !l.valid || l.tag.toNat % s.cache.size == i)

/-- The whole check. -/
def State.coherentCheck (s : State) : Bool := s.mem.wf && (List.range s.cache.size).all s.lineCheck

/-- A state that passes the check is coherent. -/
theorem State.coherent_of_check {s : State} (h : s.coherentCheck = true) : s.Coherent := by
  simp only [State.coherentCheck, Bool.and_eq_true, List.all_eq_true, List.mem_range] at h
  obtain ⟨hm, hl⟩ := h
  have key := fun i hi => by
    have := hl i hi
    simp only [State.lineCheck, Bool.and_eq_true, List.all_eq_true, List.mem_range] at this
    exact this
  refine ⟨hm, ?_, ?_, ?_, ?_, ?_, ?_, ?_, ?_⟩
  · intro i hi
    obtain ⟨⟨⟨⟨⟨⟨⟨⟨h1, h2⟩, h3⟩, h4⟩, h5⟩, h6⟩, h7⟩, h8⟩, h9⟩ := key i hi
    simpa using h1
  · intro i hi
    obtain ⟨⟨⟨⟨⟨⟨⟨⟨h1, h2⟩, h3⟩, h4⟩, h5⟩, h6⟩, h7⟩, h8⟩, h9⟩ := key i hi
    constructor <;> intro e <;> simp_all
  · intro i hi j hj vi vj e
    obtain ⟨⟨⟨⟨⟨⟨⟨⟨h1, h2⟩, h3⟩, h4⟩, h5⟩, h6⟩, h7⟩, h8⟩, h9⟩ := key i hi
    have := h4 j hj
    simp_all
  · intro hw i hi
    obtain ⟨⟨⟨⟨⟨⟨⟨⟨h1, h2⟩, h3⟩, h4⟩, h5⟩, h6⟩, h7⟩, h8⟩, h9⟩ := key i hi
    simp_all
  · intro i hi v d
    obtain ⟨⟨⟨⟨⟨⟨⟨⟨h1, h2⟩, h3⟩, h4⟩, h5⟩, h6⟩, h7⟩, h8⟩, h9⟩ := key i hi
    simp_all
  · intro i hi v d
    obtain ⟨⟨⟨⟨⟨⟨⟨⟨h1, h2⟩, h3⟩, h4⟩, h5⟩, h6⟩, h7⟩, h8⟩, h9⟩ := key i hi
    simp_all
  · intro i hi
    obtain ⟨⟨⟨⟨⟨⟨⟨⟨h1, h2⟩, h3⟩, h4⟩, h5⟩, h6⟩, h7⟩, h8⟩, h9⟩ := key i hi
    simpa using h8
  · intro ho i hi v
    obtain ⟨⟨⟨⟨⟨⟨⟨⟨h1, h2⟩, h3⟩, h4⟩, h5⟩, h6⟩, h7⟩, h8⟩, h9⟩ := key i hi
    simp_all

end Sys2Proof.Machine
end

