-- ==== Sys2Proof/Laws/Coherent.lean ====
section
/-! SUPPORT. Coherent states (spec 10_state.md R35) line by line, and the architectural byte (20_memory.md R85) as either
the byte a line holds or the byte of main memory. -/

namespace Sys2Proof.Machine

open Sys2Proof

/-- What R34 and R35 ask of one line `l` at index `i`. -/
structure LineOk (s : State) (i : Nat) (l : Line) : Prop where
  tagEven : isOdd l.tag = false
  dirtyLo : l.dlo = true → l.vlo = true
  dirtyHi : l.dhi = true → l.vhi = true
  through : s.writePolicy = .wt → l.dlo = false ∧ l.dhi = false
  cleanLo : l.vlo = true → l.dlo = false → l.lo = s.memByte l.tag
  cleanHi : l.vhi = true → l.dhi = false → l.hi = s.memByte (l.tag + 1#16)
  age : l.age ≤ s.cache.maxAge
  direct : s.organisation = .direct → l.valid = true → l.tag.toNat % s.cache.size = i

/-- R35 (b). -/
def Cache.UniqueTags (c : Cache) : Prop :=
  ∀ i < c.size, ∀ j < c.size, (c.get i).valid = true → (c.get j).valid = true → (c.get i).tag = (c.get j).tag → i = j

theorem State.Coherent.lineOk {s : State} (h : s.Coherent) {i : Nat} (hi : i < s.cache.size) :
    LineOk s i (s.cache.get i) where
  tagEven := h.tagEven i hi
  dirtyLo := (h.dirtyValid i hi).1
  dirtyHi := (h.dirtyValid i hi).2
  through hw := h.throughClean hw i hi
  cleanLo := h.cleanLo i hi
  cleanHi := h.cleanHi i hi
  age := h.ageBound i hi
  direct hd := h.directIndex hd i hi

theorem State.Coherent.of_lines {s : State} (hm : s.mem.wf = true)
    (hl : ∀ i < s.cache.size, LineOk s i (s.cache.get i)) (hu : s.cache.UniqueTags) : s.Coherent where
  memory := hm
  tagEven i hi := (hl i hi).tagEven
  dirtyValid i hi := ⟨(hl i hi).dirtyLo, (hl i hi).dirtyHi⟩
  uniqueTags := hu
  throughClean hw i hi := (hl i hi).through hw
  cleanLo i hi := (hl i hi).cleanLo
  cleanHi i hi := (hl i hi).cleanHi
  ageBound i hi := (hl i hi).age
  directIndex hd i hi := (hl i hi).direct hd

/-- Coherence is a matter of the cache, the memory and the configuration only. -/
theorem State.Coherent.congr {s t : State} (h : s.Coherent) (hc : t.cache = s.cache) (hm : t.mem = s.mem)
    (hw : t.writePolicy = s.writePolicy) (ho : t.organisation = s.organisation) : t.Coherent := by
  obtain ⟨h1, h2, h3, h4, h5, h6, h7, h8, h9⟩ := h
  constructor <;> simp only [hc, hm, hw, ho, State.memByte] <;> assumption

theorem LineOk.congr {s t : State} {i : Nat} {l : Line} (h : LineOk s i l) (hz : t.cache.size = s.cache.size)
    (hm : t.mem = s.mem) (hw : t.writePolicy = s.writePolicy) (ho : t.organisation = s.organisation) :
    LineOk t i l := by
  obtain ⟨h1, h2, h3, h4, h5, h6, h7, h8⟩ := h
  constructor <;> simp_all [State.memByte, Cache.maxAge]

/-- One line of a coherent state replaced by a line that is as R35 asks and shares its tag with no other valid line. -/
theorem State.Coherent.modifyLine {s : State} (h : s.Coherent) {i : Nat} {f : Line → Line}
    (ok : LineOk s i (f (s.cache.get i)))
    (hu : (f (s.cache.get i)).valid = true → ∀ j < s.cache.size, j ≠ i → (s.cache.get j).valid = true →
      (s.cache.get j).tag ≠ (f (s.cache.get i)).tag) : (s.modifyLine i f).Coherent := by
  refine State.Coherent.of_lines h.memory ?_ ?_
  · intro j hj
    simp only [State.modifyLine_cache, Cache.size_modify] at hj
    simp only [State.modifyLine_cache, Cache.get_modify hj]
    split
    · next hji => subst hji; exact ok.congr (by simp) rfl rfl rfl
    · exact (h.lineOk hj).congr (by simp) rfl rfl rfl
  · intro a ha b hb
    simp only [State.modifyLine_cache, Cache.size_modify] at ha hb
    simp only [State.modifyLine_cache, Cache.get_modify ha, Cache.get_modify hb]
    by_cases hai : a = i <;> by_cases hbi : b = i
    · intros; omega
    · subst hai
      simp only [if_true, if_neg hbi]
      intro v1 v2 e
      exact absurd e.symm (hu v1 b hb hbi v2)
    · subst hbi
      simp only [if_true, if_neg hai]
      intro v1 v2 e
      exact absurd e (hu v2 a ha hai v1)
    · simp only [if_neg hai, if_neg hbi]
      exact h.uniqueTags a ha b hb

/-- A byte of main memory replaced, where no clean valid byte of a line stands for it or the byte is the line's own. -/
theorem State.Coherent.setMemByte {s : State} (h : s.Coherent) {a : Word} {v : Byte}
    (hlo : ∀ j < s.cache.size, (s.cache.get j).vlo = true → (s.cache.get j).dlo = false → (s.cache.get j).tag = a →
      (s.cache.get j).lo = v)
    (hhi : ∀ j < s.cache.size, (s.cache.get j).vhi = true → (s.cache.get j).dhi = false → (s.cache.get j).tag + 1#16 = a →
      (s.cache.get j).hi = v) : (s.setMemByte a v).Coherent := by
  refine State.Coherent.of_lines (State.setMemByte_wf h.memory a v) ?_ h.uniqueTags
  intro j hj
  have ok := h.lineOk hj
  refine ⟨ok.tagEven, ok.dirtyLo, ok.dirtyHi, ok.through, ?_, ?_, ok.age, ok.direct⟩
  · intro v1 v2
    rw [State.setMemByte_memByte h.memory]
    split
    · exact hlo j hj v1 v2 ‹_›
    · exact ok.cleanLo v1 v2
  · intro v1 v2
    rw [State.setMemByte_memByte h.memory]
    split
    · exact hhi j hj v1 v2 ‹_›
    · exact ok.cleanHi v1 v2

/-- Line `i` holds a usable copy `v` of the byte at `a`. -/
def State.Cached (s : State) (a : Word) (i : Nat) (v : Byte) : Prop :=
  i < s.cache.size ∧ (s.cache.get i).tag = wordAddr a ∧
    if isOdd a then (s.cache.get i).vhi = true ∧ (s.cache.get i).hi = v
    else (s.cache.get i).vlo = true ∧ (s.cache.get i).lo = v

theorem State.Cached.valid {s : State} {a : Word} {i : Nat} {v : Byte} (h : s.Cached a i v) :
    (s.cache.get i).valid = true := by
  obtain ⟨-, -, h⟩ := h
  split at h <;> simp [Line.valid, h.1]

/-- A lookup finds the one valid line with the tag. -/
theorem Cache.find_of_valid {c : Cache} (hu : c.UniqueTags) {i : Nat} (hi : i < c.size) (hv : (c.get i).valid = true) :
    c.find (c.get i).tag = some i := by
  cases h : c.find (c.get i).tag with
  | none => exact absurd ⟨hv, rfl⟩ (Cache.find_none h hi)
  | some j =>
    obtain ⟨hj, hjv, hjt⟩ := Cache.find_some h
    rw [hu j hj i hi hjv hv hjt]

/-- R85, first case: the architectural byte is the one a line holds. -/
theorem State.archByte_cached {s : State} (hu : s.cache.UniqueTags) {a : Word} {i : Nat} {v : Byte}
    (h : s.Cached a i v) : s.archByte a = v := by
  have hf := Cache.find_of_valid hu h.1 h.valid
  obtain ⟨hi, ht, hb⟩ := h
  rw [ht] at hf
  cases ho : isOdd a <;> simp only [ho] at hb <;> simp_all [State.archByte]

/-- R85, second case: no line holds the byte, and the architectural byte is the one of main memory. -/
theorem State.archByte_uncached {s : State} {a : Word} (h : ∀ i v, ¬ s.Cached a i v) : s.archByte a = s.memByte a := by
  unfold State.archByte
  split
  · rfl
  · next i hf =>
    obtain ⟨hi, -, ht⟩ := Cache.find_some hf
    have hc := h i
    simp only [State.Cached, hi, ht, true_and] at hc
    cases ho : isOdd a
    · cases hv : (s.cache.get i).vlo <;> simp_all
    · cases hv : (s.cache.get i).vhi <;> simp_all

/-- The architectural memory is a matter of the cache and the memory only. -/
theorem State.archByte_congr {s t : State} (hc : t.cache = s.cache) (hm : t.mem = s.mem) (a : Word) :
    t.archByte a = s.archByte a := by
  simp [State.archByte, State.memByte, hc, hm]

theorem State.cached_congr {s t : State} (hc : t.cache = s.cache) (a : Word) (i : Nat) (v : Byte) :
    t.Cached a i v ↔ s.Cached a i v := by
  simp [State.Cached, hc]

/-- A byte of main memory that a line holds a copy of is not seen by the program. -/
theorem State.archByte_setMemByte_cached {s : State} (h : s.Coherent) {a : Word} {i : Nat} {u : Byte}
    (hc : s.Cached a i u) (v : Byte) (b : Word) : (s.setMemByte a v).archByte b = s.archByte b := by
  by_cases hb : ∃ j w, s.Cached b j w
  · obtain ⟨j, w, hw⟩ := hb
    rw [State.archByte_cached h.uniqueTags hw]
    exact State.archByte_cached (s := s.setMemByte a v) h.uniqueTags ((State.cached_congr rfl ..).2 hw)
  · have hb' : ∀ j w, ¬ s.Cached b j w := fun j w hw => hb ⟨j, w, hw⟩
    rw [State.archByte_uncached hb', State.archByte_uncached (s := s.setMemByte a v)
      (fun j w hw => hb' j w ((State.cached_congr rfl ..).1 hw)), State.setMemByte_memByte h.memory]
    split
    · next hba => subst hba; exact absurd hc (hb' _ _)
    · rfl

/-- A line that holds a clean copy of a byte holds what main memory holds. -/
theorem State.memByte_of_clean {s : State} (h : s.Coherent) {a : Word} {i : Nat} {v : Byte} (hc : s.Cached a i v)
    (hd : if isOdd a then (s.cache.get i).dhi = false else (s.cache.get i).dlo = false) : s.memByte a = v := by
  obtain ⟨hi, ht, hb⟩ := hc
  cases ho : isOdd a
  · simp only [ho] at hd hb
    have := h.cleanLo i hi hb.1 (by simpa using hd)
    rw [ht, wordAddr_of_even ho] at this
    rw [← this]; exact hb.2
  · simp only [ho, if_true] at hd hb
    have := h.cleanHi i hi hb.1 hd
    rw [ht, wordAddr_add_one_of_odd ho] at this
    rw [← this]; exact hb.2

end Sys2Proof.Machine
end

