-- ==== Sys2Proof/Laws/Frame.lean ====
section
/-! SUPPORT. What the cache controller never does: no access writes a register, the status word, IR, the configuration or
STOPPED, or changes the number of lines (spec 10_state.md R28, R30, R32, R33), and the clock never goes back (R31). -/

namespace Sys2Proof.Machine

open Sys2Proof

/-- Everything an access of the cache controller leaves alone. -/
structure Frame (s t : State) : Prop where
  regs : t.regs = s.regs
  psw : t.psw = s.psw
  ir : t.ir = s.ir
  writePolicy : t.writePolicy = s.writePolicy
  organisation : t.organisation = s.organisation
  stopped : t.stopped = s.stopped
  size : t.cache.size = s.cache.size
  clk : s.clk ≤ t.clk

theorem Frame.refl (s : State) : Frame s s := ⟨rfl, rfl, rfl, rfl, rfl, rfl, rfl, Nat.le_refl _⟩

theorem Frame.trans {s t u : State} (h : Frame s t) (g : Frame t u) : Frame s u :=
  ⟨g.regs.trans h.regs, g.psw.trans h.psw, g.ir.trans h.ir, g.writePolicy.trans h.writePolicy,
    g.organisation.trans h.organisation, g.stopped.trans h.stopped, g.size.trans h.size, h.clk.trans g.clk⟩

theorem Frame.x {s t : State} (h : Frame s t) (q : Reg) : t.x q = s.x q := State.x_congr h.regs q

theorem Frame.maxAge {s t : State} (h : Frame s t) : t.cache.maxAge = s.cache.maxAge := by
  simp [Cache.maxAge, h.size]

theorem checkAlign_frame (s : State) (w : Width) (a : Word) : Frame s (s.checkAlign w a) := by
  cases w
  · unfold State.checkAlign
    dsimp only
    split
    · constructor <;> simp [Diag.fatal]
    · exact Frame.refl s
  · exact Frame.refl s

@[simp] theorem checkAlign_cache (s : State) (w : Width) (a : Word) : (s.checkAlign w a).cache = s.cache := by
  cases w <;> simp only [State.checkAlign]; split <;> rfl

@[simp] theorem checkAlign_mem (s : State) (w : Width) (a : Word) : (s.checkAlign w a).mem = s.mem := by
  cases w <;> simp only [State.checkAlign]; split <;> rfl

@[simp] theorem checkAlign_memByte (s : State) (w : Width) (a b : Word) :
    (s.checkAlign w a).memByte b = s.memByte b := by simp [State.memByte]

@[simp] theorem checkAlign_bus (s : State) (w : Width) (a : Word) : (s.checkAlign w a).bus = s.bus := by
  cases w <;> simp only [State.checkAlign]; split <;> rfl

/-- R53: the one event an access can report: a word access at an odd address. -/
theorem checkAlign_diags (s : State) (w : Width) (a : Word) :
    (s.checkAlign w a).diags = s.diags ++ (if w = .word ∧ isOdd a = true then [⟨.misalignedWord, a⟩] else []) := by
  cases w
  · simp only [State.checkAlign]; split <;> simp [*]
  · simp [State.checkAlign]

/-- An access at an address that needs no correction reports nothing. -/
theorem checkAlign_even (s : State) (w : Width) {a : Word} (h : isOdd a = false) : s.checkAlign w a = s := by
  cases w <;> simp [State.checkAlign, h]

theorem checkAlign_byte (s : State) (a : Word) : s.checkAlign .byte a = s := rfl

theorem busRead_frame (s : State) (w : Width) (a : Word) : Frame s (s.busRead w a) := by
  refine (checkAlign_frame s w a).trans ?_
  constructor <;> simp [State.busRead]

@[simp] theorem busRead_cache (s : State) (w : Width) (a : Word) : (s.busRead w a).cache = s.cache := by
  simp [State.busRead]

@[simp] theorem busRead_mem (s : State) (w : Width) (a : Word) : (s.busRead w a).mem = s.mem := by
  simp [State.busRead]

@[simp] theorem busRead_memByte (s : State) (w : Width) (a b : Word) : (s.busRead w a).memByte b = s.memByte b := by
  simp [State.memByte]

theorem busRead_diags_byte (s : State) (a : Word) : (s.busRead .byte a).diags = s.diags := rfl

theorem busRead_diags_even (s : State) (w : Width) {a : Word} (h : isOdd a = false) :
    (s.busRead w a).diags = s.diags := by
  simp [State.busRead, checkAlign_even s w h]

theorem busWrite_frame (s : State) (w : Width) (a v : Word) : Frame s (s.busWrite w a v) := by
  refine (checkAlign_frame s w a).trans ?_
  cases w <;> constructor <;> simp [State.busWrite]

@[simp] theorem busWrite_cache (s : State) (w : Width) (a v : Word) : (s.busWrite w a v).cache = s.cache := by
  cases w <;> simp [State.busWrite]

theorem busWrite_diags_byte (s : State) (a v : Word) : (s.busWrite .byte a v).diags = s.diags := rfl

theorem busWrite_diags_even (s : State) (w : Width) {a : Word} (v : Word) (h : isOdd a = false) :
    (s.busWrite w a v).diags = s.diags := by
  cases w <;> simp [State.busWrite, checkAlign_even s _ h]

/-- R52: what a bus write leaves in main memory. -/
theorem busWrite_mem (s : State) (w : Width) (a v : Word) :
    (s.busWrite w a v).mem = match w with
      | .byte => (s.setMemByte a (lowByte v)).mem
      | .word => ((s.setMemByte (wordAddr a) (lowByte v)).setMemByte (wordAddr a + 1#16) (highByte v)).mem := by
  cases w <;> simp [State.busWrite]

theorem modifyLine_frame (s : State) (i : Nat) (f : Line → Line) : Frame s (s.modifyLine i f) := by
  constructor <;> simp

theorem touch_frame (s : State) (i : Nat) : Frame s (s.touch i) := by
  constructor <;> simp

theorem flush_frame (s : State) (i : Nat) : Frame s (s.flush i) := by
  unfold State.flush
  dsimp only
  split
  · exact Frame.refl s
  · split
    · exact busWrite_frame ..
    · split
      · exact busWrite_frame ..
      · split
        · exact busWrite_frame ..
        · exact Frame.refl s

@[simp] theorem flush_cache (s : State) (i : Nat) : (s.flush i).cache = s.cache := by
  unfold State.flush
  dsimp only
  split
  · rfl
  · split
    · simp
    · split
      · simp
      · split <;> simp

theorem evict_frame (s : State) (i : Nat) : Frame s (s.evict i) := (flush_frame s i).trans (modifyLine_frame ..)

theorem install_frame (s : State) (t : Word) (i : Nat) : Frame s (s.install t i) :=
  (evict_frame s i).trans (modifyLine_frame ..)

theorem locate_frame (s : State) (t : Word) : Frame s (s.locate t) := by
  unfold State.locate
  split
  · exact Frame.refl s
  · exact install_frame ..

theorem fillLo_frame (s : State) (w : Width) (a : Word) (i : Nat) : Frame s (s.fillLo w a i) := by
  unfold State.fillLo
  split
  · exact (busRead_frame ..).trans (modifyLine_frame ..)
  · exact Frame.refl s

theorem fillHi_frame (s : State) (w : Width) (a : Word) (i : Nat) : Frame s (s.fillHi w a i) := by
  unfold State.fillHi
  split
  · exact (busRead_frame ..).trans (modifyLine_frame ..)
  · exact Frame.refl s

theorem fill_frame (s : State) (w : Width) (a : Word) (i : Nat) : Frame s (s.fill w a i) := by
  unfold State.fill
  split
  · exact (busRead_frame ..).trans (modifyLine_frame ..)
  · exact (fillLo_frame ..).trans (fillHi_frame ..)

theorem readFill_frame (s : State) (w : Width) (a : Word) : Frame s (s.readFill w a) :=
  ((checkAlign_frame ..).trans (locate_frame ..)).trans (fill_frame ..)

/-- What every `MemRead` leaves alone, in every state. -/
theorem memRead_frame (s : State) (w : Width) (a : Word) : Frame s (s.memRead w a).2 :=
  (readFill_frame s w a).trans (touch_frame ..)

theorem writeThrough_frame (s : State) (w : Width) (a v : Word) : Frame s (s.writeThrough w a v) := by
  unfold State.writeThrough
  split
  · exact Frame.refl s
  · exact busWrite_frame ..

/-- What every `MemWrite` leaves alone, in every state. -/
theorem memWrite_frame (s : State) (w : Width) (a v : Word) : Frame s (s.memWrite w a v) :=
  ((((checkAlign_frame ..).trans (locate_frame ..)).trans (modifyLine_frame ..)).trans (writeThrough_frame ..)).trans
    (touch_frame ..)

end Sys2Proof.Machine
end

