-- ==== Sys2Proof/Laws/Controller.lean ====
section
/-! SUPPORT. What the cache controller does in a coherent state (spec 20_memory.md): each of its operations keeps
coherence (10_state.md R35) and the architectural memory (R85), but for the bytes a `MemWrite` stores, and a `MemRead`
answers the architectural value (R80). -/

namespace Sys2Proof.Machine

open Sys2Proof

/-- A stage of an access that a program cannot see: coherence and every architectural byte stay, and nothing is
reported. -/
structure Silent (s t : State) : Prop where
  frame : Frame s t
  coherent : t.Coherent
  arch : ∀ b, t.archByte b = s.archByte b
  diags : t.diags = s.diags

theorem Silent.refl {s : State} (h : s.Coherent) : Silent s s := ⟨Frame.refl s, h, fun _ => rfl, rfl⟩

theorem Silent.trans {s t u : State} (h : Silent s t) (g : Silent t u) : Silent s u :=
  ⟨h.frame.trans g.frame, g.coherent, fun b => (g.arch b).trans (h.arch b), g.diags.trans h.diags⟩

/-! ## Eviction -/

/-- A byte written to main memory that a line holds as dirty, the write a flush makes. -/
theorem setMemByte_dirty {s : State} (h : s.Coherent) {i : Nat} (hi : i < s.cache.size) {a : Word} {v : Byte}
    (hc : s.Cached a i v) (hd : if isOdd a then (s.cache.get i).dhi = true else (s.cache.get i).dlo = true) :
    (s.setMemByte a v).Coherent ∧ ∀ b, (s.setMemByte a v).archByte b = s.archByte b := by
  refine ⟨h.setMemByte ?_ ?_, fun b => State.archByte_setMemByte_cached h hc v b⟩
  · intro j hj v1 v2 ht
    have he : isOdd a = false := by rw [← ht]; exact h.tagEven j hj
    have hji : j = i := by
      apply h.uniqueTags j hj i hi (by simp [Line.valid, v1]) hc.valid
      rw [hc.2.1, ht, wordAddr_of_even he]
    subst hji
    simp [he] at hd
    simp [hd] at v2
  · intro j hj v1 v2 ht
    have ho : isOdd a = true := by rw [← ht]; exact even_succ_odd (h.tagEven j hj)
    have hji : j = i := by
      apply h.uniqueTags j hj i hi (by simp [Line.valid, v1]) hc.valid
      rw [hc.2.1, ← ht, wordAddr_succ (h.tagEven j hj)]
    subst hji
    simp [ho] at hd
    simp [hd] at v2

/-- R65: after the flush main memory holds every valid byte of the line, and a program sees nothing. -/
theorem flush_spec {s : State} (h : s.Coherent) {i : Nat} (hi : i < s.cache.size) :
    Silent s (s.flush i) ∧
    ((s.cache.get i).vlo = true → (s.flush i).memByte (s.cache.get i).tag = (s.cache.get i).lo) ∧
    ((s.cache.get i).vhi = true → (s.flush i).memByte ((s.cache.get i).tag + 1#16) = (s.cache.get i).hi) := by
  have ok := h.lineOk hi
  have hte := ok.tagEven
  have hodd := even_succ_odd hte
  have cLo : (s.cache.get i).vlo = true → s.Cached (s.cache.get i).tag i (s.cache.get i).lo := fun hv =>
    ⟨hi, (wordAddr_of_even hte).symm, by simp [hte, hv]⟩
  have cHi : (s.cache.get i).vhi = true → s.Cached ((s.cache.get i).tag + 1#16) i (s.cache.get i).hi := fun hv =>
    ⟨hi, (wordAddr_succ hte).symm, by simp [hodd, hv]⟩
  have keep : s.flush i = s → ((s.cache.get i).dlo = false) → ((s.cache.get i).dhi = false) →
      Silent s (s.flush i) ∧
      ((s.cache.get i).vlo = true → (s.flush i).memByte (s.cache.get i).tag = (s.cache.get i).lo) ∧
      ((s.cache.get i).vhi = true → (s.flush i).memByte ((s.cache.get i).tag + 1#16) = (s.cache.get i).hi) := by
    intro e d1 d2
    rw [e]
    exact ⟨Silent.refl h, fun hv => (ok.cleanLo hv d1).symm, fun hv => (ok.cleanHi hv d2).symm⟩
  cases hw : s.writePolicy with
  | wt =>
    obtain ⟨d1, d2⟩ := ok.through hw
    exact keep (by simp [State.flush, hw]) d1 d2
  | wb =>
    cases d1 : (s.cache.get i).dlo <;> cases d2 : (s.cache.get i).dhi
    · exact keep (by simp [State.flush, hw, d1, d2]) d1 d2
    · -- the high byte alone
      have hv := ok.dirtyHi d2
      have e : s.flush i = s.busWrite .byte ((s.cache.get i).tag + 1#16) (byteWord (s.cache.get i).hi) := by
        simp [State.flush, hw, d1, d2]
      have hm := busWrite_mem s .byte ((s.cache.get i).tag + 1#16) (byteWord (s.cache.get i).hi)
      simp only [lowByte_byteWord] at hm
      obtain ⟨hc, ha⟩ := setMemByte_dirty h hi (cHi hv) (by simp [hodd, d2])
      rw [e]
      refine ⟨⟨busWrite_frame .., hc.congr (by simp) hm (busWrite_frame ..).writePolicy (busWrite_frame ..).organisation,
        fun b => (State.archByte_congr (by simp) hm b).trans (ha b), busWrite_diags_byte ..⟩, ?_, ?_⟩
      · intro hl
        have : (s.busWrite .byte ((s.cache.get i).tag + 1#16) (byteWord (s.cache.get i).hi)).memByte (s.cache.get i).tag
            = (s.setMemByte ((s.cache.get i).tag + 1#16) (s.cache.get i).hi).memByte (s.cache.get i).tag := by
          simp only [State.memByte, hm]
        rw [this, State.setMemByte_memByte h.memory, if_neg (Ne.symm (even_succ_ne hte hte))]
        exact (ok.cleanLo hl d1).symm
      · intro _
        have : (s.busWrite .byte ((s.cache.get i).tag + 1#16) (byteWord (s.cache.get i).hi)).memByte
            ((s.cache.get i).tag + 1#16) = (s.setMemByte ((s.cache.get i).tag + 1#16) (s.cache.get i).hi).memByte
            ((s.cache.get i).tag + 1#16) := by
          simp only [State.memByte, hm]
        rw [this, State.setMemByte_memByte h.memory, if_pos rfl]
    · -- the low byte alone
      have hv := ok.dirtyLo d1
      have e : s.flush i = s.busWrite .byte (s.cache.get i).tag (byteWord (s.cache.get i).lo) := by
        simp [State.flush, hw, d1, d2]
      have hm := busWrite_mem s .byte (s.cache.get i).tag (byteWord (s.cache.get i).lo)
      simp only [lowByte_byteWord] at hm
      obtain ⟨hc, ha⟩ := setMemByte_dirty h hi (cLo hv) (by simp [hte, d1])
      rw [e]
      refine ⟨⟨busWrite_frame .., hc.congr (by simp) hm (busWrite_frame ..).writePolicy (busWrite_frame ..).organisation,
        fun b => (State.archByte_congr (by simp) hm b).trans (ha b), busWrite_diags_byte ..⟩, ?_, ?_⟩
      · intro _
        have : (s.busWrite .byte (s.cache.get i).tag (byteWord (s.cache.get i).lo)).memByte (s.cache.get i).tag
            = (s.setMemByte (s.cache.get i).tag (s.cache.get i).lo).memByte (s.cache.get i).tag := by
          simp only [State.memByte, hm]
        rw [this, State.setMemByte_memByte h.memory, if_pos rfl]
      · intro hh
        have : (s.busWrite .byte (s.cache.get i).tag (byteWord (s.cache.get i).lo)).memByte ((s.cache.get i).tag + 1#16)
            = (s.setMemByte (s.cache.get i).tag (s.cache.get i).lo).memByte ((s.cache.get i).tag + 1#16) := by
          simp only [State.memByte, hm]
        rw [this, State.setMemByte_memByte h.memory, if_neg (even_succ_ne hte hte)]
        exact (ok.cleanHi hh d2).symm
    · -- both bytes, one word write
      have hv1 := ok.dirtyLo d1
      have hv2 := ok.dirtyHi d2
      have e : s.flush i = s.busWrite .word (s.cache.get i).tag (joinBytes (s.cache.get i).hi (s.cache.get i).lo) := by
        simp [State.flush, hw, d1, d2]
      have hm := busWrite_mem s .word (s.cache.get i).tag (joinBytes (s.cache.get i).hi (s.cache.get i).lo)
      simp only [lowByte_joinBytes, highByte_joinBytes, wordAddr_of_even hte] at hm
      obtain ⟨hc1, ha1⟩ := setMemByte_dirty h hi (cLo hv1) (by simp [hte, d1])
      obtain ⟨hc2, ha2⟩ := setMemByte_dirty (s := s.setMemByte (s.cache.get i).tag (s.cache.get i).lo) hc1 hi
        ((State.cached_congr rfl ..).2 (cHi hv2)) (by simp [hodd, d2])
      rw [e]
      refine ⟨⟨busWrite_frame .., hc2.congr (by simp) hm (busWrite_frame ..).writePolicy
        (busWrite_frame ..).organisation,
        fun b => (State.archByte_congr (by simp) hm b).trans ((ha2 b).trans (ha1 b)), busWrite_diags_even _ _ _ hte⟩,
        ?_, ?_⟩
      · intro _
        have : ∀ b, (s.busWrite .word (s.cache.get i).tag (joinBytes (s.cache.get i).hi (s.cache.get i).lo)).memByte b
            = ((s.setMemByte (s.cache.get i).tag (s.cache.get i).lo).setMemByte ((s.cache.get i).tag + 1#16)
              (s.cache.get i).hi).memByte b := by
          intro b; simp only [State.memByte, hm]
        rw [this, State.setMemByte_memByte hc1.memory, if_neg (Ne.symm (even_succ_ne hte hte)),
          State.setMemByte_memByte h.memory, if_pos rfl]
      · intro _
        have : ∀ b, (s.busWrite .word (s.cache.get i).tag (joinBytes (s.cache.get i).hi (s.cache.get i).lo)).memByte b
            = ((s.setMemByte (s.cache.get i).tag (s.cache.get i).lo).setMemByte ((s.cache.get i).tag + 1#16)
              (s.cache.get i).hi).memByte b := by
          intro b; simp only [State.memByte, hm]
        rw [this, State.setMemByte_memByte hc1.memory, if_pos rfl]

/-- A line whose valid bytes main memory also holds, made invalid: a program sees nothing. -/
theorem invalidate_spec {s : State} (h : s.Coherent) {i : Nat} (hi : i < s.cache.size)
    (hlo : (s.cache.get i).vlo = true → s.memByte (s.cache.get i).tag = (s.cache.get i).lo)
    (hhi : (s.cache.get i).vhi = true → s.memByte ((s.cache.get i).tag + 1#16) = (s.cache.get i).hi) :
    Silent s (s.modifyLine i Line.invalidate) := by
  have ok := h.lineOk hi
  have hc : (s.modifyLine i Line.invalidate).Coherent := by
    apply h.modifyLine
    · exact ⟨ok.tagEven, by simp [Line.invalidate], by simp [Line.invalidate], fun _ => by simp [Line.invalidate],
        by simp [Line.invalidate], by simp [Line.invalidate], ok.age, by simp [Line.invalidate, Line.valid]⟩
    · simp [Line.invalidate, Line.valid]
  refine ⟨modifyLine_frame .., hc, ?_, rfl⟩
  intro b
  by_cases hb : ∃ j w, s.Cached b j w
  · obtain ⟨j, w, hw⟩ := hb
    rw [State.archByte_cached h.uniqueTags hw]
    by_cases hji : j = i
    · subst hji
      rw [State.archByte_uncached]
      · obtain ⟨_, ht, hv⟩ := hw
        cases ho : isOdd b
        · simp only [ho] at hv
          have := hlo hv.1
          rw [ht, wordAddr_of_even ho] at this
          simpa [this] using hv.2
        · simp only [ho, if_true] at hv
          have := hhi hv.1
          rw [ht, wordAddr_add_one_of_odd ho] at this
          simpa [this] using hv.2
      · intro k u hk
        have hks := hk.1
        simp only [State.modifyLine_cache, Cache.size_modify] at hks
        have hkv := hk.valid
        have hkt := hk.2.1
        simp only [State.modifyLine_cache, Cache.get_modify hks] at hkv hkt
        by_cases hkj : k = j
        · simp [hkj, Line.invalidate, Line.valid] at hkv
        · simp only [if_neg hkj] at hkv hkt
          exact hkj (h.uniqueTags k hks j hi hkv hw.valid (by rw [hkt, hw.2.1]))
    · refine State.archByte_cached hc.uniqueTags (i := j) ⟨by simpa using hw.1, ?_, ?_⟩
      · simpa [Cache.get_modify hw.1, hji] using hw.2.1
      · simpa [Cache.get_modify hw.1, hji] using hw.2.2
  · have hb' : ∀ j w, ¬ s.Cached b j w := fun j w hw => hb ⟨j, w, hw⟩
    rw [State.archByte_uncached hb', State.archByte_uncached]
    · rfl
    · intro k u hk
      have hks := hk.1
      simp only [State.modifyLine_cache, Cache.size_modify] at hks
      obtain ⟨_, h2, h3⟩ := hk
      simp only [State.modifyLine_cache, Cache.get_modify hks] at h2 h3
      by_cases hki : k = i
      · simp [hki, Line.invalidate] at h3
      · simp only [if_neg hki] at h2 h3
        exact hb' k u ⟨hks, h2, h3⟩

/-- R65: an eviction is seen by no program; the line is invalid and clean after it, and keeps its tag and age. -/
theorem evict_spec {s : State} (h : s.Coherent) {i : Nat} (hi : i < s.cache.size) :
    Silent s (s.evict i) ∧ (s.evict i).cache = s.cache.modify i Line.invalidate := by
  obtain ⟨hs, hlo, hhi⟩ := flush_spec h hi
  refine ⟨hs.trans (invalidate_spec hs.coherent (by simpa using hi) ?_ ?_), by simp [State.evict]⟩
  · simpa using hlo
  · simpa using hhi

/-! ## Locating a line -/

/-- Line `i` has the tag `t`, and is the only line that may hold bytes of the word at `t`. -/
structure Holds (s : State) (t : Word) (i : Nat) : Prop where
  lt : i < s.cache.size
  tag : (s.cache.get i).tag = t
  only : ∀ j < s.cache.size, j ≠ i → (s.cache.get j).valid = true → (s.cache.get j).tag ≠ t
  direct : s.organisation = .direct → t.toNat % s.cache.size = i

/-- R70, R71: after the lookup and, on a miss, the installation, line `lineFor t` holds the word at `t`; a program sees
nothing. -/
theorem locate_spec {s : State} (h : s.Coherent) {t : Word} (ht : isOdd t = false) :
    Silent s (s.locate t) ∧ Holds (s.locate t) t (s.lineFor t) := by
  cases hf : s.cache.find t with
  | some i =>
    obtain ⟨hi, hv, htag⟩ := Cache.find_some hf
    have e : s.locate t = s := by simp [State.locate, hf]
    have el : s.lineFor t = i := by simp [State.lineFor, hf]
    rw [e, el]
    refine ⟨Silent.refl h, hi, htag, ?_, ?_⟩
    · intro j hj hji hjv hjt
      exact hji (h.uniqueTags j hj i hi hjv hv (by rw [hjt, htag]))
    · intro hd
      rw [← htag]; exact h.directIndex hd i hi hv
  | none =>
    have hi := s.victim_lt t
    have e : s.locate t = s.install t (s.victim t) := by simp [State.locate, hf]
    have el : s.lineFor t = s.victim t := by simp [State.lineFor, hf]
    rw [e, el]
    obtain ⟨hs, hcache⟩ := evict_spec h hi
    have hi' : s.victim t < (s.evict (s.victim t)).cache.size := by rw [hs.frame.size]; exact hi
    have hline : (s.evict (s.victim t)).cache.get (s.victim t) = (s.cache.get (s.victim t)).invalidate := by
      rw [hcache, Cache.get_modify hi, if_pos rfl]
    have ok := hs.coherent.lineOk hi'
    have hinv : ((s.evict (s.victim t)).cache.get (s.victim t)).vlo = false ∧
        ((s.evict (s.victim t)).cache.get (s.victim t)).vhi = false ∧
        ((s.evict (s.victim t)).cache.get (s.victim t)).dlo = false ∧
        ((s.evict (s.victim t)).cache.get (s.victim t)).dhi = false := by
      rw [hline]; simp [Line.invalidate]
    obtain ⟨i1, i2, i3, i4⟩ := hinv
    have hc2 : (s.install t (s.victim t)).Coherent := by
      apply hs.coherent.modifyLine
      · exact ⟨ht, by simp [i3], by simp [i4], fun _ => ⟨i3, i4⟩, by simp [i1], by simp [i2], ok.age,
          by simp [Line.valid, i1, i2]⟩
      · simp [Line.valid, i1, i2]
    have hget : ∀ j < s.cache.size, (s.install t (s.victim t)).cache.get j =
        if j = s.victim t then { (s.cache.get j).invalidate with tag := t } else s.cache.get j := by
      intro j hj
      have hj' : j < (s.evict (s.victim t)).cache.size := by rw [hs.frame.size]; exact hj
      rw [State.install, State.modifyLine_cache, Cache.get_modify hj', hcache, Cache.get_modify hj]
      split <;> rfl
    have hz : (s.install t (s.victim t)).cache.size = s.cache.size := (install_frame ..).size
    refine ⟨hs.trans ⟨modifyLine_frame .., hc2, ?_, rfl⟩, by rw [hz]; exact hi, ?_, ?_, ?_⟩
    · intro b
      have key : ∀ j w, (s.install t (s.victim t)).Cached b j w ↔ (s.evict (s.victim t)).Cached b j w := by
        intro j w
        by_cases hj : j < s.cache.size
        · by_cases hji : j = s.victim t
          · subst hji
            constructor
            · intro hk
              have := hk.valid
              rw [hget _ hj] at this
              simp [Line.invalidate, Line.valid] at this
            · intro hk
              have := hk.valid
              simp [Line.valid, i1, i2] at this
          · have h1 := hget j hj
            rw [if_neg hji] at h1
            have h2 : (s.evict (s.victim t)).cache.get j = s.cache.get j := by
              rw [hcache, Cache.get_modify hj, if_neg hji]
            simp only [State.Cached, hz, hs.frame.size, h1, h2]
        · constructor <;> intro hk
          · exact absurd (hz ▸ hk.1) hj
          · exact absurd (hs.frame.size ▸ hk.1) hj
      by_cases hb : ∃ j w, (s.evict (s.victim t)).Cached b j w
      · obtain ⟨j, w, hw⟩ := hb
        exact (State.archByte_cached hc2.uniqueTags ((key j w).2 hw)).trans
          (State.archByte_cached hs.coherent.uniqueTags hw).symm
      · have hb' : ∀ j w, ¬ (s.evict (s.victim t)).Cached b j w := fun j w hw => hb ⟨j, w, hw⟩
        exact (State.archByte_uncached (fun j w hw => hb' j w ((key j w).1 hw))).trans
          (State.archByte_uncached hb').symm
    · rw [hget _ hi, if_pos rfl]
    · intro j hj hji hjv hjt
      rw [hz] at hj
      rw [hget j hj, if_neg hji] at hjv hjt
      exact Cache.find_none hf hj ⟨hjv, hjt⟩
    · intro hd
      rw [hz]
      have : s.organisation = .direct := by rw [← (install_frame s t (s.victim t)).organisation]; exact hd
      simp [State.victim, this, Cache.victimDirect]

/-! ## Filling a line -/

/-- A clean copy of main memory put into a line that holds the word: a program sees nothing. The bytes that change are
the ones that were not valid. -/
theorem fillLine_spec {s : State} (h : s.Coherent) {t : Word} {i : Nat} (ho : Holds s t i) {f : Line → Line}
    (htag : (f (s.cache.get i)).tag = t) (hage : (f (s.cache.get i)).age = (s.cache.get i).age)
    (hdlo : (f (s.cache.get i)).dlo = (s.cache.get i).dlo) (hdhi : (f (s.cache.get i)).dhi = (s.cache.get i).dhi)
    (hlo : ((f (s.cache.get i)).vlo = (s.cache.get i).vlo ∧ (f (s.cache.get i)).lo = (s.cache.get i).lo) ∨
      ((s.cache.get i).vlo = false ∧ (f (s.cache.get i)).vlo = true ∧ (f (s.cache.get i)).lo = s.memByte t))
    (hhi : ((f (s.cache.get i)).vhi = (s.cache.get i).vhi ∧ (f (s.cache.get i)).hi = (s.cache.get i).hi) ∨
      ((s.cache.get i).vhi = false ∧ (f (s.cache.get i)).vhi = true ∧ (f (s.cache.get i)).hi = s.memByte (t + 1#16))) :
    Silent s (s.modifyLine i f) ∧ Holds (s.modifyLine i f) t i := by
  have hi := ho.lt
  have ok := h.lineOk hi
  have hte : isOdd t = false := by rw [← ho.tag]; exact ok.tagEven
  have hok : LineOk s i (f (s.cache.get i)) := by
    refine ⟨by rw [htag]; exact hte, ?_, ?_, ?_, ?_, ?_, by rw [hage]; exact ok.age, ?_⟩
    · intro hd
      rw [hdlo] at hd
      have := ok.dirtyLo hd
      rcases hlo with ⟨h1, -⟩ | ⟨-, h2, -⟩
      · rw [h1]; exact this
      · exact h2
    · intro hd
      rw [hdhi] at hd
      have := ok.dirtyHi hd
      rcases hhi with ⟨h1, -⟩ | ⟨-, h2, -⟩
      · rw [h1]; exact this
      · exact h2
    · intro hw; rw [hdlo, hdhi]; exact ok.through hw
    · intro hv hd
      rw [hdlo] at hd
      rcases hlo with ⟨h1, h2⟩ | ⟨-, -, h2⟩
      · rw [h2, htag, ← ho.tag]; exact ok.cleanLo (h1 ▸ hv) hd
      · rw [h2, htag]
    · intro hv hd
      rw [hdhi] at hd
      rcases hhi with ⟨h1, h2⟩ | ⟨-, -, h2⟩
      · rw [h2, htag, ← ho.tag]; exact ok.cleanHi (h1 ▸ hv) hd
      · rw [h2, htag]
    · intro hd _; rw [htag]; exact ho.direct hd
  have hc : (s.modifyLine i f).Coherent := by
    apply h.modifyLine hok
    intro _ j hj hji hjv
    rw [htag]; exact ho.only j hj hji hjv
  have hget : ∀ j < s.cache.size, (s.modifyLine i f).cache.get j = if j = i then f (s.cache.get j) else s.cache.get j :=
    fun j hj => by rw [State.modifyLine_cache, Cache.get_modify hj]
  refine ⟨⟨modifyLine_frame .., hc, ?_, rfl⟩, by simpa using hi, by rw [hget i hi, if_pos rfl, htag], ?_, ?_⟩
  · intro b
    by_cases hb : ∃ j w, s.Cached b j w
    · obtain ⟨j, w, hw⟩ := hb
      rw [State.archByte_cached h.uniqueTags hw]
      refine State.archByte_cached hc.uniqueTags (i := j) ⟨by simpa using hw.1, ?_, ?_⟩
      · rw [hget j hw.1]
        split
        · next hji => subst hji; rw [htag, ← ho.tag]; exact hw.2.1
        · exact hw.2.1
      · rw [hget j hw.1]
        by_cases hji : j = i
        · subst hji
          simp only [if_true]
          have h3 := hw.2.2
          cases hob : isOdd b
          · simp only [hob] at h3 ⊢
            rcases hlo with ⟨h1, h2⟩ | ⟨h1, -, -⟩
            · rw [h1, h2]; exact h3
            · simp [h1] at h3
          · simp only [hob, if_true] at h3 ⊢
            rcases hhi with ⟨h1, h2⟩ | ⟨h1, -, -⟩
            · rw [h1, h2]; exact h3
            · simp [h1] at h3
        · rw [if_neg hji]; exact hw.2.2
    · have hb' : ∀ j w, ¬ s.Cached b j w := fun j w hw => hb ⟨j, w, hw⟩
      rw [State.archByte_uncached hb']
      by_cases hn : ∃ j w, (s.modifyLine i f).Cached b j w
      · obtain ⟨j, w, hw⟩ := hn
        rw [State.archByte_cached hc.uniqueTags hw]
        have hj : j < s.cache.size := by simpa using hw.1
        obtain ⟨-, h2, h3⟩ := hw
        rw [hget j hj] at h2 h3
        by_cases hji : j = i
        · subst hji
          simp only [if_true] at h2 h3
          rw [htag] at h2
          have hnb : ¬ s.Cached b j w := hb' j w
          simp only [State.Cached, hj, ho.tag, h2, true_and] at hnb
          cases hob : isOdd b
          · simp only [hob] at h3 hnb
            rcases hlo with ⟨h4, h5⟩ | ⟨-, -, h5⟩
            · rw [h4, h5] at h3; exact absurd h3 hnb
            · rw [h2, wordAddr_of_even hob] at h5
              rw [← h5]; exact h3.2.symm
          · simp only [hob, if_true] at h3 hnb
            rcases hhi with ⟨h4, h5⟩ | ⟨-, -, h5⟩
            · rw [h4, h5] at h3; exact absurd h3 hnb
            · rw [h2, wordAddr_add_one_of_odd hob] at h5
              rw [← h5]; exact h3.2.symm
        · rw [if_neg hji] at h2 h3
          exact absurd ⟨hj, h2, h3⟩ (hb' j w)
      · exact (State.archByte_uncached fun j w hw => hn ⟨j, w, hw⟩).trans rfl
  · intro j hj hji
    simp only [State.modifyLine_cache, Cache.size_modify] at hj
    rw [hget j hj, if_neg hji]
    exact ho.only j hj hji
  · intro hd
    simpa using ho.direct hd

theorem busRead_silent {s : State} (h : s.Coherent) (w : Width) {a : Word} (ha : w = .byte ∨ isOdd a = false) :
    Silent s (s.busRead w a) := by
  refine ⟨busRead_frame .., h.congr (by simp) (by simp) (busRead_frame ..).writePolicy (busRead_frame ..).organisation,
    fun b => State.archByte_congr (by simp) (by simp) b, ?_⟩
  rcases ha with rfl | ha
  · rfl
  · exact busRead_diags_even s w ha

theorem Holds.congr {s t : State} {a : Word} {i : Nat} (h : Holds s a i) (hc : t.cache = s.cache)
    (ho : t.organisation = s.organisation) : Holds t a i := by
  obtain ⟨h1, h2, h3, h4⟩ := h
  constructor <;> simp only [hc, ho] <;> assumption

theorem fillLo_spec {s : State} (h : s.Coherent) {w : Width} {a : Word} {i : Nat} (ho : Holds s (wordAddr a) i) :
    Silent s (s.fillLo w a i) ∧ Holds (s.fillLo w a i) (wordAddr a) i ∧
    (needsLo w a = true → ((s.fillLo w a i).cache.get i).vlo = true) := by
  unfold State.fillLo
  split
  · next hc =>
    simp only [Bool.and_eq_true, Bool.not_eq_true'] at hc
    have hb := busRead_silent h .byte (a := wordAddr a) (Or.inl rfl)
    obtain ⟨h1, h2⟩ := fillLine_spec (f := fun l =>
        { l with lo := lowByte (s.busValue .byte (wordAddr a)), vlo := true }) hb.coherent
      (ho.congr (by simp) hb.frame.organisation) (by simpa using ho.tag) rfl rfl rfl
      (Or.inr ⟨by simpa using hc.2, rfl, by simp [State.busValue]⟩) (Or.inl ⟨rfl, rfl⟩)
    refine ⟨hb.trans h1, h2, fun _ => ?_⟩
    rw [State.modifyLine_cache, Cache.get_modify (by simpa using ho.lt)]
    simp
  · next hc =>
    refine ⟨Silent.refl h, ho, fun hn => ?_⟩
    simpa [hn] using hc

theorem fillHi_spec {s : State} (h : s.Coherent) {w : Width} {a : Word} {i : Nat} (ho : Holds s (wordAddr a) i) :
    Silent s (s.fillHi w a i) ∧ Holds (s.fillHi w a i) (wordAddr a) i ∧
    (needsHi w a = true → ((s.fillHi w a i).cache.get i).vhi = true) ∧
    ((s.fillHi w a i).cache.get i).vlo = (s.cache.get i).vlo := by
  unfold State.fillHi
  split
  · next hc =>
    simp only [Bool.and_eq_true, Bool.not_eq_true'] at hc
    have hb := busRead_silent h .byte (a := wordAddr a + 1#16) (Or.inl rfl)
    obtain ⟨h1, h2⟩ := fillLine_spec (f := fun l =>
        { l with hi := lowByte (s.busValue .byte (wordAddr a + 1#16)), vhi := true }) hb.coherent
      (ho.congr (by simp) hb.frame.organisation) (by simpa using ho.tag) rfl rfl rfl
      (Or.inl ⟨rfl, rfl⟩) (Or.inr ⟨by simpa using hc.2, rfl, by simp [State.busValue]⟩)
    refine ⟨hb.trans h1, h2, fun _ => ?_, ?_⟩ <;>
    · rw [State.modifyLine_cache, Cache.get_modify (by simpa using ho.lt)]
      simp
  · next hc =>
    refine ⟨Silent.refl h, ho, fun hn => ?_, rfl⟩
    simpa [hn] using hc

/-- R70: after the fill every byte the read needs is valid; a program sees nothing. -/
theorem fill_spec {s : State} (h : s.Coherent) {w : Width} {a : Word} {i : Nat} (ho : Holds s (wordAddr a) i) :
    Silent s (s.fill w a i) ∧ Holds (s.fill w a i) (wordAddr a) i ∧
    (needsLo w a = true → ((s.fill w a i).cache.get i).vlo = true) ∧
    (needsHi w a = true → ((s.fill w a i).cache.get i).vhi = true) := by
  unfold State.fill
  split
  · next hc =>
    simp only [Bool.and_eq_true, Bool.not_eq_true', beq_iff_eq] at hc
    have hb := busRead_silent h .word (a := wordAddr a) (Or.inr (wordAddr_even a))
    obtain ⟨h1, h2⟩ := fillLine_spec (f := fun l =>
        { l with
          lo := lowByte (s.busValue .word (wordAddr a))
          hi := highByte (s.busValue .word (wordAddr a))
          vlo := true
          vhi := true }) hb.coherent
      (ho.congr (by simp) hb.frame.organisation) (by simpa using ho.tag) rfl rfl rfl
      (Or.inr ⟨by simpa using hc.1.2, rfl, by simp [State.busValue]⟩)
      (Or.inr ⟨by simpa using hc.2, rfl, by simp [State.busValue]⟩)
    refine ⟨hb.trans h1, h2, fun _ => ?_, fun _ => ?_⟩ <;>
    · rw [State.modifyLine_cache, Cache.get_modify (by simpa using ho.lt)]
      simp
  · obtain ⟨h1, h2, h3⟩ := fillLo_spec h (w := w) ho
    obtain ⟨g1, g2, g3, g4⟩ := fillHi_spec h1.coherent (w := w) h2
    exact ⟨h1.trans g1, g2, fun hn => g4.trans (h3 hn), g3⟩

/-! ## Touching a line -/

/-- R66: a touch changes ages only, and keeps them at most `MAX_AGE`. -/
theorem touch_spec {s : State} (h : s.Coherent) (i : Nat) : Silent s (s.touch i) := by
  have hget : ∀ j < s.cache.size, (s.touch i).cache.get j = { s.cache.get j with age :=
      if j = i then s.cache.maxAge else if (s.cache.get i).age < (s.cache.get j).age then (s.cache.get j).age - 1
        else (s.cache.get j).age } := fun j hj => by rw [State.touch_cache, Cache.get_touch hj]
  have hc : (s.touch i).Coherent := by
    refine State.Coherent.of_lines h.memory ?_ ?_
    · intro j hj
      simp only [State.touch_cache, Cache.size_touch] at hj
      have ok := h.lineOk hj
      rw [hget j hj]
      refine ⟨ok.tagEven, ok.dirtyLo, ok.dirtyHi, ok.through, ok.cleanLo, ok.cleanHi, ?_, ?_⟩
      · have := ok.age
        simp only [State.touch_cache, Cache.maxAge_touch]
        split
        · exact Nat.le_refl _
        · split <;> omega
      · intro hd hv
        simpa using ok.direct hd hv
    · intro j hj k hk
      simp only [State.touch_cache, Cache.size_touch] at hj hk
      rw [hget j hj, hget k hk]
      exact h.uniqueTags j hj k hk
  refine ⟨touch_frame .., hc, ?_, rfl⟩
  intro b
  unfold State.archByte
  simp only [State.touch_cache, Cache.find_touch, State.touch_memByte]
  split
  · rfl
  · next j hf =>
    have hj := (Cache.find_some hf).1
    simp [Cache.get_touch hj]

/-! ## MemRead -/

/-- R53: the report of an access is seen by no program. -/
theorem checkAlign_coherent {s : State} (h : s.Coherent) (w : Width) (a : Word) : (s.checkAlign w a).Coherent :=
  h.congr (by simp) (by simp) (checkAlign_frame ..).writePolicy (checkAlign_frame ..).organisation

@[simp] theorem checkAlign_lineFor (s : State) (w : Width) (a t : Word) :
    (s.checkAlign w a).lineFor t = s.lineFor t := by
  simp [State.lineFor, State.victim, (checkAlign_frame s w a).organisation]

/-- The state in which a read takes its value. -/
theorem readFill_spec {s : State} (h : s.Coherent) (w : Width) (a : Word) :
    (s.readFill w a).Coherent ∧ (∀ b, (s.readFill w a).archByte b = s.archByte b) ∧
    (s.readFill w a).diags = (s.checkAlign w a).diags ∧ Holds (s.readFill w a) (wordAddr a) (s.lineFor (wordAddr a)) ∧
    (needsLo w a = true → ((s.readFill w a).cache.get (s.lineFor (wordAddr a))).vlo = true) ∧
    (needsHi w a = true → ((s.readFill w a).cache.get (s.lineFor (wordAddr a))).vhi = true) := by
  have h0 := checkAlign_coherent h w a
  obtain ⟨h1, h2⟩ := locate_spec h0 (wordAddr_even a)
  simp only [checkAlign_lineFor] at h2
  obtain ⟨g1, g2, g3, g4⟩ := fill_spec h1.coherent (w := w) h2
  have hs := h1.trans g1
  exact ⟨hs.coherent, fun b => (hs.arch b).trans (State.archByte_congr (by simp) (by simp) b), hs.diags, g2, g3, g4⟩

/-- What a line that holds the word answers a read whose bytes are valid. -/
theorem value_spec {s : State} (h : s.Coherent) {w : Width} {a : Word} {i : Nat} (ho : Holds s (wordAddr a) i)
    (hl : needsLo w a = true → (s.cache.get i).vlo = true) (hh : needsHi w a = true → (s.cache.get i).vhi = true) :
    (s.cache.get i).value w a = match w with
      | .word => s.archWord a
      | .byte => byteWord (s.archByte a) := by
  have cl : (s.cache.get i).vlo = true → s.archByte (wordAddr a) = (s.cache.get i).lo := fun hv =>
    State.archByte_cached h.uniqueTags ⟨ho.lt, by simp [ho.tag], by simp [hv]⟩
  have ch : (s.cache.get i).vhi = true → s.archByte (wordAddr a + 1#16) = (s.cache.get i).hi := fun hv =>
    State.archByte_cached h.uniqueTags ⟨ho.lt, by simp [ho.tag, wordAddr_succ (wordAddr_even a)],
      by simp [hv, even_succ_odd (wordAddr_even a)]⟩
  cases w with
  | word => simp [Line.value, State.archWord, cl (hl rfl), ch (hh rfl)]
  | byte =>
    cases hod : isOdd a
    · have := cl (hl (by simp [needsLo, hod]))
      rw [wordAddr_of_even hod] at this
      simp [Line.value, hod, this]
    · have := ch (hh (by simp [needsHi, hod]))
      rw [wordAddr_add_one_of_odd hod] at this
      simp [Line.value, hod, this]

/-- R80: `MemRead` in a coherent state: its value is the architectural one, no architectural byte changes, coherence
stays, and the one event it can report is the misaligned word. -/
theorem memRead_spec {s : State} (h : s.Coherent) (w : Width) (a : Word) :
    ((s.memRead w a).1 = match w with
      | .word => s.archWord a
      | .byte => byteWord (s.archByte a)) ∧
    (s.memRead w a).2.Coherent ∧ (∀ b, (s.memRead w a).2.archByte b = s.archByte b) ∧
    (s.memRead w a).2.diags = (s.checkAlign w a).diags := by
  obtain ⟨h1, h2, h3, h4, h5, h6⟩ := readFill_spec h w a
  have hv := value_spec h1 h4 h5 h6
  have ht := touch_spec h1 (s.lineFor (wordAddr a))
  refine ⟨?_, ht.coherent, fun b => (ht.arch b).trans (h2 b), ht.diags.trans h3⟩
  show ((s.readFill w a).cache.get (s.lineFor (wordAddr a))).value w a = _
  rw [hv]
  cases w <;> simp [State.archWord, h2]

end Sys2Proof.Machine
end

