-- ==== Sys2Proof/Laws/Encode.lean ====
section
/-! SUPPORT. The encoder's words and the decoder's fields as numbers (spec 30_encoding.md R102 to R108), so that what one
puts in and the other takes out is a matter of arithmetic. -/

namespace Sys2Proof

/-- A bit of a word as a number. -/
theorem bit_eq (w : Word) (i : Nat) : w.getLsbD i = decide (w.toNat / 2 ^ i % 2 = 1) := by
  simp only [BitVec.getLsbD, Nat.testBit, Nat.shiftRight_eq_div_pow, Nat.one_and_eq_mod_two, bne]
  rcases Nat.mod_two_eq_zero_or_one (w.toNat / 2 ^ i) with h | h <;> simp [h]

/-- A field of a word as a number. -/
theorem field_toNat (w : Word) (i k : Nat) : (w.extractLsb' i k).toNat = w.toNat / 2 ^ i % 2 ^ k := by
  rw [BitVec.extractLsb'_toNat, Nat.shiftRight_eq_div_pow]

/-- Two fields side by side as a number. -/
theorem append_toNat {m n : Nat} (a : BitVec m) (b : BitVec n) : (a ++ b).toNat = a.toNat * 2 ^ n + b.toNat := by
  rw [BitVec.toNat_append, ← Nat.shiftLeft_add_eq_or_of_lt b.isLt, Nat.shiftLeft_eq]

theorem regOfBits_regBits (r : Reg) : regOfBits (regBits r) = r := by cases r <;> rfl

theorem constOfBits_constBits (k : ConstIdx) : constOfBits (constBits k) = k := by cases k <;> rfl

theorem widthOfBit_widthBit (w : Width) : widthOfBit (decide ((widthBit w).toNat = 1)) = w := by cases w <;> rfl

theorem regBits_regOfBits (b : BitVec 3) : regBits (regOfBits b) = b := by revert b; decide

theorem constBits_constOfBits (b : BitVec 3) : constBits (constOfBits b) = b := by revert b; decide

theorem widthBit_le (w : Width) : (widthBit w).toNat ≤ 1 := by cases w <;> decide

/-! ## A field of a word, from the word's number -/

theorem field_eq {w : Word} {i k : Nat} {b : BitVec k} (h : w.toNat / 2 ^ i % 2 ^ k = b.toNat) :
    w.extractLsb' i k = b :=
  BitVec.eq_of_toNat_eq ((field_toNat ..).trans h)

theorem dstField_eq {w : Word} {r : Reg} (h : w.toNat % 8 = (regBits r).toNat) : dstField w = r := by
  rw [dstField, field_eq (b := regBits r) (by simpa using h), regOfBits_regBits]

theorem srcField_eq {w : Word} {r : Reg} (h : w.toNat / 8 % 8 = (regBits r).toNat) : srcField w = r := by
  rw [srcField, field_eq (b := regBits r) (by simpa using h), regOfBits_regBits]

theorem widthField_eq {w : Word} {b : Width} (h : w.toNat / 64 % 2 = (widthBit b).toNat) : widthField w = b := by
  rw [widthField, bit_eq, ← widthOfBit_widthBit b, ← h]; rfl

/-! ## The encoder's formats -/

theorem encodeBC_toNat (c : BitVec 3) (off : BitVec Config.brOffBits) :
    (encodeBC c off).toNat = 8192 + 1024 * c.toNat + off.toNat := by
  have e : (encodeBC c off).toNat = (0b001#3 ++ c).toNat * 2 ^ 10 + off.toNat := append_toNat _ _
  rw [e, append_toNat]; simp; omega

theorem encodeBL_toNat (off : BitVec Config.blOffBits) : (encode (.bl off)).toNat = off.toNat := by
  have e : (encode (.bl off)).toNat = (0b000#3).toNat * 2 ^ 13 + off.toNat := append_toNat _ _
  rw [e]; simp

/-- The bit R/C and the field SRC of a source operand, as one number. -/
def operandNumber : Operand → Nat
  | .reg r => (regBits r).toNat
  | .const k => 16 + (constBits k).toNat

/-- R103, format A2. -/
theorem encodeA2_toNat (f : BitVec 4) (src : Operand) (w : Width) (dst : Reg) :
    (encodeA2 f src w dst).toNat =
      16384 + 256 * f.toNat + 64 * (widthBit w).toNat + 8 * operandNumber src + (regBits dst).toNat := by
  cases src with
  | reg r =>
    have e : (encodeA2 f (.reg r) w dst).toNat =
        (0b0100#4 ++ f ++ 0#1 ++ widthBit w ++ regBits r).toNat * 2 ^ 3 + (regBits dst).toNat := append_toNat _ _
    rw [e, append_toNat, append_toNat, append_toNat, append_toNat]; simp [operandNumber]; omega
  | const k =>
    have e : (encodeA2 f (.const k) w dst).toNat =
        (0b0100#4 ++ f ++ 1#1 ++ widthBit w ++ constBits k).toNat * 2 ^ 3 + (regBits dst).toNat := append_toNat _ _
    rw [e, append_toNat, append_toNat, append_toNat, append_toNat]; simp [operandNumber]; omega

theorem encodeMov_toNat (w : Width) (src dst : Reg) :
    (encode (.mov w src dst)).toNat = 19456 + 64 * (widthBit w).toNat + 8 * (regBits src).toNat + (regBits dst).toNat := by
  have e : (encode (.mov w src dst)).toNat =
      (0b010011000#9 ++ widthBit w ++ regBits src).toNat * 2 ^ 3 + (regBits dst).toNat := append_toNat _ _
  rw [e, append_toNat, append_toNat]; simp; omega

theorem encodeSwap_toNat (src dst : Reg) :
    (encode (.swap src dst)).toNat = 19584 + 8 * (regBits src).toNat + (regBits dst).toNat := by
  have e : (encode (.swap src dst)).toNat = (0b0100110010#10 ++ regBits src).toNat * 2 ^ 3 + (regBits dst).toNat :=
    append_toNat _ _
  rw [e, append_toNat]; simp; omega

theorem encodeR1_toNat (w : Width) (u : BitVec 3) (dst : Reg) :
    (encodeR1 w u dst).toNat = 19712 + 64 * (widthBit w).toNat + 8 * u.toNat + (regBits dst).toNat := by
  have e : (encodeR1 w u dst).toNat = (0b010011010#9 ++ widthBit w ++ u).toNat * 2 ^ 3 + (regBits dst).toNat :=
    append_toNat _ _
  rw [e, append_toNat, append_toNat]; simp; omega

theorem encodeIX_toNat (t : BitVec 1) (m : ModeBits) (w : Width) (src dst : Reg) :
    (encodeIX t m w src dst).toNat = 22528 + 1024 * t.toNat + 512 * m.prpo.toNat + 256 * m.dec.toNat + 128 * m.inc.toNat
      + 64 * (widthBit w).toNat + 8 * (regBits src).toNat + (regBits dst).toNat := by
  have e : (encodeIX t m w src dst).toNat =
      (0b01011#5 ++ t ++ BitVec.ofBool m.prpo ++ BitVec.ofBool m.dec ++ BitVec.ofBool m.inc ++ widthBit w
        ++ regBits src).toNat * 2 ^ 3 + (regBits dst).toNat := append_toNat _ _
  rw [e, append_toNat, append_toNat, append_toNat, append_toNat, append_toNat, append_toNat]; simp; omega

theorem encodeMI_toNat (e : BitVec 2) (b : Byte) (dst : Reg) :
    (encodeMI e b dst).toNat = 24576 + 2048 * e.toNat + 8 * b.toNat + (regBits dst).toNat := by
  have h : (encodeMI e b dst).toNat = (0b011#3 ++ e ++ b).toNat * 2 ^ 3 + (regBits dst).toNat := append_toNat _ _
  rw [h, append_toNat, append_toNat]; simp; omega

theorem encodeRL_toNat (t : BitVec 1) (off : BitVec 7) (w : Width) (src dst : Reg) :
    (encodeRL t off w src dst).toNat = 32768 + 16384 * t.toNat + 128 * off.toNat + 64 * (widthBit w).toNat
      + 8 * (regBits src).toNat + (regBits dst).toNat := by
  have e : (encodeRL t off w src dst).toNat =
      (1#1 ++ t ++ off ++ widthBit w ++ regBits src).toNat * 2 ^ 3 + (regBits dst).toNat := append_toNat _ _
  rw [e, append_toNat, append_toNat, append_toNat, append_toNat]; simp; omega

end Sys2Proof
end

