-- ==== Sys2Proof/Laws/Store.lean ====
section
/-! SUPPORT. `MemWrite` in a coherent state (spec 20_memory.md R71, R80): the bytes it stores take the stored value, every
other architectural byte stays, and coherence stays. -/

namespace Sys2Proof.Machine

open Sys2Proof

/-- One line, and main memory within its word, replaced together. -/
theorem lineWrite_coherent {s t : State} (h : s.Coherent) {a : Word} {i : Nat} (ho : Holds s a i) {f : Line → Line}
    (hc : t.cache = s.cache.modify i f) (hw : t.writePolicy = s.writePolicy) (hg : t.organisation = s.organisation)
    (hm : t.mem.wf = true) (hmem : ∀ b, wordAddr b ≠ a → t.memByte b = s.memByte b)
    (hok : LineOk t i (f (s.cache.get i))) (htag : (f (s.cache.get i)).tag = a) : t.Coherent := by
  have hz : t.cache.size = s.cache.size := by simp [hc]
  have hget : ∀ j < s.cache.size, t.cache.get j = if j = i then f (s.cache.get j) else s.cache.get j :=
    fun j hj => by rw [hc, Cache.get_modify hj]
  refine State.Coherent.of_lines hm ?_ ?_
  · intro j hj
    rw [hz] at hj
    rw [hget j hj]
    split
    · next hji => subst hji; exact hok
    · next hji =>
      have ok := h.lineOk hj
      have hother : (s.cache.get j).valid = true → (s.cache.get j).tag ≠ a := ho.only j hj hji
      refine ⟨ok.tagEven, ok.dirtyLo, ok.dirtyHi, fun e => ok.through (hw ▸ e), ?_, ?_, ?_, ?_⟩
      · intro v1 v2
        rw [hmem _ (by rw [wordAddr_of_even ok.tagEven]; exact hother (by simp [Line.valid, v1]))]
        exact ok.cleanLo v1 v2
      · intro v1 v2
        rw [hmem _ (by rw [wordAddr_succ ok.tagEven]; exact hother (by simp [Line.valid, v1]))]
        exact ok.cleanHi v1 v2
      · have := ok.age; simpa [hc] using this
      · intro e v1; rw [hz]; exact ok.direct (hg ▸ e) v1
  · intro j hj k hk
    rw [hz] at hj hk
    rw [hget j hj, hget k hk]
    by_cases hji : j = i <;> by_cases hki : k = i
    · intros; omega
    · subst hji
      simp only [if_true, if_neg hki]
      intro _ v2 e
      exact absurd (e.symm.trans htag) (ho.only k hk hki v2)
    · subst hki
      simp only [if_true, if_neg hji]
      intro v1 _ e
      exact absurd (e.trans htag) (ho.only j hj hji v1)
    · simp only [if_neg hji, if_neg hki]
      exact h.uniqueTags j hj k hk

/-- The architectural bytes outside the word of the line replaced. -/
theorem lineWrite_arch_other {s t : State} (h : s.Coherent) (ht : t.Coherent) {a : Word} {i : Nat} (ho : Holds s a i)
    {f : Line → Line} (hc : t.cache = s.cache.modify i f) (htag : (f (s.cache.get i)).tag = a) {b : Word}
    (hb : wordAddr b ≠ a) (hmem : t.memByte b = s.memByte b) : t.archByte b = s.archByte b := by
  have hz : t.cache.size = s.cache.size := by simp [hc]
  have key : ∀ j u, t.Cached b j u ↔ s.Cached b j u := by
    intro j u
    by_cases hj : j < s.cache.size
    · have hg : t.cache.get j = if j = i then f (s.cache.get j) else s.cache.get j := by rw [hc, Cache.get_modify hj]
      by_cases hji : j = i
      · subst hji
        simp only [if_true] at hg
        simp only [State.Cached, hg, htag, ho.tag, hj, hz, hb.symm, false_and, and_false]
      · rw [if_neg hji] at hg
        simp only [State.Cached, hg, hz]
    · constructor <;> intro hk
      · exact absurd (hz ▸ hk.1) hj
      · exact absurd hk.1 hj
  by_cases he : ∃ j u, s.Cached b j u
  · obtain ⟨j, u, hu⟩ := he
    rw [State.archByte_cached h.uniqueTags hu]
    exact State.archByte_cached ht.uniqueTags ((key j u).2 hu)
  · have he' : ∀ j u, ¬ s.Cached b j u := fun j u hu => he ⟨j, u, hu⟩
    rw [State.archByte_uncached he', State.archByte_uncached (fun j u hu => he' j u ((key j u).1 hu)), hmem]

/-- An architectural byte of the word a line holds: the line's byte if it is valid, else the byte of main memory. -/
theorem Holds.archByte {s : State} (h : s.Coherent) {a : Word} {i : Nat} (ho : Holds s a i) {b : Word}
    (hb : wordAddr b = a) : s.archByte b =
      if isOdd b then (if (s.cache.get i).vhi then (s.cache.get i).hi else s.memByte b)
      else (if (s.cache.get i).vlo then (s.cache.get i).lo else s.memByte b) := by
  by_cases hv : (if isOdd b then (s.cache.get i).vhi else (s.cache.get i).vlo) = true
  · refine State.archByte_cached h.uniqueTags (i := i) ⟨ho.lt, by rw [ho.tag, hb], ?_⟩
    cases hob : isOdd b <;> simp_all
  · rw [State.archByte_uncached]
    · cases hob : isOdd b <;> simp_all
    · intro j u hu
      have hji : j = i := by
        by_contra hji
        exact ho.only j hu.1 hji hu.valid (by rw [hu.2.1, hb])
      subst hji
      have := hu.2.2
      cases hob : isOdd b <;> simp_all

@[simp] theorem writeThrough_cache (s : State) (w : Width) (a v : Word) : (s.writeThrough w a v).cache = s.cache := by
  unfold State.writeThrough; split <;> simp

theorem writeThrough_diags (s : State) (w : Width) (a v : Word) : (s.writeThrough w a v).diags = s.diags := by
  unfold State.writeThrough
  split
  · rfl
  · cases w
    · exact busWrite_diags_even _ _ _ (wordAddr_even a)
    · rfl

/-- R73: main memory after the write-through of a store: under write-through the stored bytes, else nothing new. -/
theorem writeThrough_memByte {s : State} (h : s.mem.wf = true) (w : Width) (a v b : Word) :
    (s.writeThrough w a v).mem.wf = true ∧ (s.writeThrough w a v).memByte b =
      if s.writePolicy = .wt ∧ storedAt w a b = true then storedByte w b v else s.memByte b := by
  cases hw : s.writePolicy with
  | wb => simp [State.writeThrough, hw, h]
  | wt =>
    have e : s.writeThrough w a v = s.busWrite w (alignAddr w a) v := by simp [State.writeThrough, hw]
    have hm := busWrite_mem s w (alignAddr w a) v
    rw [e]
    cases w with
    | byte =>
      simp only [alignAddr] at hm ⊢
      refine ⟨by rw [hm]; exact State.setMemByte_wf h a _, ?_⟩
      have : (s.busWrite .byte a v).memByte b = (s.setMemByte a (lowByte v)).memByte b := by
        simp only [State.memByte, hm]
      rw [this, State.setMemByte_memByte h]
      simp [storedAt, storedByte]
    | word =>
      simp only [alignAddr, wordAddr_wordAddr] at hm ⊢
      have h1 := State.setMemByte_wf h (wordAddr a) (lowByte v)
      refine ⟨by rw [hm]; exact State.setMemByte_wf h1 _ _, ?_⟩
      have : (s.busWrite .word (wordAddr a) v).memByte b =
          ((s.setMemByte (wordAddr a) (lowByte v)).setMemByte (wordAddr a + 1#16) (highByte v)).memByte b := by
        simp only [State.memByte, hm]
      rw [this, State.setMemByte_memByte h1, State.setMemByte_memByte h]
      simp only [storedAt, storedByte, true_and, beq_iff_eq]
      cases hob : isOdd b
      · have h2 : b ≠ wordAddr a + 1#16 := ne_of_parity hob (even_succ_odd (wordAddr_even a))
        simp [h2, wordAddr_of_even hob]
      · have h2 : b ≠ wordAddr a := (ne_of_parity (wordAddr_even a) hob).symm
        have h3 : b = wordAddr a + 1#16 ↔ wordAddr b = wordAddr a := by
          constructor
          · intro e; rw [e, wordAddr_succ (wordAddr_even a)]
          · intro e; rw [← e, wordAddr_add_one_of_odd hob]
        simp [h2, h3]

/-- The word of a stored byte. -/
theorem storedAt_wordAddr {w : Width} {a b : Word} (h : storedAt w a b = true) : wordAddr b = wordAddr a := by
  cases w <;> simp_all [storedAt]

/-- R71, R80: `MemWrite` in a coherent state: the stored bytes take the stored value, every other architectural byte
stays, coherence stays, and the one event it can report is the misaligned word. -/
theorem memWrite_spec {s : State} (h : s.Coherent) (w : Width) (a v : Word) :
    (s.memWrite w a v).Coherent ∧
    (∀ b, (s.memWrite w a v).archByte b = if storedAt w a b then storedByte w b v else s.archByte b) ∧
    (s.memWrite w a v).diags = (s.checkAlign w a).diags := by
  have h0 := checkAlign_coherent h w a
  obtain ⟨h1, ho⟩ := locate_spec h0 (wordAddr_even a)
  simp only [checkAlign_lineFor] at ho
  have harch : ∀ b, ((s.checkAlign w a).locate (wordAddr a)).archByte b = s.archByte b := fun b =>
    (h1.arch b).trans (State.archByte_congr (by simp) (by simp) b)
  have hd1 := h1.diags
  have hpol : ((s.checkAlign w a).locate (wordAddr a)).writePolicy = s.writePolicy :=
    h1.frame.writePolicy.trans (checkAlign_frame ..).writePolicy
  have hcoh := h1.coherent
  have hdef : s.memWrite w a v = ((((s.checkAlign w a).locate (wordAddr a)).modifyLine (s.lineFor (wordAddr a))
      (fun l => l.store w a v (dirtyOnWrite s.writePolicy))).writeThrough w a v).touch (s.lineFor (wordAddr a)) := rfl
  generalize (s.checkAlign w a).locate (wordAddr a) = u at hdef hcoh harch ho hd1 hpol
  generalize s.lineFor (wordAddr a) = i at hdef ho
  generalize hs1 : u.modifyLine i (fun l => l.store w a v (dirtyOnWrite s.writePolicy)) = s1 at hdef
  have hs1c : s1.cache = u.cache.modify i (fun l => l.store w a v (dirtyOnWrite s.writePolicy)) := by rw [← hs1]; rfl
  have hs1m : s1.mem = u.mem := by rw [← hs1]; rfl
  have hs1p : s1.writePolicy = u.writePolicy := by rw [← hs1]; rfl
  have hs1o : s1.organisation = u.organisation := by rw [← hs1]; rfl
  have hs1d : s1.diags = u.diags := by rw [← hs1]; rfl
  have hwf1 : s1.mem.wf = true := by rw [hs1m]; exact hcoh.memory
  generalize hs2 : s1.writeThrough w a v = s2 at hdef
  have hwf2 : s2.mem.wf = true := by rw [← hs2]; exact (writeThrough_memByte hwf1 w a v 0).1
  have hmem2 : ∀ b, s2.memByte b =
      if s.writePolicy = .wt ∧ storedAt w a b = true then storedByte w b v else u.memByte b := by
    intro b
    rw [← hs2, (writeThrough_memByte hwf1 w a v b).2, hs1p, hpol]
    simp only [State.memByte, hs1m]
  have hs2c : s2.cache = u.cache.modify i (fun l => l.store w a v (dirtyOnWrite s.writePolicy)) := by
    rw [← hs2, writeThrough_cache, hs1c]
  have hs2p : s2.writePolicy = u.writePolicy := by rw [← hs2, (writeThrough_frame ..).writePolicy, hs1p]
  have hs2o : s2.organisation = u.organisation := by rw [← hs2, (writeThrough_frame ..).organisation, hs1o]
  have hi := ho.lt
  have ok := hcoh.lineOk hi
  have htag : ((u.cache.get i).store w a v (dirtyOnWrite s.writePolicy)).tag = wordAddr a := by
    rw [← ho.tag]; cases w <;> simp only [Line.store] ; split <;> rfl
  have hout : ∀ b, wordAddr b ≠ wordAddr a → s2.memByte b = u.memByte b := by
    intro b hb
    rw [hmem2 b, if_neg]
    exact fun hh => hb (storedAt_wordAddr hh.2)
  have hsz : s2.cache.size = u.cache.size := by simp [hs2c]
  have hmax : s2.cache.maxAge = u.cache.maxAge := by simp [hs2c]
  have hok : LineOk s2 i ((u.cache.get i).store w a v (dirtyOnWrite s.writePolicy)) := by
    have thr : s.writePolicy = .wt → (u.cache.get i).dlo = false ∧ (u.cache.get i).dhi = false :=
      fun e => ok.through (hpol.trans e)
    have cl : (u.cache.get i).vlo = true → (u.cache.get i).dlo = false →
        (u.cache.get i).lo = u.memByte (wordAddr a) := by
      intro v1 v2; rw [← ho.tag]; exact ok.cleanLo v1 v2
    have ch : (u.cache.get i).vhi = true → (u.cache.get i).dhi = false →
        (u.cache.get i).hi = u.memByte (wordAddr a + 1#16) := by
      intro v1 v2; rw [← ho.tag]; exact ok.cleanHi v1 v2
    have hd : dirtyOnWrite s.writePolicy = false → s.writePolicy = .wt := by
      cases s.writePolicy <;> simp [dirtyOnWrite]
    have hd' : s.writePolicy = .wt → dirtyOnWrite s.writePolicy = false := by intro e; rw [e]; rfl
    have sa : ∀ b, wordAddr b = wordAddr a → storedAt .word a b = true := fun b hb => by simp [storedAt, hb]
    have hev := wordAddr_even a
    have hod := even_succ_odd hev
    have hws := wordAddr_succ hev
    have age' : ∀ l : Line, l.age = (u.cache.get i).age → l.age ≤ s2.cache.maxAge := by
      intro l e; rw [e, hmax]; exact ok.age
    have dir' : s2.organisation = .direct → (wordAddr a).toNat % s2.cache.size = i := by
      intro e; rw [hsz]; exact ho.direct (hs2o ▸ e)
    refine ⟨by rw [htag]; exact hev, ?_, ?_, ?_, ?_, ?_, age' _ ?_, fun e _ => by rw [htag]; exact dir' e⟩
    · cases w
      · simp [Line.store]
      · simp only [Line.store]; split
        · exact ok.dirtyLo
        · simp
    · cases w
      · simp [Line.store]
      · simp only [Line.store]; split
        · simp
        · exact ok.dirtyHi
    · intro e
      rw [hs2p, hpol] at e
      cases w
      · simp [Line.store, hd' e]
      · simp only [Line.store]; split <;> simp [hd' e, (thr e).1, (thr e).2]
    · rw [htag]
      cases w
      · simp only [Line.store]
        intro _ e
        rw [hmem2, if_pos ⟨hd e, sa _ (wordAddr_wordAddr a)⟩]
        simp [storedByte]
      · simp only [Line.store]
        cases hoa : isOdd a
        · simp only [Bool.false_eq_true, if_false]
          intro _ e
          rw [hmem2, if_pos ⟨hd e, by simp [storedAt, wordAddr_of_even hoa]⟩]
          rfl
        · simp only [if_true]
          intro v1 v2
          rw [hmem2, if_neg]
          · exact cl v1 v2
          · rintro ⟨-, e⟩
            simp only [storedAt, beq_iff_eq] at e
            exact ne_of_parity hev hoa e
    · rw [htag]
      cases w
      · simp only [Line.store]
        intro _ e
        rw [hmem2, if_pos ⟨hd e, sa _ hws⟩]
        simp [storedByte, hod]
      · simp only [Line.store]
        cases hoa : isOdd a
        · simp only [Bool.false_eq_true, if_false]
          intro v1 v2
          rw [hmem2, if_neg]
          · exact ch v1 v2
          · rintro ⟨-, e⟩
            simp only [storedAt, beq_iff_eq] at e
            exact ne_of_parity hoa hod e.symm
        · simp only [if_true]
          intro _ e
          rw [hmem2, if_pos ⟨hd e, by simp [storedAt, wordAddr_add_one_of_odd hoa]⟩]
          rfl
    · cases w
      · rfl
      · simp only [Line.store]; split <;> rfl
  have hc2 : s2.Coherent := lineWrite_coherent hcoh ho hs2c hs2p hs2o hwf2 hout hok htag
  have ho2 : Holds s2 (wordAddr a) i := by
    refine ⟨by rw [hsz]; exact hi, ?_, ?_, ?_⟩
    · rw [hs2c, Cache.get_modify hi, if_pos rfl]; exact htag
    · intro j hj hji
      rw [hsz] at hj
      rw [hs2c, Cache.get_modify hj, if_neg hji]
      exact ho.only j hj hji
    · intro e; rw [hsz]; exact ho.direct (hs2o ▸ e)
  have hline : s2.cache.get i = (u.cache.get i).store w a v (dirtyOnWrite s.writePolicy) := by
    rw [hs2c, Cache.get_modify hi, if_pos rfl]
  have ht := touch_spec hc2 i
  rw [hdef]
  refine ⟨ht.coherent, fun b => (ht.arch b).trans ?_, ?_⟩
  · by_cases hb : wordAddr b = wordAddr a
    · have hu := ho.archByte hcoh hb
      rw [ho2.archByte hc2 hb, ← harch b, hu, hline, hmem2 b]
      cases w
      · simp only [storedAt, storedByte, hb, Line.store, beq_self_eq_true, if_true]
      · simp only [storedAt, storedByte, Line.store, beq_iff_eq]
        by_cases hba : b = a
        · subst hba
          cases hob : isOdd b <;> simp
        · have hpar : isOdd b ≠ isOdd a := by
            intro e
            apply hba
            cases hob : isOdd b
            · rw [← wordAddr_of_even hob, hb, wordAddr_of_even (e ▸ hob)]
            · rw [← wordAddr_add_one_of_odd hob, hb, wordAddr_add_one_of_odd (e ▸ hob)]
          cases hob : isOdd b <;> cases hoa : isOdd a <;> simp_all
    · have hns : storedAt w a b = false := by
        cases hsa : storedAt w a b
        · rfl
        · exact absurd (storedAt_wordAddr hsa) hb
      rw [lineWrite_arch_other hcoh hc2 ho hs2c htag hb (hout b hb), harch b, hns]
      simp
  · rw [ht.diags, ← hs2, writeThrough_diags, hs1d, hd1]

end Sys2Proof.Machine
end

