-- ==== Sys2Proof/Laws/Step.lean ====
section
/-! SUPPORT. What the fetch does (spec 30_encoding.md R101) and what one step can do (60_exceptions.md R251), said once. -/

namespace Sys2Proof.Machine

open Sys2Proof

theorem setPsw_coherent {s : State} (h : s.Coherent) (p : PSW) : (s.setPsw p).Coherent := h.congr rfl rfl rfl rfl

theorem setX_coherent {s : State} (h : s.Coherent) (r : Reg) (v : Word) : (s.setX r v).Coherent :=
  h.congr rfl rfl rfl rfl

theorem tick_coherent {s : State} (h : s.Coherent) (n : Nat) : (s.tick n).Coherent := h.congr rfl rfl rfl rfl

theorem report_coherent {s : State} (h : s.Coherent) (d : Diag) (v : Word) : (s.report d v).Coherent :=
  h.congr rfl rfl rfl rfl

@[simp] theorem setPsw_archByte (s : State) (p : PSW) (b : Word) : (s.setPsw p).archByte b = s.archByte b := rfl

@[simp] theorem setX_archByte (s : State) (r : Reg) (v b : Word) : (s.setX r v).archByte b = s.archByte b := rfl

@[simp] theorem tick_archByte (s : State) (n : Nat) (b : Word) : (s.tick n).archByte b = s.archByte b := rfl

@[simp] theorem report_archByte (s : State) (d : Diag) (v b : Word) : (s.report d v).archByte b = s.archByte b := rfl

/-- What a fetch leaves alone, in every state: the status word, the configuration, STOPPED and the number of lines. -/
theorem fetch_frame (s : State) :
    s.fetch.psw = s.psw ∧ s.fetch.writePolicy = s.writePolicy ∧ s.fetch.organisation = s.organisation ∧
    s.fetch.stopped = s.stopped ∧ s.fetch.cache.size = s.cache.size ∧ s.clk ≤ s.fetch.clk ∧
    s.fetch.pc = s.pc + 2#16 ∧ ∀ q, q ≠ .r7 → s.fetch.x q = s.x q := by
  have h := memRead_frame s .word s.pc
  refine ⟨h.psw, h.writePolicy, h.organisation, h.stopped, h.size, Nat.le_trans h.clk (Nat.le_add_right _ _), ?_, ?_⟩
  · show (s.memRead .word s.pc).2.pc + 2#16 = _
    rw [State.pc, h.x]; rfl
  · intro q hq
    show ((((s.memRead .word s.pc).2.setIr (s.memRead .word s.pc).1).setX .r7
      ((s.memRead .word s.pc).2.pc + 2#16)).tick Config.clkFetch).x q = _
    rw [State.tick_x, State.setX_x_other _ _ hq, State.setIr_x, h.x]

/-- R101, R25, R83: the fetch in a coherent state. -/
theorem fetch_spec {s : State} (h : s.Coherent) :
    s.fetch.ir = s.archWord s.pc ∧ s.fetch.Coherent ∧ (∀ b, s.fetch.archByte b = s.archByte b) ∧
    s.fetch.diags = (s.checkAlign .word s.pc).diags := by
  obtain ⟨h1, h2, h3, h4⟩ := memRead_spec h .word s.pc
  exact ⟨h1, h2.congr rfl rfl rfl rfl, h3, h4⟩

/-- R251: what one step can do. -/
theorem step_cases {s t : State} (h : step s = .next t) :
    (s.stopped = true ∧ t = s) ∨
    (s.stopped = false ∧ ∃ e, decode s.fetch.ir = .error e ∧
      t = (s.fetch.report .undefinedOpcode s.fetch.ir).tick Config.clkAbandonedOpcode) ∨
    (s.stopped = false ∧ ∃ i, decode s.fetch.ir = .ok i ∧ exec i (s.fetch.tick Config.clkDecode) = .next t) := by
  unfold step at h
  cases hs : s.stopped
  · simp only [hs, Bool.false_eq_true, if_false] at h
    cases hd : decode s.fetch.ir with
    | error e =>
      simp only [hd, abandon, Host.Outcome.next.injEq] at h
      exact Or.inr (Or.inl ⟨rfl, e, rfl, h.symm⟩)
    | ok i =>
      simp only [hd] at h
      exact Or.inr (Or.inr ⟨rfl, i, rfl, h⟩)
  · simp only [hs, if_true, Host.Outcome.next.injEq] at h
    exact Or.inl ⟨rfl, h.symm⟩

end Sys2Proof.Machine
end

