-- ==== Sys2Proof/Tests/Slice0.lean ====
section
/-! SUPPORT. The model's own tests, each a named theorem. Expected results are the spec's: the examples of the rules and
the vectors of 95_test_vectors.md. Last come the witnesses: for each statement with hypotheses, concrete data that meets
all of them. -/

open Sys2Proof Sys2Proof.Machine Sys2Proof.Claim

namespace Sys2Proof.Tests

/-! ## Well-formedness -/

/-- R141: an LD with mode bits 011 is refused, decoded or not. -/
theorem test_ld_mode_011_ill_formed : (Instr.ld ⟨false, true, true⟩ .word .r1 .r0).wellFormed = false := by decide

/-- R141: mode bits 100. -/
theorem test_ld_mode_100_ill_formed : (Instr.ld ⟨true, false, false⟩ .byte .r1 .r0).wellFormed = false := by decide

/-- R141: mode bits 111. -/
theorem test_st_mode_111_ill_formed : (Instr.st ⟨true, true, true⟩ .word .r0 .r1).wellFormed = false := by decide

/-- R141: mode bits 011 of a store. -/
theorem test_st_mode_011_ill_formed : (Instr.st ⟨false, true, true⟩ .word .r0 .r1).wellFormed = false := by decide

/-- R141: the five legal modes. -/
theorem test_legal_modes_well_formed :
    [(⟨false, false, false⟩ : ModeBits), ⟨false, false, true⟩, ⟨false, true, false⟩, ⟨true, false, true⟩,
      ⟨true, true, false⟩].all (fun m =>
        (Instr.ld m .word .r1 .r0).wellFormed && (Instr.st m .byte .r1 .r0).wellFormed) = true := by decide

/-- R112: the ends of the undefined ranges are refused, each by its name. -/
theorem test_undefined_range_ends :
    [0x4CC0, 0x4CFF, 0x4D10, 0x4D57, 0x4D28, 0x4D7F, 0x4D58, 0x4D60, 0x4D80, 0x4DFF, 0x4E00, 0x4FFF, 0x5000,
      0x57FF].map decode =
    [.error .swapByte, .error .swapByte, .error .oneOperandSub, .error .oneOperandSub, .error .oneOperandSub,
      .error .oneOperandSub, .error .swpbByte, .error .sxtByte, .error .oneOperandBit7, .error .oneOperandBit7,
      .error .registerFunction, .error .registerFunction, .error .indexedBit11, .error .indexedBit11] := by decide

/-- R100: fewer than two bytes are no word. -/
theorem test_decode_short : (decodeBytes [] = .error .truncated) ∧ decodeBytes [0x08] = .error .truncated := by decide

/-- The table's numbering of bits: the low byte is stored first (R51). -/
theorem test_decode_table_word : decodeTableWord 16 0x4D1A = some (.swpb .r2) := by decide

/-! ## The helpers of the step tests -/

/-- A word in main memory. -/
def putWord (s : State) (p : Word × Word) : State :=
  (s.setMemByte p.1 (lowByte p.2)).setMemByte (p.1 + 1#16) (highByte p.2)

/-- The reset state with two cache lines, the program counter and C, Z, N, V set, a word at the word address of the
program counter, and registers and words of main memory as listed. -/
def start (pc : Word) (c z n v : Bool) (w : Word) (regs : List (Reg × Word)) (mem : List (Word × Word)) : State :=
  let s := (mem ++ [(wordAddr pc, w)]).foldl putWord { State.reset with cache := Cache.reset 1 }
  ((regs.foldl (fun s p => s.setX p.1 p.2) s).setX .r7 pc).setPsw { PSW.reset with c := c, z := z, n := n, v := v }

/-- What a step from `s` shows: the registers, C, Z, N, V and the diagnostics. -/
def seen (s : State) : Option (List Word × (Bool × Bool × Bool × Bool) × List Event) :=
  match step s with
  | .next t =>
    some ([.r0, .r1, .r2, .r3, .r4, .r5, .r6, .r7].map t.x, (t.psw.c, t.psw.z, t.psw.n, t.psw.v), t.diags)
  | .fault _ => none
  | .refused _ => none

/-- The bytes a program sees after a step from `s`. -/
def bytes (s : State) (at_ : List Word) : List Byte :=
  match step s with
  | .next t => at_.map t.archByte
  | .fault _ => []
  | .refused _ => []

/-! ## Decoding: one word for every instruction, bit by bit from the spec (95_test_vectors.md section 2) -/

/-- 0x007F `BL 0x1100`. -/
theorem test_decode_bl : decode 0b0000000001111111 = .ok (.bl 0x7F) := by decide

/-- 0x2003 `BEQ 0x2008`. -/
theorem test_decode_beq : decode 0b0010000000000011 = .ok (.beq 3) := by decide

/-- 0x27FD `BNE 0x1004`. -/
theorem test_decode_bne : decode 0b0010011111111101 = .ok (.bne 0x3FD) := by decide

/-- 0x2801 `BC 0x0104`. -/
theorem test_decode_bc : decode 0b0010100000000001 = .ok (.bc 1) := by decide

/-- 0x2C01 `BNC 0x0104`. -/
theorem test_decode_bnc : decode 0b0010110000000001 = .ok (.bnc 1) := by decide

/-- 0x33FF `BN 0x0100`. -/
theorem test_decode_bn : decode 0b0011001111111111 = .ok (.bn 0x3FF) := by decide

/-- 0x3401 `BGE 0x0104`. -/
theorem test_decode_bge : decode 0b0011010000000001 = .ok (.bge 1) := by decide

/-- 0x3801 `BLT 0x0104`. -/
theorem test_decode_blt : decode 0b0011100000000001 = .ok (.blt 1) := by decide

/-- 0x3E00 `BRA (OFF10 = 0x200, -1024)`. -/
theorem test_decode_bra : decode 0b0011111000000000 = .ok (.bra 0x200) := by decide

/-- 0x40C8 `ADD.B #1,R0`. -/
theorem test_decode_add : decode 0b0100000011001000 = .ok (.add (.const .k1) .byte .r0) := by decide

/-- 0x4181 `ADDC #0,R1`. -/
theorem test_decode_addc : decode 0b0100000110000001 = .ok (.addc (.const .k0) .word .r1) := by decide

/-- 0x4248 `SUB.B R1,R0`. -/
theorem test_decode_sub : decode 0b0100001001001000 = .ok (.sub (.reg .r1) .byte .r0) := by decide

/-- 0x4308 `SUBC R1,R0`. -/
theorem test_decode_subc : decode 0b0100001100001000 = .ok (.subc (.reg .r1) .word .r0) := by decide

/-- 0x4448 `DADD.B R1,R0`. -/
theorem test_decode_dadd : decode 0b0100010001001000 = .ok (.dadd (.reg .r1) .byte .r0) := by decide

/-- 0x459A `CMP #4,R2`. -/
theorem test_decode_cmp : decode 0b0100010110011010 = .ok (.cmp (.const .k3) .word .r2) := by decide

/-- 0x46B8 `XOR #-1,R0`. -/
theorem test_decode_xor : decode 0b0100011010111000 = .ok (.xor (.const .k7) .word .r0) := by decide

/-- 0x4748 `AND.B R1,R0`. -/
theorem test_decode_and : decode 0b0100011101001000 = .ok (.and (.reg .r1) .byte .r0) := by decide

/-- 0x48BB `OR #-1,R3`. -/
theorem test_decode_or : decode 0b0100100010111011 = .ok (.or (.const .k7) .word .r3) := by decide

/-- 0x49E0 `BIT.B #8,R0`. -/
theorem test_decode_bit : decode 0b0100100111100000 = .ok (.bit (.const .k4) .byte .r0) := by decide

/-- 0x4AC8 `BIC.B #1,R0`. -/
theorem test_decode_bic : decode 0b0100101011001000 = .ok (.bic (.const .k1) .byte .r0) := by decide

/-- 0x4B48 `BIS.B R1,R0`. -/
theorem test_decode_bis : decode 0b0100101101001000 = .ok (.bis (.reg .r1) .byte .r0) := by decide

/-- 0x4C48 `MOV.B R1,R0`. -/
theorem test_decode_mov : decode 0b0100110001001000 = .ok (.mov .byte .r1 .r0) := by decide

/-- 0x4C88 `SWAP R1,R0`. -/
theorem test_decode_swap : decode 0b0100110010001000 = .ok (.swap .r1 .r0) := by decide

/-- 0x4D40 `SRA.B R0`. -/
theorem test_decode_sra : decode 0b0100110101000000 = .ok (.sra .byte .r0) := by decide

/-- 0x4D48 `RRC.B R0`. -/
theorem test_decode_rrc : decode 0b0100110101001000 = .ok (.rrc .byte .r0) := by decide

/-- 0x4D1A `SWPB R2`. -/
theorem test_decode_swpb : decode 0b0100110100011010 = .ok (.swpb .r2) := by decide

/-- 0x4D21 `SXT R1`. -/
theorem test_decode_sxt : decode 0b0100110100100001 = .ok (.sxt .r1) := by decide

/-- 0x5B48 `LD.B -R1,R0`. -/
theorem test_decode_ld : decode 0b0101101101001000 = .ok (.ld ⟨true, true, false⟩ .byte .r1 .r0) := by decide

/-- 0x5CC1 `ST.B R0,R1+`. -/
theorem test_decode_st : decode 0b0101110011000001 = .ok (.st ⟨false, false, true⟩ .byte .r0 .r1) := by decide

/-- 0x61A0 `MOVL #0x34,R0`. -/
theorem test_decode_movl : decode 0b0110000110100000 = .ok (.movl 0x34 .r0) := by decide

/-- 0x6828 `MOVLZ #5,R0`. -/
theorem test_decode_movlz : decode 0b0110100000101000 = .ok (.movlz 5 .r0) := by decide

/-- 0x77F3 `MOVLS #0xFE,R3`. -/
theorem test_decode_movls : decode 0b0111011111110011 = .ok (.movls 0xFE .r3) := by decide

/-- 0x7890 `MOVH #0x12,R0`. -/
theorem test_decode_movh : decode 0b0111100010010000 = .ok (.movh 0x12 .r0) := by decide

/-- 0xBF08 `LDR R1,#-2,R0`. -/
theorem test_decode_ldr : decode 0b1011111100001000 = .ok (.ldr 0x7E .word .r1 .r0) := by decide

/-- 0xC1C4 `STR.B R0,R4,#3`. -/
theorem test_decode_str : decode 0b1100000111000100 = .ok (.str 3 .byte .r0 .r4) := by decide

/-! ## One step of every instruction (rows of 95_test_vectors.md sections 2.1 to 2.6) -/

/-- Section 2.5, `BL (OFF13 = 0x1000, -8192)`, PC=4000. -/
theorem test_step_bl : seen (start 0x4000 false false false false 0x1000 [] []) =
    some ([0x0, 0x0, 0x0, 0x0, 0x0, 0x4002, 0x0, 0x2002], (false, false, false, false), []) := by
  decide

/-- Section 2.5, `BEQ 0x2008`, PC=2000, Z=1. -/
theorem test_step_beq : seen (start 0x2000 false true false false 0x2003 [] []) =
    some ([0x0, 0x0, 0x0, 0x0, 0x0, 0x0, 0x0, 0x2008], (false, true, false, false), []) := by
  decide

/-- Section 2.5, `BNE 0x1004`, PC=1008, Z=1. -/
theorem test_step_bne : seen (start 0x1008 false true false false 0x27FD [] []) =
    some ([0x0, 0x0, 0x0, 0x0, 0x0, 0x0, 0x0, 0x100A], (false, true, false, false), []) := by
  decide

/-- Section 2.5, `BC 0x0104`, C=1. -/
theorem test_step_bc : seen (start 0x0100 true false false false 0x2801 [] []) =
    some ([0x0, 0x0, 0x0, 0x0, 0x0, 0x0, 0x0, 0x0104], (true, false, false, false), []) := by
  decide

/-- Section 2.5, `BNC 0x0104`, C=1. -/
theorem test_step_bnc : seen (start 0x0100 true false false false 0x2C01 [] []) =
    some ([0x0, 0x0, 0x0, 0x0, 0x0, 0x0, 0x0, 0x0102], (true, false, false, false), []) := by
  decide

/-- Section 2.5, `BN 0x0100`, N=1. -/
theorem test_step_bn : seen (start 0x0100 false false true false 0x33FF [] []) =
    some ([0x0, 0x0, 0x0, 0x0, 0x0, 0x0, 0x0, 0x0100], (false, false, true, false), []) := by
  decide

/-- Section 2.5, `BGE 0x0104`, V=1. -/
theorem test_step_bge : seen (start 0x0100 false false false true 0x3401 [] []) =
    some ([0x0, 0x0, 0x0, 0x0, 0x0, 0x0, 0x0, 0x0102], (false, false, false, true), []) := by
  decide

/-- Section 2.5, `BLT 0x0104`, N=1, V=1. -/
theorem test_step_blt : seen (start 0x0100 false false true true 0x3801 [] []) =
    some ([0x0, 0x0, 0x0, 0x0, 0x0, 0x0, 0x0, 0x0102], (false, false, true, true), []) := by
  decide

/-- Section 2.5, `BRA (OFF10 = 0x200, -1024)`, PC=1000. -/
theorem test_step_bra : seen (start 0x1000 false false false false 0x3E00 [] []) =
    some ([0x0, 0x0, 0x0, 0x0, 0x0, 0x0, 0x0, 0x0C02], (false, false, false, false), []) := by
  decide

/-- Section 2.1, `ADD R1,R0`, x0=7FFF, x1=0001. -/
theorem test_step_add : seen (start 0x0100 false false false false 0x4008 [(.r0, 0x7FFF), (.r1, 0x0001)] []) =
    some ([0x8000, 0x0001, 0x0, 0x0, 0x0, 0x0, 0x0, 0x0102], (false, false, true, true), []) := by
  decide

/-- Section 2.1, `ADDC R1,R0`, x0=FFFF, x1=0000, C=1. -/
theorem test_step_addc : seen (start 0x0100 true false false false 0x4108 [(.r0, 0xFFFF), (.r1, 0x0000)] []) =
    some ([0x0000, 0x0000, 0x0, 0x0, 0x0, 0x0, 0x0, 0x0102], (true, true, false, false), []) := by
  decide

/-- Section 2.1, `SUB #1,R0`, x0=8000. -/
theorem test_step_sub : seen (start 0x0100 false false false false 0x4288 [(.r0, 0x8000)] []) =
    some ([0x7FFF, 0x0, 0x0, 0x0, 0x0, 0x0, 0x0, 0x0102], (true, false, false, true), []) := by
  decide

/-- Section 2.1, `SUBC R1,R0`, x0=0000, x1=0000. -/
theorem test_step_subc : seen (start 0x0100 false false false false 0x4308 [(.r0, 0x0000), (.r1, 0x0000)] []) =
    some ([0xFFFF, 0x0000, 0x0, 0x0, 0x0, 0x0, 0x0, 0x0102], (false, false, true, false), []) := by
  decide

/-- Section 2.1, `DADD R1,R0`, x0=FFFF, x1=FFFF, C=1. -/
theorem test_step_dadd : seen (start 0x0100 true false false false 0x4408 [(.r0, 0xFFFF), (.r1, 0xFFFF)] []) =
    some ([0x5555, 0xFFFF, 0x0, 0x0, 0x0, 0x0, 0x0, 0x0102], (true, false, false, false), []) := by
  decide

/-- Section 2.1, `CMP R1,R0`, x0=7FFF, x1=FFFF. -/
theorem test_step_cmp : seen (start 0x0100 false false false false 0x4508 [(.r0, 0x7FFF), (.r1, 0xFFFF)] []) =
    some ([0x7FFF, 0xFFFF, 0x0, 0x0, 0x0, 0x0, 0x0, 0x0102], (false, false, true, true), []) := by
  decide

/-- Section 2.1, `XOR R1,R0`, x0=0F0F, x1=00FF, C=1, V=1. -/
theorem test_step_xor : seen (start 0x0100 true false false true 0x4608 [(.r0, 0x0F0F), (.r1, 0x00FF)] []) =
    some ([0x0FF0, 0x00FF, 0x0, 0x0, 0x0, 0x0, 0x0, 0x0102], (true, false, false, true), []) := by
  decide

/-- Section 2.1, `AND.B R1,R0`, x0=12F0, x1=FF3C. -/
theorem test_step_and : seen (start 0x0100 false false false false 0x4748 [(.r0, 0x12F0), (.r1, 0xFF3C)] []) =
    some ([0x1230, 0xFF3C, 0x0, 0x0, 0x0, 0x0, 0x0, 0x0102], (false, false, false, false), []) := by
  decide

/-- Section 2.1, `OR #-1,R3`, all zero. -/
theorem test_step_or : seen (start 0x0100 false false false false 0x48BB [] []) =
    some ([0x0, 0x0, 0x0, 0xFFFF, 0x0, 0x0, 0x0, 0x0102], (false, false, true, false), []) := by
  decide

/-- Section 2.1, `BIT.B #8,R0`, x0=FFFF. -/
theorem test_step_bit : seen (start 0x0100 false false false false 0x49E0 [(.r0, 0xFFFF)] []) =
    some ([0xFFFF, 0x0, 0x0, 0x0, 0x0, 0x0, 0x0, 0x0102], (false, true, false, false),
      [⟨.bitIndexRange, 0x8⟩]) := by
  decide

/-- Section 2.1, `BIC.B #1,R0`, x0=FF02. -/
theorem test_step_bic : seen (start 0x0100 false false false false 0x4AC8 [(.r0, 0xFF02)] []) =
    some ([0xFF00, 0x0, 0x0, 0x0, 0x0, 0x0, 0x0, 0x0102], (false, true, false, false), []) := by
  decide

/-- Section 2.1, `BIS.B R1,R0`, x0=AB00, x1=0007. -/
theorem test_step_bis : seen (start 0x0100 false false false false 0x4B48 [(.r0, 0xAB00), (.r1, 0x0007)] []) =
    some ([0xAB80, 0x0007, 0x0, 0x0, 0x0, 0x0, 0x0, 0x0102], (false, false, true, false), []) := by
  decide

/-- Section 2.2, `MOV.B R1,R0`, x0=1234, x1=CAFE. -/
theorem test_step_mov : seen (start 0x0100 false false false false 0x4C48 [(.r0, 0x1234), (.r1, 0xCAFE)] []) =
    some ([0x12FE, 0xCAFE, 0x0, 0x0, 0x0, 0x0, 0x0, 0x0102], (false, false, false, false), []) := by
  decide

/-- Section 2.2, `SWAP R1,R0`, x0=1111, x1=2222. -/
theorem test_step_swap : seen (start 0x0100 false false false false 0x4C88 [(.r0, 0x1111), (.r1, 0x2222)] []) =
    some ([0x2222, 0x1111, 0x0, 0x0, 0x0, 0x0, 0x0, 0x0102], (false, false, false, false), []) := by
  decide

/-- Section 2.2, `SRA.B R0`, x0=0181. -/
theorem test_step_sra : seen (start 0x0100 false false false false 0x4D40 [(.r0, 0x0181)] []) =
    some ([0x01C0, 0x0, 0x0, 0x0, 0x0, 0x0, 0x0, 0x0102], (true, false, true, false), []) := by
  decide

/-- Section 2.2, `RRC.B R0`, x0=0102, C=1. -/
theorem test_step_rrc : seen (start 0x0100 true false false false 0x4D48 [(.r0, 0x0102)] []) =
    some ([0x0181, 0x0, 0x0, 0x0, 0x0, 0x0, 0x0, 0x0102], (false, false, true, false), []) := by
  decide

/-- Section 2.2, `SWPB R2`, x2=12AB. -/
theorem test_step_swpb : seen (start 0x0100 false false false false 0x4D1A [(.r2, 0x12AB)] []) =
    some ([0x0, 0x0, 0xAB12, 0x0, 0x0, 0x0, 0x0, 0x0102], (false, false, false, false), []) := by
  decide

/-- Section 2.2, `SXT R1`, x1=AB00, C=1, V=1. -/
theorem test_step_sxt : seen (start 0x0100 true false false true 0x4D21 [(.r1, 0xAB00)] []) =
    some ([0x0, 0x0000, 0x0, 0x0, 0x0, 0x0, 0x0, 0x0102], (true, true, false, true), []) := by
  decide

/-- Section 2.3, `LD R1+,R1`, x1=2000, M[2000]=BEEF. -/
theorem test_step_ld : seen (start 0x0100 false false false false 0x5889 [(.r1, 0x2000)] [(0x2000, 0xBEEF)]) =
    some ([0x0, 0xBEEF, 0x0, 0x0, 0x0, 0x0, 0x0, 0x0102], (false, false, false, false), []) := by
  decide

/-- Section 2.4, `ST R1,-R1`, x1=3000. -/
theorem test_step_st : seen (start 0x0100 false false false false 0x5F09 [(.r1, 0x3000)] []) =
    some ([0x0, 0x3000, 0x0, 0x0, 0x0, 0x0, 0x0, 0x0102], (false, false, false, false), []) := by
  decide

theorem test_bytes_st : bytes (start 0x0100 false false false false 0x5F09 [(.r1, 0x3000)] [])
    [0x2FFE, 0x2FFF, 0x3000] = [0x00, 0x30, 0x00] := by
  decide

/-- Section 2.2, `MOVL #0x34,R0`, x0=FF00. -/
theorem test_step_movl : seen (start 0x0100 false false false false 0x61A0 [(.r0, 0xFF00)] []) =
    some ([0xFF34, 0x0, 0x0, 0x0, 0x0, 0x0, 0x0, 0x0102], (false, false, false, false), []) := by
  decide

/-- Section 2.2, `MOVLZ #5,R0`, x0=FFFF. -/
theorem test_step_movlz : seen (start 0x0100 false false false false 0x6828 [(.r0, 0xFFFF)] []) =
    some ([0x0005, 0x0, 0x0, 0x0, 0x0, 0x0, 0x0, 0x0102], (false, false, false, false), []) := by
  decide

/-- Section 2.2, `MOVLS #0xFE,R3`, all zero. -/
theorem test_step_movls : seen (start 0x0100 false false false false 0x77F3 [] []) =
    some ([0x0, 0x0, 0x0, 0xFFFE, 0x0, 0x0, 0x0, 0x0102], (false, false, false, false), []) := by
  decide

/-- Section 2.2, `MOVH #0x12,R0`, x0=0034. -/
theorem test_step_movh : seen (start 0x0100 false false false false 0x7890 [(.r0, 0x0034)] []) =
    some ([0x1234, 0x0, 0x0, 0x0, 0x0, 0x0, 0x0, 0x0102], (false, false, false, false), []) := by
  decide

/-- Section 2.3, `LDR R0,#-4,R0`, x0=0002, M[FFFE]=8899. -/
theorem test_step_ldr : seen (start 0x0100 false false false false 0xBE00 [(.r0, 0x0002)] [(0xFFFE, 0x8899)]) =
    some ([0x8899, 0x0, 0x0, 0x0, 0x0, 0x0, 0x0, 0x0102], (false, false, false, false), []) := by
  decide

/-- Section 2.4, `STR R0,R4,#1`, x0=ABCD, x4=3000. -/
theorem test_step_str : seen (start 0x0100 false false false false 0xC084 [(.r0, 0xABCD), (.r4, 0x3000)] []) =
    some ([0xABCD, 0x0, 0x0, 0x0, 0x3000, 0x0, 0x0, 0x0102], (false, false, false, false),
      [⟨.misalignedWord, 0x3001⟩]) := by
  decide

theorem test_bytes_str : bytes (start 0x0100 false false false false 0xC084 [(.r0, 0xABCD), (.r4, 0x3000)] [])
    [0x3000, 0x3001, 0x3002] = [0xCD, 0xAB, 0x00] := by
  decide

/-- Section 2.6, `(none)`, x0=1111, C=1. -/
theorem test_step_undefined_word : seen (start 0x0100 true false false false 0x4D80 [(.r0, 0x1111)] []) =
    some ([0x1111, 0x0, 0x0, 0x0, 0x0, 0x0, 0x0, 0x0102], (true, false, false, false),
      [⟨.undefinedOpcode, 0x4D80⟩]) := by
  decide

/-- Section 2.3, `LD (mode 011)`, x1=2000, M[2000]=BEEF. -/
theorem test_step_undefined_mode :
    seen (start 0x0100 false false false false 0x5988 [(.r1, 0x2000)] [(0x2000, 0xBEEF)]) =
    some ([0x0, 0x2000, 0x0, 0x0, 0x0, 0x0, 0x0, 0x0102], (false, false, false, false),
      [⟨.undefinedAddrMode, 0x5988⟩]) := by
  decide

/-- Section 2.6, `MOVLZ #5,R0`, PC=0101. -/
theorem test_step_odd_pc : seen (start 0x0101 false false false false 0x6828 [] []) =
    some ([0x0005, 0x0, 0x0, 0x0, 0x0, 0x0, 0x0, 0x0103], (false, false, false, false),
      [⟨.misalignedWord, 0x0101⟩]) := by
  decide

/-! ## The cache controller (95_test_vectors.md section 2.7) and the host's placing of a word -/

/-- A state of `n + 1` lines and main memory `mem`. -/
def cached (n : Nat) (wp : Config.WritePolicy) (org : Config.Organisation) (mem : List (Word × Word)) : State :=
  mem.foldl putWord { State.reset with cache := Cache.reset n, writePolicy := wp, organisation := org }

/-- S2 (iii), rows 1 and 2: after a low-byte write miss a word read fetches the missing byte only. -/
theorem test_cache_fetches_the_missing_byte :
    (let s := ((cached 3 .wb .assoc [(0x30, 0xBBAA)]).memWrite .byte 0x30 0x11).memRead .word 0x30
     s.1 = 0xBB11 ∧ s.2.bus = [.read 0x31 .byte] ∧
      s.2.cache.get 0 = ⟨0x30, 0x11, 0xBB, true, true, true, false, 3⟩) := by decide

/-- S4, rows 1 to 3: the third access evicts the dirty line, whose flush precedes the read. -/
theorem test_cache_write_back_round_trip :
    (let s := ((((cached 1 .wb .assoc []).memWrite .word 0x100 0xBEEF).memRead .word 0x200).2.memRead .word 0x202).2
     s.bus = [.read 0x200 .word, .write 0x100 .word 0xBEEF, .read 0x202 .word] ∧
      s.mem = [(0x100, 0xEF), (0x101, 0xBE)] ∧ s.cache.toList.map Line.age = [1, 0]) := by decide

/-- Section 1.1, the direct-mapped scenario under write-back: the second write evicts the first. -/
theorem test_cache_direct_mapped :
    (let s := ((cached 31 .wb .direct []).memWrite .word 0x0000 0xAA).memWrite .word 0x0040 0xBB
     s.bus = [.write 0x0000 .word 0xAA] ∧ s.cache.get 0 = ⟨0x40, 0xBB, 0x00, true, true, true, true, 31⟩) := by decide

/-- Log entry 7: the word the host places is the first that runs after reset. -/
theorem test_with_fetch_word : seen (State.reset.withFetchWord 16 0x6828) =
    some ([5, 0, 0, 0, 0, 0, 0, 2], (false, false, false, false), []) := by decide

/-! ## Witnesses -/

/-- A result is a next state. -/
def isNext (r : Result) : Bool :=
  match r with
  | .next _ => true
  | .fault _ => false
  | .refused _ => false

theorem next_of_isNext {r : Result} (h : isNext r = true) : ∃ t, r = .next t := by
  cases r with
  | next t => exact ⟨t, rfl⟩
  | fault f => exact absurd h (by simp [isNext])
  | refused f => exact absurd h (by simp [isNext])

/-- A state in use: a byte written (0x5C at 0x0031), a word read (0x0040), and the program counter at 0x0100 with the
word `w` there. -/
def busy (wp : Config.WritePolicy) (org : Config.Organisation) (pc w : Word) : State :=
  let s := (cached 1 wp org [(0x30, 0xBBAA), (0x40, 0x1234), (wordAddr pc, w)]).memWrite .byte 0x31 0x5C
  (s.memRead .word 0x40).2.setX .r7 pc

theorem busy_coherent (wp : Config.WritePolicy) (org : Config.Organisation) : (busy wp org 0x100 0x4008).Coherent := by
  apply State.coherent_of_check
  cases wp <;> cases org <;> decide

/-- The same at the top of the address space, with an odd program counter. -/
theorem top_coherent : (busy .wb .assoc 0xFFFF 0x4008).Coherent := State.coherent_of_check (by decide)

/-- The same with a word that is no instruction, at an odd program counter. -/
theorem undefined_coherent : (busy .wb .assoc 0x101 0x4D80).Coherent := State.coherent_of_check (by decide)

theorem witness_EncodeOfDecodeIsTheWord : ∃ w i, decode w = .ok i := ⟨0xFFFF, _, rfl⟩

/-- The ends of the LD and ST words with each undefined mode; 0x57FF and 0x6000 lie outside. -/
theorem witness_UndefinedWordsAreThoseOfTheTable :
    [0x5980, 0x5A00, 0x5B80, 0x5FFF].all (fun w => match decode w with
      | .ok i => !i.wellFormed
      | .error _ => false) = true ∧
    [0x5800, 0x5F7F, 0x6000].all (fun w => match decode w with
      | .ok i => i.wellFormed
      | .error _ => false) = true ∧ decode 0x57FF = .error .indexedBit11 := by decide

theorem witness_OpcodeMapSelectsByMatchAndMask :
    ∃ row ∈ opcodeMap, ∃ w : Word, w &&& row.2.2 = row.2.1 ∧ ∃ i, decode w = .ok i ∧ i.mnemonic = row.1 :=
  ⟨("BL", 0x0000, 0xE000), by decide, 0x1FFF, by decide, .bl 0x1FFF, by decide, rfl⟩

/-- An even program counter, and the highest odd one. -/
theorem witness_StepRunsTheDecodedInstruction :
    (∃ (s : State) (i : Instr), s.pc = 0x100 ∧ s.Coherent ∧ s.stopped = false ∧
      decodeBytes [s.archByte (wordAddr s.pc), s.archByte (wordAddr s.pc + 1#16)] = .ok (i, [])) ∧
    ∃ (s : State) (i : Instr), s.pc = 0xFFFF ∧ s.Coherent ∧ s.stopped = false ∧
      decodeBytes [s.archByte (wordAddr s.pc), s.archByte (wordAddr s.pc + 1#16)] = .ok (i, []) :=
  ⟨⟨busy .wb .assoc 0x100 0x4008, .add (.reg .r1) .word .r0, by decide, busy_coherent _ _, by decide⟩,
    ⟨busy .wb .assoc 0xFFFF 0x4008, .add (.reg .r1) .word .r0, by decide, top_coherent, by decide⟩⟩

theorem witness_FetchReadsTheWordAndAdvances :
    (∃ s : State, isOdd s.pc = false ∧ s.Coherent) ∧ ∃ s : State, s.pc = 0xFFFF ∧ s.Coherent :=
  ⟨⟨busy .wb .assoc 0x100 0x4008, by decide, busy_coherent _ _⟩,
    ⟨busy .wb .assoc 0xFFFF 0x4008, by decide, top_coherent⟩⟩

/-- At an odd program counter. -/
theorem witness_UndefinedOpcodeIsReportedAndAbandoned : ∃ (s : State) (e : Reject),
    s.pc = 0x101 ∧ s.Coherent ∧ s.stopped = false ∧ decode (s.archWord s.pc) = .error e :=
  ⟨busy .wb .assoc 0x101 0x4D80, .oneOperandBit7, by decide, undefined_coherent, by decide⟩

theorem witness_StopLatchIsSetOnlyByTheFatalDiagnostic : (∃ d : Diag, d ≠ .outOfRange) ∧
    (∃ s : State, s.stopped = true) ∧ ∃ s t : State, step s = .next t :=
  ⟨⟨.bitIndexRange, by decide⟩, ⟨State.reset.report .outOfRange 0, by decide⟩,
    ⟨State.reset, next_of_isNext (by decide)⟩⟩

/-- A word that is no instruction, and one that is. -/
theorem witness_StepReportsAtMostTwoEventsInStageOrder :
    (∃ (s t : State) (e : Reject), s.Coherent ∧ s.stopped = false ∧ decode (s.archWord s.pc) = .error e ∧
      step s = .next t) ∧
    ∃ (s t : State) (i : Instr), s.Coherent ∧ s.stopped = false ∧ decode (s.archWord s.pc) = .ok i ∧ step s = .next t :=
  ⟨⟨busy .wb .assoc 0x101 0x4D80, (next_of_isNext (by decide)).imp fun _ h =>
      ⟨.oneOperandBit7, undefined_coherent, by decide, by decide, h⟩⟩,
    ⟨busy .wb .assoc 0xFFFF 0x4008, (next_of_isNext (by decide)).imp fun _ h =>
      ⟨.add (.reg .r1) .word .r0, top_coherent, by decide, by decide, h⟩⟩⟩

theorem witness_StepKeepsCoherence : ∃ s t : State, s.Coherent ∧ step s = .next t :=
  ⟨busy .wb .assoc 0x100 0x4008, (next_of_isNext (by decide)).imp fun _ h => ⟨busy_coherent _ _, h⟩⟩

theorem witness_ResetMakesCoherentAndDropsDirtyBytes : ∃ s : State,
    s.mem.wf = true ∧ s.archByte 0x31 ≠ s.memByte 0x31 :=
  ⟨busy .wb .assoc 0x100 0x4008, by decide, by decide⟩

theorem witness_ResetGivesTheTableOfResetValues : ∃ s : State, 0 < s.cache.size ∧ s.cache.size - 1 < s.cache.size :=
  ⟨busy .wb .assoc 0x100 0x4008, by decide, by decide⟩

theorem witness_StepKeepsConfigurationAndClockNeverDecreases : ∃ s t : State, step s = .next t :=
  ⟨busy .wt .direct 0x100 0x4008, next_of_isNext (by decide)⟩

/-- A word that is an instruction but no store. -/
theorem witness_OnlyStoresChangeArchitecturalMemory : ∃ s t : State, s.Coherent ∧ step s = .next t ∧
    ∀ i, decode (s.archWord s.pc) = .ok i → stores i = false := by
  have key : decode ((busy .wb .assoc 0x100 0x4008).archWord (busy .wb .assoc 0x100 0x4008).pc) =
      .ok (.add (.reg .r1) .word .r0) := by decide
  refine ⟨busy .wb .assoc 0x100 0x4008, (next_of_isNext (by decide)).imp fun _ h => ⟨busy_coherent _ _, h, ?_⟩⟩
  intro i hi
  obtain rfl : Instr.add (.reg .r1) .word .r0 = i := Except.ok.inj (key.symm.trans hi)
  rfl

/-- MOV writes no flag, XOR leaves C and V, SRA leaves V. -/
theorem witness_OnlyTheListedInstructionsWriteAFlag :
    ∀ i ∈ [Instr.mov .word .r1 .r0, .xor (.reg .r1) .byte .r0, .sra .word .r0], ∃ t,
      exec i (busy .wb .assoc 0x100 0x4008) = .next t ∧ writesV i = false := by
  intro i h
  fin_cases h <;> exact ⟨_, rfl, rfl⟩

theorem witness_BusPrimitivesReadAndWriteMainMemory : ∃ s : State, s.mem.wf = true ∧
    storedAt .word 0xFFFF 0xFFFE = true ∧ storedAt .word 0xFFFF 0xFFFF = true ∧ storedAt .byte 0xFFFF 0xFFFE = false :=
  ⟨busy .wb .assoc 0x100 0x4008, by decide⟩

/-- A byte of a line that holds only that byte, and a word. -/
theorem witness_ReadHitChangesOnlyAges : ∀ p ∈ [(Width.byte, (0x31 : Word)), (.word, 0x40), (.word, 0x41)],
    ∃ (s : State) (i : Nat),
    s.cache.find (wordAddr p.2) = some i ∧ (needsLo p.1 p.2 = true → (s.cache.get i).vlo = true) ∧
    (needsHi p.1 p.2 = true → (s.cache.get i).vhi = true) := by
  intro p h
  fin_cases h
  · exact ⟨busy .wb .assoc 0x100 0x4008, 0, by decide⟩
  · exact ⟨busy .wb .assoc 0x100 0x4008, 1, by decide⟩
  · exact ⟨busy .wb .assoc 0x100 0x4008, 1, by decide⟩

theorem witness_EveryAccessTouchesOneLine : ∃ s t : State,
    t = (s.memRead .word 0xFFFF).2 ∨ t = s.memWrite .word 0xFFFF 0 :=
  ⟨busy .wb .assoc 0x100 0x4008, _, Or.inl rfl⟩

/-- A line dirty in both bytes, in the low one, in the high one and in none. -/
theorem witness_EvictionFlushesExactlyTheDirtyBytes :
    [((cached 1 .wb .assoc []).memWrite .word 0xFFFE 1, true, true),
      ((cached 1 .wb .assoc []).memWrite .byte 0xFFFE 1, true, false),
      ((cached 1 .wb .assoc []).memWrite .byte 0xFFFF 1, false, true),
      ((cached 1 .wt .assoc []).memWrite .word 0xFFFE 1, false, false)].all
      (fun p => p.1.mem.wf && decide (0 < p.1.cache.size) && !isOdd (p.1.cache.get 0).tag &&
        (p.1.cache.get 0).dlo == p.2.1 && (p.1.cache.get 0).dhi == p.2.2) = true := by decide

/-- The victim's high byte is dirty. -/
theorem witness_ReadMissFlushesBeforeItReads : ∃ s : State, s.Coherent ∧ s.cache.find (wordAddr 0x50) = none ∧
    (s.cache.get (s.victim (wordAddr 0x50))).dhi = true :=
  ⟨busy .wb .assoc 0x100 0x4008, busy_coherent _ _, by decide, by decide⟩

theorem witness_WriteThroughIsImmediatelyInMainMemory : ∃ s : State, s.Coherent ∧ s.writePolicy = .wt ∧
    storedAt .word 0x31 0x30 = true ∧ storedAt .word 0x31 0x31 = true ∧ storedAt .byte 0x31 0x31 = true :=
  ⟨busy .wt .assoc 0x100 0x4008, busy_coherent _ _, by decide⟩

theorem witness_WriteBackReachesMainMemoryAtEviction : ∃ (s : State) (i : Nat), s.Coherent ∧ s.writePolicy = .wb ∧
    (s.memWrite .word 0x51 0xBEEF).cache.find (wordAddr 0x51) = some i ∧ storedAt .word 0x51 0x50 = true ∧
    storedAt .word 0x51 0x51 = true ∧ wordAddr 0x52 ≠ wordAddr 0x51 :=
  ⟨busy .wb .assoc 0x100 0x4008, 0, busy_coherent _ _, by decide⟩

/-- The written byte of the line and the other one. -/
theorem witness_ByteWriteHitLeavesTheSiblingByte : ∃ s : State, s.cache.find (wordAddr 0x31) = some 0 ∧
    s.cache.find (wordAddr 0x30) = some 0 ∧ isOdd 0x31 = true ∧ isOdd 0x30 = false ∧ s.writePolicy = .wb :=
  ⟨busy .wb .assoc 0x100 0x4008, by decide⟩

theorem busy_ages : AgesDistinct (busy .wb .assoc 0x100 0x4008) := by unfold AgesDistinct; decide

theorem witness_StepKeepsAgesDistinct : ∃ s t : State, s.Coherent ∧ AgesDistinct s ∧ step s = .next t :=
  ⟨busy .wb .assoc 0x100 0x4008, (next_of_isNext (by decide)).imp fun _ h => ⟨busy_coherent _ _, busy_ages, h⟩⟩

theorem witness_JustTouchedLineIsNotTheNextVictim : ∃ s : State, s.Coherent ∧ AgesDistinct s ∧ s.organisation = .assoc ∧
    1 < s.cache.size ∧ 0 < s.cache.size :=
  ⟨busy .wb .assoc 0x100 0x4008, busy_coherent _ _, busy_ages, by decide⟩

/-- Digits of 9 in both operands, with a carry in. -/
theorem witness_DaddOfDecimalDigitsIsDecimalAddition : ∀ w : Width, ∃ s t : State,
    decimalDigits (digits w) (reduced w (s.operand (.reg .r1))) ∧ decimalDigits (digits w) (reduced w (s.x .r0)) ∧
    exec (.dadd (.reg .r1) w .r0) s = .next t := by
  intro w
  refine ⟨((State.reset.setX .r0 0x9999).setX .r1 0x9990).setPsw { PSW.reset with c := true }, _, ?_, ?_, rfl⟩ <;>
    cases w <;>
    simp [decimalDigits, digits, reduced, State.operand, State.x, State.setX, State.setPsw, RegFile.put, lowByte]

/-- The boundary indices of BIT in byte mode: 7 and 8. -/
theorem witness_BitTestsTheIndexedBit : ((State.reset.setX .r1 7).operand (.reg .r1)).toNat % 16 ≤ 7 ∧
    7 < ((State.reset.setX .r1 0xFFF8).operand (.reg .r1)).toNat % 16 := by decide

theorem witness_BicAndBisChangeTheIndexedBit : (0 : Nat) < 16 ∧ (15 : Nat) < 16 := by decide

theorem witness_UnknownAluOperationIsReportedOnly : 12 ≤ (12#4).toNat ∧ 12 ≤ (15#4).toNat := by decide

theorem witness_ByteFormsKeepTheHighByteOfTheDestination :
    ∀ i ∈ [Instr.add (.reg .r1) .byte .r0, .mov .byte .r1 .r0, .rrc .byte .r0, .ld ⟨false, false, true⟩ .byte .r0 .r0,
      .ldr 0 .byte .r1 .r0], ∃ t, byteDestination i = some .r0 ∧ exec i (busy .wb .assoc 0x100 0x4008) = .next t := by
  intro i h
  fin_cases h <;> exact ⟨_, rfl, rfl⟩

/-- Each legal mode, at an address that wraps. -/
theorem witness_LdLoadsFromTheResolvedAddress : ∃ s : State, s.Coherent ∧
    [(⟨false, false, false⟩ : ModeBits), ⟨false, false, true⟩, ⟨false, true, false⟩, ⟨true, false, true⟩,
      ⟨true, true, false⟩].all (fun m => (resolveIndexed m .word (s.x .r1)).isSome) = true :=
  ⟨(busy .wb .assoc 0x100 0x4008).setX .r1 0xFFFF, setX_coherent (busy_coherent .wb .assoc) .r1 0xFFFF, by decide⟩

/-- Both widths, at an odd address: the stored bytes of each. -/
theorem witness_StStoresToTheResolvedAddress : ∃ (s : State) (r q : Resolved), s.Coherent ∧
    resolveIndexed ⟨true, true, false⟩ .word (s.x .r1) = some r ∧
    resolveIndexed ⟨true, true, false⟩ .byte (s.x .r1) = some q ∧ storedAt .word r.ea 0xFFFD = true ∧
    storedAt .word r.ea 0xFFFC = true ∧ storedAt .word r.ea 0xFFFE = false ∧ storedAt .byte q.ea 0xFFFE = true ∧
    storedAt .byte q.ea 0xFFFF = false :=
  ⟨(busy .wb .assoc 0x100 0x4008).setX .r1 0xFFFF, ⟨0xFFFD, 0xFFFD, true⟩, ⟨0xFFFE, 0xFFFE, true⟩,
    setX_coherent (busy_coherent .wb .assoc) .r1 0xFFFF, by decide⟩

/-- The least offset, -64, and the greatest, 63. -/
theorem witness_LdrLoadsFromBasePlusOffset : ∃ s : State, s.Coherent ∧ (0x40#7).toInt = -64 ∧ (0x3F#7).toInt = 63 :=
  ⟨busy .wt .direct 0x100 0x4008, busy_coherent _ _, by decide⟩

/-- A word store at an odd address writes the two bytes of the word below, a byte store the one byte. -/
theorem witness_StrStoresToBasePlusOffset : ∃ s : State, s.Coherent ∧
    storedAt .word (0x3001 : Word) 0x3000 = true ∧ storedAt .word (0x3001 : Word) 0x3001 = true ∧
    storedAt .word (0x3001 : Word) 0x3002 = false ∧ storedAt .byte (0x3001 : Word) 0x3000 = false :=
  ⟨busy .wb .direct 0x100 0x4008, busy_coherent _ _, by decide⟩

theorem witness_UndefinedModeIsReportedAndAbandoned :
    [(⟨false, true, true⟩ : ModeBits), ⟨true, false, false⟩, ⟨true, true, true⟩].all (fun m => !m.legal) = true := by
  decide

theorem witness_StoredWordIsFetched : ∃ (s : State) (r : Resolved) (t : State), s.Coherent ∧
    resolveIndexed ⟨false, false, true⟩ .word (s.x .r1) = some r ∧
    exec (.st ⟨false, false, true⟩ .word .r0 .r1) s = .next t :=
  ⟨busy .wb .assoc 0x100 0x4008, _, _, busy_coherent _ _, rfl, rfl⟩

/-- A stopped core, and one that steps. -/
theorem witness_RunUntilChecksAfterEachInstruction : (∃ s : State, s.stopped = true) ∧
    ∃ s t : State, s.stopped = false ∧ step s = .next t :=
  ⟨⟨State.reset.report .outOfRange 0, by decide⟩,
    ⟨State.reset, (next_of_isNext (by decide)).imp fun _ h => ⟨by decide, h⟩⟩⟩

/-- Both ends of the address space. -/
theorem witness_LoadedImageIsWhatTheProgramSees : ∃ (s : State) (img : List Host.Cell), s.mem.wf = true ∧
    (img.map Prod.fst).Nodup ∧ (∀ p ∈ img, p.1 < 65536) ∧ img.length = 3 :=
  ⟨busy .wb .assoc 0x100 0x4008, [(0, 0x11), (65535, 0x22), (0x31, 0)], by decide⟩

/-- The carry and overflow flags at the ends of the word range (R166, R168). -/
theorem test_flags_at_the_ends :
    (sumFlags PSW.reset (0x7FFF : Word) 0x0001 false).v = true ∧
    (sumFlags PSW.reset (0xFFFF : Word) 0x0001 false).c = true ∧
    (diffFlags PSW.reset (0x0000 : Word) 0x8000 false).v = true ∧
    (diffFlags PSW.reset (0x8000 : Word) 0x0001 false).c = true := by
  decide

end Sys2Proof.Tests
end

section
/-! PROOFS, the statements of 10_state.md: what one instruction can do, said once for all 35 (`exec_executes`), and what
one step therefore keeps. -/

namespace Sys2Proof.Machine

open Sys2Proof Sys2Proof.Claim

/-! ## The flags an instruction may write (spec 10_state.md R28, R29) -/

/-- R28, R29: from status word `p` to `q` only flags of the rows of instruction `i` change. -/
structure FlagsKept (i : Instr) (p q : PSW) : Prop where
  c : writesC i = false → q.c = p.c
  z : writesZN i = false → q.z = p.z
  n : writesZN i = false → q.n = p.n
  v : writesV i = false → q.v = p.v
  slp : q.slp = p.slp
  flt : q.flt = p.flt
  cur : q.cur = p.cur
  prv : q.prv = p.prv

theorem FlagsKept.refl (i : Instr) (p : PSW) : FlagsKept i p p :=
  ⟨fun _ => rfl, fun _ => rfl, fun _ => rfl, fun _ => rfl, rfl, rfl, rfl, rfl⟩

theorem FlagsKept.trans {i : Instr} {p q r : PSW} (h : FlagsKept i p q) (g : FlagsKept i q r) : FlagsKept i p r :=
  ⟨fun e => (g.c e).trans (h.c e), fun e => (g.z e).trans (h.z e), fun e => (g.n e).trans (h.n e),
    fun e => (g.v e).trans (h.v e), g.slp.trans h.slp, g.flt.trans h.flt, g.cur.trans h.cur, g.prv.trans h.prv⟩

theorem logicFlags_kept {i : Instr} (hzn : writesZN i = true) (p : PSW) (w : Width) (r : Word) :
    FlagsKept i p (logicFlags p w r) := by
  constructor <;> simp [logicFlags, hzn]

theorem carryLogicFlags_kept {i : Instr} (hc : writesC i = true) (hzn : writesZN i = true) (p : PSW) (w : Width)
    (c : Bool) (r : Word) : FlagsKept i p (carryLogicFlags p w c r) := by
  constructor <;> simp [carryLogicFlags, logicFlags, hc, hzn]

theorem funnelFlags_kept {i : Instr} (hc : writesC i = true) (hzn : writesZN i = true) (hv : writesV i = true) (p : PSW)
    (w : Width) (a b r : Word) : FlagsKept i p (funnelFlags p w a b r) := by
  constructor <;> simp [funnelFlags, hc, hzn, hv]

/-! ## What an instruction does beside its access to memory -/

/-- `t` is `s` with registers, flags of instruction `i`'s rows, the diagnostic output and the clock changed, and nothing
else. -/
structure Local (i : Instr) (s t : State) : Prop where
  ir : t.ir = s.ir
  cache : t.cache = s.cache
  mem : t.mem = s.mem
  writePolicy : t.writePolicy = s.writePolicy
  organisation : t.organisation = s.organisation
  stopped : t.stopped = s.stopped
  clk : s.clk ≤ t.clk
  flags : FlagsKept i s.psw t.psw

section
variable {i : Instr} {s t u : State}

theorem Local.refl (i : Instr) (s : State) : Local i s s :=
  ⟨rfl, rfl, rfl, rfl, rfl, rfl, Nat.le_refl _, FlagsKept.refl i _⟩

theorem Local.trans (h : Local i s t) (g : Local i t u) : Local i s u :=
  ⟨g.ir.trans h.ir, g.cache.trans h.cache, g.mem.trans h.mem, g.writePolicy.trans h.writePolicy,
    g.organisation.trans h.organisation, g.stopped.trans h.stopped, h.clk.trans g.clk, h.flags.trans g.flags⟩

theorem Local.setX (h : Local i s t) (r : Reg) (v : Word) : Local i s (t.setX r v) :=
  h.trans ⟨rfl, rfl, rfl, rfl, rfl, rfl, Nat.le_refl _, FlagsKept.refl i _⟩

theorem Local.setPsw (h : Local i s t) {p : PSW} (hp : FlagsKept i t.psw p) : Local i s (t.setPsw p) :=
  h.trans ⟨rfl, rfl, rfl, rfl, rfl, rfl, Nat.le_refl _, hp⟩

theorem Local.tick (h : Local i s t) (n : Nat) : Local i s (t.tick n) :=
  h.trans ⟨rfl, rfl, rfl, rfl, rfl, rfl, Nat.le_add_right _ _, FlagsKept.refl i _⟩

theorem Local.report (h : Local i s t) {d : Diag} (hd : d.fatal = false) (v : Word) : Local i s (t.report d v) :=
  h.trans ⟨rfl, rfl, rfl, rfl, rfl, by simp [hd], Nat.le_refl _, FlagsKept.refl i _⟩

theorem Local.writeResult (h : Local i s t) (w : Width) (dst : Reg) (r : Word) : Local i s (t.writeResult w dst r) :=
  h.setX ..

theorem Local.writeBack (h : Local i s t) (addr other : Reg) (r : Resolved) :
    Local i s (t.writeBack addr other r) := by
  unfold State.writeBack
  split
  · exact h.setX ..
  · exact h

@[simp] theorem checkBitIndex_psw (s : State) (w : Width) (v : Word) : (s.checkBitIndex w v).psw = s.psw := by
  cases w
  · rfl
  · simp only [State.checkBitIndex]
    split <;> rfl

theorem Local.checkBitIndex (h : Local i s t) (w : Width) (v : Word) : Local i s (t.checkBitIndex w v) := by
  cases w
  · exact h
  · simp only [State.checkBitIndex]
    split
    · exact h.report rfl _
    · exact h

theorem Local.logicInto (h : Local i s t) (hzn : writesZN i = true) (w : Width) (dst : Reg) (r : Word) :
    Local i s (t.logicInto w dst r) :=
  (h.setPsw (logicFlags_kept hzn ..)).writeResult ..

theorem Local.addInto (h : Local i s t) (hc : writesC i = true) (hzn : writesZN i = true) (hv : writesV i = true)
    (w : Width) (dst : Reg) (sv : Word) (cin : Bool) : Local i s (t.addInto w dst sv cin) :=
  (h.setPsw (funnelFlags_kept hc hzn hv ..)).writeResult ..

end

/-! ## One instruction -/

/-- The one access to memory instruction `i` makes from `s`, if it makes one, and the state after it. Only ST and STR
write. -/
inductive Access (i : Instr) (s : State) : State → Prop where
  | none : Access i s s
  | read (w : Width) (a : Word) : Access i s (s.memRead w a).2
  | write (hi : stores i = true) (w : Width) (a v : Word) : Access i s (s.memWrite w a v)

theorem Access.frame {i : Instr} {s u : State} (h : Access i s u) : Frame s u := by
  cases h with
  | none => exact Frame.refl s
  | read w a => exact memRead_frame ..
  | write _ w a v => exact memWrite_frame ..

theorem Access.coherent {i : Instr} {s u : State} (h : Access i s u) (hs : s.Coherent) : u.Coherent := by
  cases h with
  | none => exact hs
  | read w a => exact (memRead_spec hs w a).2.1
  | write _ w a v => exact (memWrite_spec hs w a v).1

/-- R36, R80: a program sees no access but a store. -/
theorem Access.archByte {i : Instr} {s u : State} (h : Access i s u) (hs : s.Coherent) (hi : stores i = false)
    (b : Word) : u.archByte b = s.archByte b := by
  cases h with
  | none => rfl
  | read w a => exact (memRead_spec hs w a).2.2.1 b
  | write hw w a v => rw [hi] at hw; contradiction

/-- `r` is what an instruction `i` executed in `s` may answer: a next state, reached by at most one access to memory and
changes to registers, flags, the diagnostic output and the clock. -/
def Executes (i : Instr) (s : State) (r : Result) : Prop :=
  ∃ u t, Access i s u ∧ Local i u t ∧ r = .next t

theorem Executes.retire {i : Instr} {s u t : State} (ha : Access i s u) (hl : Local i u t) :
    Executes i s (retire t) :=
  ⟨u, _, ha, hl.tick _, rfl⟩

/-- R232: an abandoned instruction makes no access. -/
theorem Executes.abandon {i : Instr} {s : State} {d : Diag} (hd : d.fatal = false) (v : Word) (cost : Nat) :
    Executes i s (abandon d v cost s) :=
  ⟨s, _, .none, ((Local.refl i s).report hd v).tick _, rfl⟩

/-- R211: a conditional branch, taken or not. -/
theorem Executes.branchIf (i : Instr) (s : State) (cond : Bool) (off : BitVec Config.brOffBits) :
    Executes i s (branchIf cond off s) := by
  refine .retire .none ?_
  split
  · exact (Local.refl i s).setX ..
  · exact Local.refl i s

theorem execLd_executes (m : ModeBits) (w : Width) (src dst : Reg) (s : State) :
    Executes (.ld m w src dst) s (execLd m w src dst s) := by
  unfold execLd
  split
  · exact .abandon rfl _ _
  · exact .retire (.read w _) (((Local.refl _ _).writeBack ..).writeResult ..)

theorem execSt_executes (m : ModeBits) (w : Width) (src dst : Reg) (s : State) :
    Executes (.st m w src dst) s (execSt m w src dst s) := by
  unfold execSt
  split
  · exact .abandon rfl _ _
  · exact .retire (.write rfl w _ _) ((Local.refl _ _).writeBack ..)

/-- What any of the 35 instructions can do (R111): every arm of `exec` answers a next state, after at most one
access. -/
theorem exec_executes (i : Instr) (s : State) : Executes i s (exec i s) := by
  have start := Local.refl i s
  cases i with
  | bl off => exact .retire .none ((start.setX ..).setX ..)
  | beq off | bne off | bc off | bnc off | bn off | bge off | blt off | bra off => exact .branchIf ..
  | add src w dst | addc src w dst | sub src w dst | subc src w dst =>
    exact .retire .none (start.addInto rfl rfl rfl ..)
  | dadd src w dst => exact .retire .none ((start.setPsw (carryLogicFlags_kept rfl rfl ..)).writeResult ..)
  | cmp src w dst => exact .retire .none (start.setPsw (funnelFlags_kept rfl rfl rfl ..))
  | xor src w dst | and src w dst | or src w dst => exact .retire .none (start.logicInto rfl ..)
  | bit src w dst =>
    have flags := fun r => logicFlags_kept (i := .bit src w dst) rfl s.psw w r
    exact .retire .none ((start.checkBitIndex ..).setPsw (by simpa using flags _))
  | bic src w dst | bis src w dst => exact .retire .none ((start.checkBitIndex ..).logicInto rfl ..)
  | mov w src dst => exact .retire .none (start.writeResult ..)
  | swap src dst => exact .retire .none ((start.setX ..).setX ..)
  | sra w dst | rrc w dst => exact .retire .none ((start.setPsw (carryLogicFlags_kept rfl rfl ..)).writeResult ..)
  | sxt dst => exact .retire .none ((start.setPsw (logicFlags_kept rfl ..)).setX ..)
  | swpb dst | movl b dst | movlz b dst | movls b dst | movh b dst => exact .retire .none (start.setX ..)
  | ld m w src dst => exact execLd_executes ..
  | st m w src dst => exact execSt_executes ..
  | ldr off w src dst => exact .retire (.read w _) ((Local.refl _ _).writeResult ..)
  | str off w src dst => exact .retire (.write rfl w _ _) (Local.refl _ _)

/-! ## One step -/

/-- R236, R251: a step answers a next state. -/
theorem step_next (s : State) : ∃ t, step s = .next t := by
  unfold step
  split
  · exact ⟨s, rfl⟩
  · dsimp only
    split
    · exact ⟨_, rfl⟩
    · obtain ⟨_, t, -, -, ht⟩ := exec_executes _ _
      exact ⟨t, ht⟩

/-- R31, R32, R33: what no step changes, and the clock, which no step turns back. -/
structure SameSetup (s t : State) : Prop where
  writePolicy : t.writePolicy = s.writePolicy
  organisation : t.organisation = s.organisation
  stopped : t.stopped = s.stopped
  size : t.cache.size = s.cache.size
  clk : s.clk ≤ t.clk

theorem SameSetup.refl (s : State) : SameSetup s s := ⟨rfl, rfl, rfl, rfl, Nat.le_refl _⟩

theorem SameSetup.trans {s t u : State} (h : SameSetup s t) (g : SameSetup t u) : SameSetup s u :=
  ⟨g.writePolicy.trans h.writePolicy, g.organisation.trans h.organisation, g.stopped.trans h.stopped,
    g.size.trans h.size, h.clk.trans g.clk⟩

theorem Frame.sameSetup {s t : State} (h : Frame s t) : SameSetup s t :=
  ⟨h.writePolicy, h.organisation, h.stopped, h.size, h.clk⟩

theorem Local.sameSetup {i : Instr} {s t : State} (h : Local i s t) : SameSetup s t :=
  ⟨h.writePolicy, h.organisation, h.stopped, by rw [h.cache], h.clk⟩

theorem fetch_sameSetup (s : State) : SameSetup s s.fetch := by
  obtain ⟨-, hw, ho, hst, hsz, hclk, -⟩ := fetch_frame s
  exact ⟨hw, ho, hst, hsz, hclk⟩

/-- R251: what one step can do, with the execution taken apart: nothing (a stopped core); the fetch and the report of an
undefined opcode; or the fetch, one access `u` and the rest `t` of the decoded instruction. -/
theorem step_parts {s t : State} (h : step s = .next t) :
    (s.stopped = true ∧ t = s) ∨
    t = (s.fetch.report .undefinedOpcode s.fetch.ir).tick Config.clkAbandonedOpcode ∨
    ∃ i u, decode s.fetch.ir = .ok i ∧ Access i (s.fetch.tick Config.clkDecode) u ∧ Local i u t := by
  rcases step_cases h with hs | ⟨-, -, -, ht⟩ | ⟨-, i, hd, he⟩
  · exact .inl hs
  · exact .inr (.inl ht)
  · obtain ⟨u, t', ha, hl, ht⟩ := exec_executes i (s.fetch.tick Config.clkDecode)
    obtain rfl : t' = t := by simpa [ht] using he
    exact .inr (.inr ⟨i, u, hd, ha, hl⟩)

theorem step_sameSetup {s t : State} (h : step s = .next t) : SameSetup s t := by
  have tick : ∀ (v : State) n, SameSetup v (v.tick n) := fun v n => ⟨rfl, rfl, rfl, rfl, Nat.le_add_right _ _⟩
  rcases step_parts h with ⟨-, rfl⟩ | rfl | ⟨i, u, -, ha, hl⟩
  · exact SameSetup.refl _
  · have report : SameSetup s.fetch (s.fetch.report .undefinedOpcode s.fetch.ir) :=
      ⟨rfl, rfl, by simp [Diag.fatal], rfl, Nat.le_refl _⟩
    exact ((fetch_sameSetup s).trans report).trans (tick ..)
  · exact (((fetch_sameSetup s).trans (tick ..)).trans ha.frame.sameSetup).trans hl.sameSetup

theorem Local.coherent {i : Instr} {s t : State} (h : Local i s t) (hs : s.Coherent) : t.Coherent :=
  hs.congr h.cache h.mem h.writePolicy h.organisation

theorem Local.archByte {i : Instr} {s t : State} (h : Local i s t) (b : Word) : t.archByte b = s.archByte b :=
  State.archByte_congr h.cache h.mem b

theorem fetch_coherent {s : State} (h : s.Coherent) : s.fetch.Coherent := by
  obtain ⟨-, hf, -, -⟩ := fetch_spec h
  exact hf

/-! ## The obligations about a step -/

/-- Settles O13: the fetch, an access and the rest of an instruction each keep coherence. -/
theorem stepKeepsCoherence : Obligations.StepKeepsCoherence := by
  intro s t hs h
  have hf := fetch_coherent hs
  rcases step_parts h with ⟨-, rfl⟩ | rfl | ⟨i, u, -, ha, hl⟩
  · exact hs
  · exact tick_coherent (report_coherent hf ..) _
  · exact hl.coherent (ha.coherent (tick_coherent hf _))

/-- Settles O8: the fetch is one `MemRead` of a word (R80), then IR and `x[7]`. -/
theorem fetchReadsTheWordAndAdvances : Obligations.FetchReadsTheWordAndAdvances := by
  intro s hs
  obtain ⟨hir, -, harch, hdiags⟩ := fetch_spec hs
  obtain ⟨hpsw, hw, ho, hst, hsz, hclk, hpc, hx⟩ := fetch_frame s
  exact ⟨hir, hpc, hx, hpsw, harch, hdiags.trans (checkAlign_diags ..), hw, ho, hst, hsz, hclk⟩

/-- R234: a condition other than OutOfRange is not fatal. -/
theorem Diag.fatal_eq_false {d : Diag} (h : d ≠ .outOfRange) : d.fatal = false := by
  cases d <;> simp_all [Diag.fatal]

/-- Settles O10: a step reports only conditions that are not fatal, so it keeps STOPPED with the rest of the setup. -/
theorem stopLatchIsSetOnlyByTheFatalDiagnostic : Obligations.StopLatchIsSetOnlyByTheFatalDiagnostic := by
  refine ⟨fun s v => ?_, fun s d v hd => ?_, fun s hs => ?_, fun s t h => ?_, fun _ _ _ => rfl⟩
  · simp [Diag.fatal]
  · simp [Diag.fatal_eq_false hd]
  · simp [step, hs]
  · exact (step_sameSetup h).stopped

/-- Settles O11: every arm of `exec` ends in `retire` or `abandon`. -/
theorem stepAlwaysHasNextState : Obligations.StepAlwaysHasNextState := step_next

/-- Settles O18: the configuration and the clock are part of the setup every step keeps. -/
theorem stepKeepsConfigurationAndClockNeverDecreases : Obligations.StepKeepsConfigurationAndClockNeverDecreases := by
  intro s t h
  have hk := step_sameSetup h
  exact ⟨hk.clk, hk.writePolicy, hk.organisation, hk.size⟩

/-- Settles O19: the fetch reads, and of the accesses of an instruction only a store is seen by a program. -/
theorem onlyStoresChangeArchitecturalMemory : Obligations.OnlyStoresChangeArchitecturalMemory := by
  intro s t hs h hstores b
  obtain ⟨hir, hf, harch, -⟩ := fetch_spec hs
  rcases step_parts h with ⟨-, rfl⟩ | rfl | ⟨i, u, hd, ha, hl⟩
  · rfl
  · exact harch b
  · have hi : stores i = false := hstores i (hir ▸ hd)
    calc t.archByte b = u.archByte b := hl.archByte b
      _ = s.fetch.archByte b := ha.archByte (tick_coherent hf _) hi b
      _ = s.archByte b := harch b

/-- Settles O20: no access writes a flag, and the rest of an instruction writes those of its rows only. -/
theorem onlyTheListedInstructionsWriteAFlag : Obligations.OnlyTheListedInstructionsWriteAFlag := by
  intro i s t h
  obtain ⟨u, t', ha, hl, ht⟩ := exec_executes i s
  obtain rfl : t' = t := by simpa [ht] using h
  have hk : FlagsKept i s.psw t'.psw := ha.frame.psw ▸ hl.flags
  exact ⟨hk.c, fun e => ⟨hk.z e, hk.n e⟩, hk.v, hk.slp, hk.flt, hk.cur, hk.prv⟩

end Sys2Proof.Machine
end

section
/-! PROOFS. The inert fields SLP, FLT, CUR and PRV (spec 10_state.md R29): the cache controller does not read the status
word, and every other operation commutes with a replacement of the inert fields. -/

namespace Sys2Proof.Machine

open Sys2Proof Sys2Proof.Claim

/-! ## The cache controller and the status word (R28) -/

section
variable (s : State) (p : PSW)

@[simp] theorem setPsw_tick (n : Nat) : (s.setPsw p).tick n = (s.tick n).setPsw p := rfl
@[simp] theorem setPsw_logBus (t : BusTxn) : (s.setPsw p).logBus t = (s.logBus t).setPsw p := rfl
@[simp] theorem setPsw_setMemByte (a : Word) (v : Byte) :
    (s.setPsw p).setMemByte a v = (s.setMemByte a v).setPsw p := rfl
@[simp] theorem setPsw_modifyLine (i : Nat) (f : Line → Line) :
    (s.setPsw p).modifyLine i f = (s.modifyLine i f).setPsw p := rfl
@[simp] theorem setPsw_touch (i : Nat) : (s.setPsw p).touch i = (s.touch i).setPsw p := rfl
@[simp] theorem setPsw_busValue (w : Width) (a : Word) : (s.setPsw p).busValue w a = s.busValue w a := rfl
@[simp] theorem setPsw_victim (t : Word) : (s.setPsw p).victim t = s.victim t := rfl
@[simp] theorem setPsw_lineFor (t : Word) : (s.setPsw p).lineFor t = s.lineFor t := rfl

@[simp] theorem setPsw_checkAlign (w : Width) (a : Word) :
    (s.setPsw p).checkAlign w a = (s.checkAlign w a).setPsw p := by
  cases w
  · simp only [State.checkAlign]
    split <;> rfl
  · rfl

@[simp] theorem setPsw_busRead (w : Width) (a : Word) : (s.setPsw p).busRead w a = (s.busRead w a).setPsw p := by
  simp [State.busRead]

@[simp] theorem setPsw_busWrite (w : Width) (a v : Word) :
    (s.setPsw p).busWrite w a v = (s.busWrite w a v).setPsw p := by
  cases w <;> simp [State.busWrite]

@[simp] theorem setPsw_flush (i : Nat) : (s.setPsw p).flush i = (s.flush i).setPsw p := by
  simp only [State.flush, State.setPsw_writePolicy, State.setPsw_cache, setPsw_busWrite]
  split
  · rfl
  · split_ifs <;> rfl

@[simp] theorem setPsw_install (t : Word) (i : Nat) : (s.setPsw p).install t i = (s.install t i).setPsw p := by
  simp [State.install, State.evict]

@[simp] theorem setPsw_locate (t : Word) : (s.setPsw p).locate t = (s.locate t).setPsw p := by
  simp only [State.locate, State.setPsw_cache, setPsw_victim, setPsw_install]
  split <;> rfl

@[simp] theorem setPsw_fillLo (w : Width) (a : Word) (i : Nat) :
    (s.setPsw p).fillLo w a i = (s.fillLo w a i).setPsw p := by
  simp only [State.fillLo, State.setPsw_cache, setPsw_busRead, setPsw_busValue, setPsw_modifyLine]
  split <;> rfl

@[simp] theorem setPsw_fillHi (w : Width) (a : Word) (i : Nat) :
    (s.setPsw p).fillHi w a i = (s.fillHi w a i).setPsw p := by
  simp only [State.fillHi, State.setPsw_cache, setPsw_busRead, setPsw_busValue, setPsw_modifyLine]
  split <;> rfl

@[simp] theorem setPsw_fill (w : Width) (a : Word) (i : Nat) :
    (s.setPsw p).fill w a i = (s.fill w a i).setPsw p := by
  simp only [State.fill, State.setPsw_cache, setPsw_busRead, setPsw_busValue, setPsw_modifyLine, setPsw_fillLo,
    setPsw_fillHi]
  split <;> rfl

@[simp] theorem setPsw_readFill (w : Width) (a : Word) :
    (s.setPsw p).readFill w a = (s.readFill w a).setPsw p := by
  simp [State.readFill]

@[simp] theorem setPsw_writeThrough (w : Width) (a v : Word) :
    (s.setPsw p).writeThrough w a v = (s.writeThrough w a v).setPsw p := by
  simp only [State.writeThrough, State.setPsw_writePolicy, setPsw_busWrite]
  split <;> rfl

/-- R28: a `MemRead` does not read the status word. -/
@[simp] theorem setPsw_memRead (w : Width) (a : Word) :
    (s.setPsw p).memRead w a = ((s.memRead w a).1, (s.memRead w a).2.setPsw p) := by
  simp [State.memRead]

/-- R28: a `MemWrite` does not read the status word. -/
@[simp] theorem setPsw_memWrite (w : Width) (a v : Word) :
    (s.setPsw p).memWrite w a v = (s.memWrite w a v).setPsw p := by
  simp [State.memWrite]

@[simp] theorem setPsw_fetch : (s.setPsw p).fetch = s.fetch.setPsw p := by
  simp only [State.fetch, setPsw_memRead, State.setPsw_pc]
  rfl

end

/-! ## The inert fields -/

/-- `s` with the inert fields of the status word `q` (R29). -/
def State.inertFrom (s : State) (q : PSW) : State := withInert s q.slp q.flt q.cur q.prv

/-- Replacing the inert fields is a write of the status word. -/
theorem inertFrom_eq (s : State) (q : PSW) :
    s.inertFrom q = s.setPsw { s.psw with slp := q.slp, flt := q.flt, cur := q.cur, prv := q.prv } := rfl

/-- Between states of one status word the replacement is the same write. -/
theorem inertFrom_of_psw {s t : State} (h : t.psw = s.psw) (q : PSW) :
    t.inertFrom q = t.setPsw (s.inertFrom q).psw := by
  rw [inertFrom_eq, h]; rfl

section
variable (s : State) (q : PSW)

theorem inertFrom_memRead (w : Width) (a : Word) :
    (s.inertFrom q).memRead w a = ((s.memRead w a).1, (s.memRead w a).2.inertFrom q) := by
  rw [inertFrom_of_psw (memRead_frame s w a).psw, inertFrom_eq, setPsw_memRead]
  rfl

theorem inertFrom_memWrite (w : Width) (a v : Word) :
    (s.inertFrom q).memWrite w a v = (s.memWrite w a v).inertFrom q := by
  rw [inertFrom_of_psw (memWrite_frame s w a v).psw, inertFrom_eq, setPsw_memWrite]
  rfl

theorem inertFrom_fetch : (s.inertFrom q).fetch = s.fetch.inertFrom q := by
  obtain ⟨hpsw, -⟩ := fetch_frame s
  rw [inertFrom_of_psw hpsw, inertFrom_eq, setPsw_fetch]
  rfl

theorem inertFrom_x (r : Reg) : (s.inertFrom q).x r = s.x r := State.setPsw_x ..

theorem inertFrom_operand (src : Operand) : (s.inertFrom q).operand src = s.operand src := by
  cases src
  · exact inertFrom_x ..
  · rfl

theorem inertFrom_writeBack (addr other : Reg) (r : Resolved) :
    (s.inertFrom q).writeBack addr other r = (s.writeBack addr other r).inertFrom q := by
  unfold State.writeBack
  split <;> rfl

theorem inertFrom_checkBitIndex (w : Width) (v : Word) :
    (s.inertFrom q).checkBitIndex w v = (s.checkBitIndex w v).inertFrom q := by
  cases w
  · rfl
  · simp only [State.checkBitIndex]
    split <;> rfl

end

/-! ## One instruction and one step -/

/-- An instruction that runs to completion. -/
theorem retire_inertFrom {q : PSW} {t u : State} (h : u = t.inertFrom q) :
    retire u = mapNext (fun t => t.inertFrom q) (retire t) := by
  subst h; rfl

section
variable (s : State) (q : PSW)

/-- No branch condition reads an inert field. -/
theorem branchIf_inertFrom (cond : Bool) (off : BitVec Config.brOffBits) :
    branchIf cond off (s.inertFrom q) = mapNext (fun t => t.inertFrom q) (branchIf cond off s) := by
  apply retire_inertFrom
  split <;> rfl

theorem aluBit_inertFrom (src : Operand) (w : Width) (dst : Reg) :
    (s.inertFrom q).aluBit src w dst = (s.aluBit src w dst).inertFrom q := by
  simp only [State.aluBit, inertFrom_x, inertFrom_operand, inertFrom_checkBitIndex]
  rfl

theorem aluBic_inertFrom (src : Operand) (w : Width) (dst : Reg) :
    (s.inertFrom q).aluBic src w dst = (s.aluBic src w dst).inertFrom q := by
  simp only [State.aluBic, inertFrom_x, inertFrom_operand, inertFrom_checkBitIndex]
  rfl

theorem aluBis_inertFrom (src : Operand) (w : Width) (dst : Reg) :
    (s.inertFrom q).aluBis src w dst = (s.aluBis src w dst).inertFrom q := by
  simp only [State.aluBis, inertFrom_x, inertFrom_operand, inertFrom_checkBitIndex]
  rfl

theorem execLd_inertFrom (m : ModeBits) (w : Width) (src dst : Reg) :
    execLd m w src dst (s.inertFrom q) = mapNext (fun t => t.inertFrom q) (execLd m w src dst s) := by
  simp only [execLd, inertFrom_x, inertFrom_memRead, inertFrom_writeBack]
  split <;> rfl

theorem execSt_inertFrom (m : ModeBits) (w : Width) (src dst : Reg) :
    execSt m w src dst (s.inertFrom q) = mapNext (fun t => t.inertFrom q) (execSt m w src dst s) := by
  simp only [execSt, inertFrom_x, inertFrom_memWrite, inertFrom_writeBack]
  split <;> rfl

theorem execLdr_inertFrom (off : BitVec 7) (w : Width) (src dst : Reg) :
    execLdr off w src dst (s.inertFrom q) = mapNext (fun t => t.inertFrom q) (execLdr off w src dst s) := by
  simp only [execLdr, inertFrom_x, inertFrom_memRead]
  rfl

theorem execStr_inertFrom (off : BitVec 7) (w : Width) (src dst : Reg) :
    execStr off w src dst (s.inertFrom q) = mapNext (fun t => t.inertFrom q) (execStr off w src dst s) := by
  simp only [execStr, inertFrom_x, inertFrom_memWrite]
  rfl

/-- R29: no instruction reads or writes an inert field. The arms closed by `rfl` are those without a case split or an
access to memory: register and status word updates, which commute with the replacement by computation. -/
theorem exec_inertFrom (i : Instr) : exec i (s.inertFrom q) = mapNext (fun t => t.inertFrom q) (exec i s) := by
  cases i with
  | beq off | bne off | bc off | bnc off | bn off | bge off | blt off | bra off => exact branchIf_inertFrom ..
  | bit src w dst => exact retire_inertFrom (aluBit_inertFrom ..)
  | bic src w dst => exact retire_inertFrom (aluBic_inertFrom ..)
  | bis src w dst => exact retire_inertFrom (aluBis_inertFrom ..)
  | ld m w src dst => exact execLd_inertFrom ..
  | st m w src dst => exact execSt_inertFrom ..
  | ldr off w src dst => exact execLdr_inertFrom ..
  | str off w src dst => exact execStr_inertFrom ..
  | bl | add | addc | sub | subc | dadd | cmp | xor | and | or | mov | swap | sra | rrc | swpb | sxt | movl | movlz
  | movls | movh => rfl

/-- R29, R251: no step reads or writes an inert field. -/
theorem step_inertFrom : step (s.inertFrom q) = mapNext (fun t => t.inertFrom q) (step s) := by
  have hst : (s.inertFrom q).stopped = s.stopped := rfl
  have hir : (s.fetch.inertFrom q).ir = s.fetch.ir := rfl
  simp only [step, hst, inertFrom_fetch, hir]
  split
  · rfl
  · split
    · rfl
    · exact exec_inertFrom (s.fetch.tick Config.clkDecode) q _

end

/-- Settles O17: the four values are the inert fields of some status word. -/
theorem inertFieldsNeitherReadNorWritten : Obligations.InertFieldsNeitherReadNorWritten :=
  fun s slp flt cur prv => step_inertFrom s { PSW.reset with slp := slp, flt := flt, cur := cur, prv := prv }

end Sys2Proof.Machine
end

section
/-! PROOFS. Fixed values and layouts of spec 10_state.md: the reset (R38), the constants table (R23) and the status word
(R27). -/

namespace Sys2Proof.Machine

open Sys2Proof

/-! ## The reset -/

/-- R38: every line after a reset is the reset line. -/
theorem Cache.get_reset (n i : Nat) : (Cache.reset n).get i = Line.reset := by
  have h : ∀ l ∈ (Cache.reset n).toList, l = Line.reset := by
    simp [Cache.reset, Cache.toList]
  rw [Cache.get, List.getD_eq_getElem?_getD]
  cases e : (Cache.reset n).toList[i]? with
  | none => rfl
  | some l => exact h l (List.mem_of_getElem? e)

@[simp] theorem Cache.size_reset (n : Nat) : (Cache.reset n).size = n + 1 := by
  simp [Cache.size, Cache.toList, Cache.reset]

theorem resetBlock_size (s : State) (wp : Config.WritePolicy) (org : Config.Organisation) :
    (s.resetBlock wp org).cache.size = s.cache.size := by
  have := s.cache.size_pos
  show (Cache.reset (s.cache.size - 1)).size = _
  rw [Cache.size_reset]
  omega

/-- R38: every line after the reset of a block is the reset line. -/
theorem resetBlock_line (s : State) (wp : Config.WritePolicy) (org : Config.Organisation) (i : Nat) :
    (s.resetBlock wp org).cache.get i = Line.reset := Cache.get_reset ..

/-- R35, R38: a reset leaves no line valid or dirty, so every canonical memory is coherent with it. -/
theorem resetBlock_coherent {s : State} (h : s.mem.wf = true) (wp : Config.WritePolicy) (org : Config.Organisation) :
    (s.resetBlock wp org).Coherent := by
  refine State.Coherent.of_lines h (fun i _ => ?_) (fun i _ j _ hv => ?_)
  · rw [resetBlock_line]
    constructor <;> simp [Line.reset, Line.valid, isOdd]
  · rw [resetBlock_line] at hv
    simp [Line.reset, Line.valid] at hv

/-- R7, R8, R38: the machine's own reset state is a block's reset with the default configuration. -/
theorem reset_eq_resetBlock : State.reset = State.reset.resetBlock .wb .assoc := by
  simp [State.reset, State.resetBlock, Config.defaultWritePolicy, Config.defaultOrganisation]

/-- Settles O14: the reset state is the reset of a block whose main memory lists nothing. -/
theorem resetStateIsCoherent : Obligations.ResetStateIsCoherent := by
  unfold Obligations.ResetStateIsCoherent
  rw [reset_eq_resetBlock]
  exact resetBlock_coherent Memory.wf_reset ..

/-- Settles O16: the registers one by one, the lines by `resetBlock_line`, the rest by the definition of the reset. -/
theorem resetGivesTheTableOfResetValues : Obligations.ResetGivesTheTableOfResetValues := by
  refine ⟨fun s wp org => ⟨fun q => ?_, rfl, rfl, rfl, rfl, rfl, rfl, resetBlock_size .., fun i _ => ?_, rfl⟩,
    reset_eq_resetBlock, Cache.size_reset _⟩
  · cases q <;> rfl
  · exact resetBlock_line ..

/-! ## The constants table (R23) -/

/-- Settles O31: the eight rows of the table. -/
theorem constantsTableHoldsTheEightValues : Obligations.ConstantsTableHoldsTheEightValues := by
  intro s
  simp [State.operand, constTable]

/-! ## The status word (R27) -/

/-- R27: the status word bit by bit. -/
theorem PSW.toWord_getLsbD (p : PSW) {i : Nat} (hi : i < 16) : p.toWord.getLsbD i =
    if i = 0 then p.c else if i = 1 then p.z else if i = 2 then p.n else if i = 3 then p.slp else if i = 4 then p.v
    else if i < 8 then p.cur.getLsbD (i - 5) else if i = 8 then p.flt else if i < 13 then false
    else p.prv.getLsbD (i - 13) := by
  simp only [PSW.toWord, BitVec.getLsbD_append, BitVec.getLsbD_ofBool, BitVec.getLsbD_zero]
  interval_cases i <;> simp

theorem extractLsb'_eq_of_getLsbD {w : Word} {k n : Nat} {f : BitVec n}
    (h : ∀ j < n, w.getLsbD (k + j) = f.getLsbD j) : w.extractLsb' k n = f := by
  apply BitVec.eq_of_getLsbD_eq
  intro j hj
  simp [hj, h j hj]

/-- R27: CUR at bits 7 to 5. -/
theorem PSW.toWord_cur (p : PSW) : p.toWord.extractLsb' 5 3 = p.cur := by
  refine extractLsb'_eq_of_getLsbD fun j hj => ?_
  rw [p.toWord_getLsbD (by omega)]
  interval_cases j <;> rfl

/-- R27: the reserved bits 12 to 9 are zero. -/
theorem PSW.toWord_reserved (p : PSW) : p.toWord.extractLsb' 9 4 = 0 := by
  refine extractLsb'_eq_of_getLsbD fun j hj => ?_
  rw [p.toWord_getLsbD (by omega)]
  interval_cases j <;> rfl

/-- R27: PRV at bits 15 to 13. -/
theorem PSW.toWord_prv (p : PSW) : p.toWord.extractLsb' 13 3 = p.prv := by
  refine extractLsb'_eq_of_getLsbD fun j hj => ?_
  rw [p.toWord_getLsbD (by omega)]
  interval_cases j <;> rfl

/-- R27: reading the status word back from its layout. -/
theorem PSW.ofWord_toWord (p : PSW) : PSW.ofWord p.toWord = p := by
  simp (disch := decide) only [PSW.ofWord, PSW.toWord_getLsbD, PSW.toWord_cur, PSW.toWord_prv]
  rfl

/-- Settles O57: the single bits by `toWord_getLsbD`, the fields and the reading back by their own lemmas. -/
theorem statusWordLayout : Obligations.StatusWordLayout := by
  intro p
  have bit := @PSW.toWord_getLsbD p
  exact ⟨bit (by decide), bit (by decide), bit (by decide), bit (by decide), bit (by decide), p.toWord_cur,
    bit (by decide), p.toWord_reserved, p.toWord_prv, p.ofWord_toWord⟩

end Sys2Proof.Machine
end

section
/-! PROOFS. The recency counters (spec 20_memory.md R66): every access of the cache controller touches one line, the one
that then holds the word, and a touch keeps the counters told apart. -/

namespace Sys2Proof.Machine

open Sys2Proof Sys2Proof.Claim

/-! ## What the stages of an access leave of a line -/

/-- Replacing a line keeps whatever the replacement keeps of it, in every line. -/
theorem Cache.get_modify_keeps {α : Type} (g : Line → α) {f : Line → Line} (hf : ∀ l, g (f l) = g l) {c : Cache}
    {j : Nat} (hj : j < c.size) (i : Nat) : g ((c.modify i f).get j) = g (c.get j) := by
  rw [Cache.get_modify hj]
  split
  · exact hf _
  · rfl

/-- R65, R70, R71: giving the victim a new tag leaves every counter. -/
theorem locate_age (s : State) (t : Word) {j : Nat} (hj : j < s.cache.size) :
    ((s.locate t).cache.get j).age = (s.cache.get j).age := by
  unfold State.locate
  split
  · rfl
  · simp only [State.install, State.evict, State.modifyLine_cache, flush_cache]
    exact (Cache.get_modify_keeps Line.age (by intro; rfl) (by simpa using hj) _).trans
      (Cache.get_modify_keeps Line.age (by intro; rfl) hj _)

/-- R70, R71: the line an access uses has the word address as its tag. -/
theorem locate_tag (s : State) (t : Word) : ((s.locate t).cache.get (s.lineFor t)).tag = t := by
  unfold State.locate State.lineFor
  cases hf : s.cache.find t with
  | some i =>
    obtain ⟨-, -, htag⟩ := Cache.find_some hf
    exact htag
  | none =>
    have hv := s.victim_lt t
    simp [State.install, State.evict, Cache.get_modify, hv]

/-- The two fields of a line that neither a fill nor a store changes. -/
def Line.label (l : Line) : Word × Nat := (l.tag, l.age)

section
variable (s : State) (w : Width) (a : Word) (i : Nat) {j : Nat}

theorem fillLo_label (hj : j < s.cache.size) :
    ((s.fillLo w a i).cache.get j).label = (s.cache.get j).label := by
  unfold State.fillLo
  split
  · rw [State.modifyLine_cache, busRead_cache]
    exact Cache.get_modify_keeps Line.label (by intro; rfl) hj i
  · rfl

theorem fillHi_label (hj : j < s.cache.size) :
    ((s.fillHi w a i).cache.get j).label = (s.cache.get j).label := by
  unfold State.fillHi
  split
  · rw [State.modifyLine_cache, busRead_cache]
    exact Cache.get_modify_keeps Line.label (by intro; rfl) hj i
  · rfl

/-- R70: a fill leaves the tag and the counter of every line. -/
theorem fill_label (hj : j < s.cache.size) : ((s.fill w a i).cache.get j).label = (s.cache.get j).label := by
  unfold State.fill
  split
  · rw [State.modifyLine_cache, busRead_cache]
    exact Cache.get_modify_keeps Line.label (by intro; rfl) hj i
  · rw [fillHi_label _ w a i (by rwa [(fillLo_frame s w a i).size]), fillLo_label s w a i hj]

end

/-- R71: a store leaves the tag and the counter of its line. -/
theorem store_label (l : Line) (w : Width) (a v : Word) (d : Bool) : (l.store w a v d).label = l.label := by
  cases w
  · rfl
  · simp only [Line.store]
    split <;> rfl

/-! ## One touch -/

/-- R66: from `s` to `t` line `i`, which then has the tag `a`, was touched once and no other line. -/
structure Touches (s t : State) (a : Word) (i : Nat) : Prop where
  lt : i < s.cache.size
  size : t.cache.size = s.cache.size
  tag : (t.cache.get i).tag = a
  age : ∀ j < s.cache.size, (t.cache.get j).age =
    if j = i then s.cache.maxAge
    else if (s.cache.get i).age < (s.cache.get j).age then (s.cache.get j).age - 1 else (s.cache.get j).age

/-- A touch at the end of stages that leave every counter. -/
theorem Touches.of_touch {s u : State} {a : Word} {i : Nat} (hi : i < s.cache.size) (hz : u.cache.size = s.cache.size)
    (htag : (u.cache.get i).tag = a) (hage : ∀ j < s.cache.size, (u.cache.get j).age = (s.cache.get j).age) :
    Touches s (u.touch i) a i := by
  refine ⟨hi, by simpa using hz, ?_, fun j hj => ?_⟩
  · rw [State.touch_cache, Cache.get_touch (hz ▸ hi)]
    exact htag
  · rw [State.touch_cache, Cache.get_touch (hz ▸ hj), hage j hj, hage i hi, Cache.maxAge, hz]
    rfl

theorem checkAlign_locate_age (s : State) (w : Width) (a t : Word) {j : Nat} (hj : j < s.cache.size) :
    (((s.checkAlign w a).locate t).cache.get j).age = (s.cache.get j).age := by
  rw [locate_age _ _ (by simpa using hj), checkAlign_cache]

theorem checkAlign_locate_size (s : State) (w : Width) (a t : Word) :
    ((s.checkAlign w a).locate t).cache.size = s.cache.size :=
  ((checkAlign_frame s w a).trans (locate_frame _ t)).size

theorem checkAlign_locate_tag (s : State) (w : Width) (a t : Word) :
    (((s.checkAlign w a).locate t).cache.get (s.lineFor t)).tag = t := by
  rw [← checkAlign_lineFor s w a t, locate_tag]

theorem memRead_touches (s : State) (w : Width) (a : Word) :
    Touches s (s.memRead w a).2 (wordAddr a) (s.lineFor (wordAddr a)) := by
  have hi := s.lineFor_lt (wordAddr a)
  have hz := checkAlign_locate_size s w a (wordAddr a)
  have hlabel : ∀ j < s.cache.size, ((s.readFill w a).cache.get j).label =
      (((s.checkAlign w a).locate (wordAddr a)).cache.get j).label :=
    fun j hj => fill_label _ w a _ (hz.symm ▸ hj)
  exact .of_touch hi (readFill_frame s w a).size
    ((congrArg Prod.fst (hlabel _ hi)).trans (checkAlign_locate_tag ..))
    (fun j hj => (congrArg Prod.snd (hlabel j hj)).trans (checkAlign_locate_age s w a _ hj))

theorem memWrite_touches (s : State) (w : Width) (a v : Word) :
    Touches s (s.memWrite w a v) (wordAddr a) (s.lineFor (wordAddr a)) := by
  have hi := s.lineFor_lt (wordAddr a)
  have hz := checkAlign_locate_size s w a (wordAddr a)
  have hlabel : ∀ j < s.cache.size,
      (((((s.checkAlign w a).locate (wordAddr a)).modifyLine (s.lineFor (wordAddr a))
        (fun l => l.store w a v (dirtyOnWrite s.writePolicy))).writeThrough w a v).cache.get j).label =
      (((s.checkAlign w a).locate (wordAddr a)).cache.get j).label := fun j hj => by
    rw [writeThrough_cache, State.modifyLine_cache,
      Cache.get_modify_keeps Line.label (fun l => store_label ..) (hz.symm ▸ hj)]
  exact .of_touch hi (by simpa using hz)
    ((congrArg Prod.fst (hlabel _ hi)).trans (checkAlign_locate_tag ..))
    (fun j hj => (congrArg Prod.snd (hlabel j hj)).trans (checkAlign_locate_age s w a _ hj))

/-- Settles O23: both accesses end in a touch of the line that holds the word. -/
theorem everyAccessTouchesOneLine : Obligations.EveryAccessTouchesOneLine := by
  intro s t w a v ht
  have key : Touches s t (wordAddr a) (s.lineFor (wordAddr a)) := by
    rcases ht with rfl | rfl
    · exact memRead_touches s w a
    · exact memWrite_touches s w a v
  refine ⟨_, key.lt, key.tag, by rw [key.age _ key.lt, if_pos rfl]; rfl, fun j hj hji => ?_⟩
  rw [key.age j hj, if_neg hji]

/-! ## Counters told apart -/

/-- R66: a touch keeps the counters told apart. Line `i` alone gets `MAX_AGE`, since a counter at `MAX_AGE` already is
line `i`'s or drops; and a counter that drops to the prior counter `p` of line `i` meets no other line's, since `p` was
line `i`'s own or 0. -/
theorem Touches.agesDistinct {s t : State} {a : Word} {i : Nat} (h : Touches s t a i) (hs : s.Coherent)
    (hd : AgesDistinct s) : AgesDistinct t := by
  intro j hj k hk
  rw [h.size] at hj hk
  rw [h.age j hj, h.age k hk]
  have hbi := hs.ageBound i h.lt
  have hbj := hs.ageBound j hj
  have hbk := hs.ageBound k hk
  have hjk := hd j hj k hk
  have hij := hd i h.lt j hj
  have hik := hd i h.lt k hk
  split_ifs <;> omega

theorem agesDistinct_congr {s t : State} (h : AgesDistinct s) (hc : t.cache = s.cache) : AgesDistinct t := by
  unfold AgesDistinct
  rwa [hc]

theorem fetch_agesDistinct {s : State} (hs : s.Coherent) (hd : AgesDistinct s) : AgesDistinct s.fetch :=
  agesDistinct_congr ((memRead_touches s .word s.pc).agesDistinct hs hd) rfl

theorem Access.agesDistinct {i : Instr} {s u : State} (h : Access i s u) (hs : s.Coherent) (hd : AgesDistinct s) :
    AgesDistinct u := by
  cases h with
  | none => exact hd
  | read w a => exact (memRead_touches s w a).agesDistinct hs hd
  | write _ w a v => exact (memWrite_touches s w a v).agesDistinct hs hd

/-- Settles O29: the fetch and the access of an instruction are touches, and the rest leaves the cache. -/
theorem stepKeepsAgesDistinct : Obligations.StepKeepsAgesDistinct := by
  intro s t hs hd h
  have hf := fetch_agesDistinct hs hd
  rcases step_parts h with ⟨-, rfl⟩ | rfl | ⟨i, u, -, ha, hl⟩
  · exact hd
  · exact agesDistinct_congr hf rfl
  · have hu : AgesDistinct u := ha.agesDistinct (tick_coherent (fetch_coherent hs) _) (agesDistinct_congr hf rfl)
    exact agesDistinct_congr hu hl.cache

/-- R66: a touched line has a counter above every other line's, where the counters are told apart. -/
theorem Touches.age_lt {s t : State} {a : Word} {i j : Nat} (h : Touches s t a i) (hs : s.Coherent)
    (hd : AgesDistinct s) (hsize : 1 < s.cache.size) (hj : j < s.cache.size) (hji : j ≠ i) :
    (t.cache.get j).age < (t.cache.get i).age := by
  have hmax : s.cache.maxAge = s.cache.size - 1 := rfl
  have hb := hs.ageBound j hj
  have hij := hd i h.lt j hj
  have hbi := hs.ageBound i h.lt
  rw [h.age i h.lt, if_pos rfl, h.age j hj, if_neg hji]
  split_ifs <;> omega

/-- Settles O30: the victim has the lowest counter, and with a second line that is not the touched line's. -/
theorem justTouchedLineIsNotTheNextVictim : Obligations.JustTouchedLineIsNotTheNextVictim := by
  intro s i t hs hd ho hsize hi
  have htouch : Touches s (s.touch i) (s.cache.get i).tag i := .of_touch hi rfl rfl (fun _ _ => rfl)
  have hlt := (s.touch i).victim_lt t
  have hv : (s.touch i).victim t = (s.touch i).cache.victimAssoc := by simp [State.victim, ho]
  obtain ⟨hle, hbefore⟩ := (s.touch i).cache.victimAssoc_spec
  rw [← hv] at hle hbefore
  rw [htouch.size] at hle hlt
  refine ⟨fun hvi => ?_, hlt, fun j hj => ?_⟩
  · obtain ⟨j, hj, hji⟩ : ∃ j < s.cache.size, j ≠ i := by
      by_cases h0 : i = 0
      · exact ⟨1, hsize, by omega⟩
      · exact ⟨0, by omega, Ne.symm h0⟩
    have hlow := hle j hj
    rw [hvi] at hlow
    exact absurd (htouch.age_lt hs hd hsize hj hji) (by omega)
  · rcases Nat.lt_or_ge j ((s.touch i).victim t) with hjv | hjv
    · exact .inl (hbefore j hjv)
    · have := hle j hj
      omega

end Sys2Proof.Machine
end

section
/-! PROOFS. The MemoryBus, eviction and main memory (spec 20_memory.md R52, R65, R73, R74): what each bus operation
leaves in main memory and on the bus, and when a stored byte gets to main memory. -/

namespace Sys2Proof.Machine

open Sys2Proof Sys2Proof.Claim

/-! ## The bus primitives (R52) -/

/-- A bus write leaves in main memory what a write-through of the same store does: both use the aligned address. -/
theorem busWrite_memByte {s : State} (h : s.mem.wf = true) (w : Width) (a v b : Word) :
    (s.busWrite w a v).memByte b = if storedAt w a b then storedByte w b v else s.memByte b := by
  have hmem : (s.busWrite w a v).mem = (({ s with writePolicy := .wt } : State).writeThrough w a v).mem := by
    cases w <;> simp [State.writeThrough, busWrite_mem, alignAddr]
  obtain ⟨-, hwt⟩ := writeThrough_memByte (s := { s with writePolicy := .wt }) h w a v b
  simp only [true_and] at hwt
  calc (s.busWrite w a v).memByte b = (({ s with writePolicy := .wt } : State).writeThrough w a v).memByte b := by
        rw [State.memByte, hmem, State.memByte]
    _ = if storedAt w a b then storedByte w b v else s.memByte b := hwt

theorem busRead_diags (s : State) (w : Width) (a : Word) : (s.busRead w a).diags = s.diags ++ alignReport w a :=
  checkAlign_diags s w a

theorem busWrite_diags (s : State) (w : Width) (a v : Word) :
    (s.busWrite w a v).diags = s.diags ++ alignReport w a := by
  rw [alignReport, ← checkAlign_diags]
  cases w <;> rfl

/-- Settles O21: a bus read leaves main memory, a bus write is `busWrite_memByte`. -/
theorem busPrimitivesReadAndWriteMainMemory : Obligations.BusPrimitivesReadAndWriteMainMemory :=
  ⟨fun _ _ => ⟨rfl, rfl⟩,
    fun s w a => ⟨busRead_mem s w a, (busRead_frame s w a).clk, busRead_diags s w a⟩,
    fun s w a v b h => ⟨busWrite_memByte h w a v b, (busWrite_frame s w a v).clk, busWrite_diags s w a v⟩⟩

@[simp] theorem busRead_bus (s : State) (w : Width) (a : Word) : (s.busRead w a).bus = s.bus ++ [.read a w] := by
  simp [State.busRead]

@[simp] theorem busWrite_bus_word (s : State) (a v : Word) :
    (s.busWrite .word a v).bus = s.bus ++ [.write a .word v] := by
  simp [State.busWrite]

@[simp] theorem busWrite_bus_byte (s : State) (a : Word) (b : Byte) :
    (s.busWrite .byte a (byteWord b)).bus = s.bus ++ [.write a .byte (byteWord b)] := by
  simp [State.busWrite]

/-! ## Eviction (R65) -/

/-- R65: the bus transactions of evicting line `i` under the policy. -/
def State.evictTxns (s : State) (i : Nat) : List BusTxn :=
  match s.writePolicy with
  | .wb => flushTxns (s.cache.get i)
  | .wt => []

/-- R65: what a flush issues on the bus. -/
theorem flush_bus (s : State) (i : Nat) : (s.flush i).bus = s.bus ++ s.evictTxns i := by
  cases hw : s.writePolicy with
  | wt => simp [State.flush, State.evictTxns, hw]
  | wb =>
    cases hlo : (s.cache.get i).dlo <;> cases hhi : (s.cache.get i).dhi <;>
      simp [State.flush, State.evictTxns, flushTxns, hw, hlo, hhi]

/-- The two addresses of the word at an even address. -/
theorem wordAddr_eq_iff {t b : Word} (ht : isOdd t = false) : wordAddr b = t ↔ b = t ∨ b = t + 1#16 := by
  constructor
  · rintro rfl
    cases hb : isOdd b
    · exact .inl (wordAddr_of_even hb).symm
    · exact .inr (wordAddr_add_one_of_odd hb).symm
  · rintro (rfl | rfl)
    · exact wordAddr_of_even ht
    · exact wordAddr_succ ht

/-- R51: main memory after a bus write of a word at an even address. -/
theorem busWrite_memByte_word {s : State} (h : s.mem.wf = true) {t : Word} (ht : isOdd t = false) (hi lo : Byte)
    (b : Word) : (s.busWrite .word t (joinBytes hi lo)).memByte b =
      if b = t then lo else if b = t + 1#16 then hi else s.memByte b := by
  rw [busWrite_memByte h]
  simp only [storedAt, storedByte, wordAddr_of_even ht, beq_iff_eq, wordAddr_eq_iff ht]
  by_cases hb : b = t
  · simp [hb, ht]
  · by_cases hb' : b = t + 1#16
    · simp [hb', even_succ_odd ht, even_succ_ne ht ht]
    · simp [hb, hb']

/-- R51: main memory after a bus write of a byte. -/
theorem busWrite_memByte_byte {s : State} (h : s.mem.wf = true) (a : Word) (v : Byte) (b : Word) :
    (s.busWrite .byte a (byteWord v)).memByte b = if b = a then v else s.memByte b := by
  rw [busWrite_memByte h]
  simp [storedAt, storedByte]

/-- R65: the byte at `b` of main memory once the dirty bytes of line `i` are written under the policy. -/
def State.flushedByte (s : State) (i : Nat) (b : Word) : Byte :=
  let l := s.cache.get i
  if s.writePolicy = .wb ∧ l.dlo = true ∧ b = l.tag then l.lo
  else if s.writePolicy = .wb ∧ l.dhi = true ∧ b = l.tag + 1#16 then l.hi
  else s.memByte b

/-- R65: main memory after a flush. -/
theorem flush_memByte {s : State} (h : s.mem.wf = true) {i : Nat} (ht : isOdd (s.cache.get i).tag = false)
    (b : Word) : (s.flush i).memByte b = s.flushedByte i b := by
  cases hw : s.writePolicy with
  | wt => simp [State.flush, State.flushedByte, hw]
  | wb =>
    cases hlo : (s.cache.get i).dlo <;> cases hhi : (s.cache.get i).dhi <;>
      simp [State.flush, State.flushedByte, hw, hlo, hhi, busWrite_memByte_word h ht, busWrite_memByte_byte h]

@[simp] theorem evict_cache (s : State) (i : Nat) : (s.evict i).cache = s.cache.modify i Line.invalidate := by
  simp [State.evict]

theorem evict_bus (s : State) (i : Nat) : (s.evict i).bus = s.bus ++ s.evictTxns i := flush_bus s i

theorem evict_memByte {s : State} (h : s.mem.wf = true) {i : Nat} (ht : isOdd (s.cache.get i).tag = false)
    (b : Word) : (s.evict i).memByte b = s.flushedByte i b := flush_memByte h ht b

/-- Settles O24: the flush gives the bus and main memory, the invalidation of one line the cache. -/
theorem evictionFlushesExactlyTheDirtyBytes : Obligations.EvictionFlushesExactlyTheDirtyBytes := by
  intro s i h hi ht
  refine ⟨evict_bus s i, evict_memByte h ht, ?_, fun j hj hji => ?_⟩
  · rw [evict_cache, Cache.get_modify hi, if_pos rfl]
    rfl
  · rw [evict_cache, Cache.get_modify hj, if_neg hji]

/-- R65: an eviction changes main memory in the word of the line's tag only. -/
theorem evict_memByte_other {s : State} (h : s.mem.wf = true) {i : Nat} (ht : isOdd (s.cache.get i).tag = false)
    {b : Word} (hb : wordAddr b ≠ (s.cache.get i).tag) : (s.evict i).memByte b = s.memByte b := by
  rw [Ne, wordAddr_eq_iff ht, not_or] at hb
  obtain ⟨hlo, hhi⟩ := hb
  rw [evict_memByte h ht, State.flushedByte, if_neg (fun e => hlo e.2.2), if_neg (fun e => hhi e.2.2)]

/-- R65: the eviction of a clean line leaves main memory. -/
theorem evict_memByte_clean {s : State} (h : s.mem.wf = true) {i : Nat} (ht : isOdd (s.cache.get i).tag = false)
    (hlo : (s.cache.get i).dlo = false) (hhi : (s.cache.get i).dhi = false) (b : Word) :
    (s.evict i).memByte b = s.memByte b := by
  simp [evict_memByte h ht, State.flushedByte, hlo, hhi]

/-! ## A read miss (R70) -/

/-- R70: a fill of a line that holds neither byte is one bus read, of the access's own width and address. -/
theorem fill_bus_of_invalid (s : State) (w : Width) (a : Word) {i : Nat} (hlo : (s.cache.get i).vlo = false)
    (hhi : (s.cache.get i).vhi = false) : (s.fill w a i).bus = s.bus ++ [.read (alignAddr w a) w] := by
  cases w with
  | word => simp [State.fill, hlo, hhi, alignAddr]
  | byte =>
    cases ho : isOdd a
    · simp [State.fill, State.fillLo, State.fillHi, needsLo, needsHi, ho, hlo, alignAddr, wordAddr_of_even ho]
    · simp [State.fill, State.fillLo, State.fillHi, needsLo, needsHi, ho, hhi, alignAddr, wordAddr_add_one_of_odd ho]

/-- Settles O25: on a miss the victim is evicted first, which leaves it without a valid byte for the fill. -/
theorem readMissFlushesBeforeItReads : Obligations.ReadMissFlushesBeforeItReads := by
  intro s w a _ hf
  have hv := s.victim_lt (wordAddr a)
  have hline : s.lineFor (wordAddr a) = s.victim (wordAddr a) := by simp [State.lineFor, hf]
  have hvictim : (s.checkAlign w a).victim (wordAddr a) = s.victim (wordAddr a) := by
    simp [State.victim, (checkAlign_frame s w a).organisation]
  have hlocate : (s.checkAlign w a).locate (wordAddr a) =
      (s.checkAlign w a).install (wordAddr a) (s.victim (wordAddr a)) := by
    simp [State.locate, hf, hvictim]
  have hbus : ((s.checkAlign w a).install (wordAddr a) (s.victim (wordAddr a))).bus =
      s.bus ++ s.evictTxns (s.victim (wordAddr a)) := by
    rw [State.install, State.modifyLine_bus, evict_bus, checkAlign_bus, State.evictTxns, checkAlign_cache,
      (checkAlign_frame s w a).writePolicy, State.evictTxns]
  show (((s.checkAlign w a).locate (wordAddr a)).fill w a (s.lineFor (wordAddr a))).bus =
    s.bus ++ s.evictTxns (s.victim (wordAddr a)) ++ _
  rw [hlocate, hline, fill_bus_of_invalid, hbus] <;>
    simp [State.install, Cache.get_modify, hv, Line.invalidate]

/-! ## When a stored byte is in main memory (R73, R74) -/

/-- R71, R73: main memory after a `MemWrite`: the stored bytes under write-through, otherwise what it was when the line
was located. -/
theorem memWrite_memByte {s : State} (h : s.Coherent) (w : Width) (a v b : Word) :
    (s.memWrite w a v).memByte b =
      if s.writePolicy = .wt ∧ storedAt w a b = true then storedByte w b v
      else ((s.checkAlign w a).locate (wordAddr a)).memByte b := by
  obtain ⟨hlocate, -⟩ := locate_spec (checkAlign_coherent h w a) (wordAddr_even a)
  have hpol : ((s.checkAlign w a).locate (wordAddr a)).writePolicy = s.writePolicy :=
    hlocate.frame.writePolicy.trans (checkAlign_frame s w a).writePolicy
  obtain ⟨-, hthrough⟩ := writeThrough_memByte
    (s := ((s.checkAlign w a).locate (wordAddr a)).modifyLine (s.lineFor (wordAddr a))
      (fun l => l.store w a v (dirtyOnWrite s.writePolicy))) hlocate.coherent.memory w a v b
  rw [State.modifyLine_writePolicy, hpol] at hthrough
  exact hthrough

/-- Settles O26: the write-through of the store is a bus write of its bytes. -/
theorem writeThroughIsImmediatelyInMainMemory : Obligations.WriteThroughIsImmediatelyInMainMemory := by
  intro s w a v b hs hw hb
  rw [memWrite_memByte hs, if_pos ⟨hw, hb⟩]

/-- R35, R65: locating the line of a word leaves main memory in that word: on a miss the victim, if it has a dirty
byte, is a line of another word. -/
theorem locate_memByte {s : State} (h : s.Coherent) {t b : Word} (hb : wordAddr b = t) :
    (s.locate t).memByte b = s.memByte b := by
  unfold State.locate
  cases hf : s.cache.find t with
  | some i => rfl
  | none =>
    have hi := s.victim_lt t
    have ok := h.lineOk hi
    show (s.evict (s.victim t)).memByte b = _
    cases hv : (s.cache.get (s.victim t)).valid
    · simp only [Line.valid, Bool.or_eq_false_iff] at hv
      obtain ⟨hvlo, hvhi⟩ := hv
      exact evict_memByte_clean h.memory ok.tagEven (Bool.eq_false_iff.2 fun e => by simp [ok.dirtyLo e] at hvlo)
        (Bool.eq_false_iff.2 fun e => by simp [ok.dirtyHi e] at hvhi) b
    · exact evict_memByte_other h.memory ok.tagEven fun e => Cache.find_none hf hi ⟨hv, e.symm.trans hb⟩

/-- R65, R85: after the eviction of the line that holds a word, main memory has the bytes of the word a program sees:
the program sees no eviction, and no other line can hold the word. -/
theorem evict_memByte_eq_archByte {s : State} (h : s.Coherent) {i : Nat} (hi : i < s.cache.size)
    (hv : (s.cache.get i).valid = true) {b : Word} (ht : (s.cache.get i).tag = wordAddr b) :
    (s.evict i).memByte b = s.archByte b := by
  obtain ⟨hs, -⟩ := evict_spec h hi
  rw [← hs.arch b, State.archByte_uncached]
  intro j u hj
  have hvalid := hj.valid
  obtain ⟨hlt, htag, -⟩ := hj
  rw [hs.frame.size] at hlt
  rw [evict_cache, Cache.get_modify hlt] at hvalid htag
  by_cases hji : j = i
  · simp [hji, Line.invalidate, Line.valid] at hvalid
  · rw [if_neg hji] at hvalid htag
    exact hji (h.uniqueTags j hlt i hi hvalid hv (htag.trans ht.symm))

/-- Settles O27: a program sees the stored bytes after the write, so main memory has them after the eviction. -/
theorem writeBackReachesMainMemoryAtEviction : Obligations.WriteBackReachesMainMemoryAtEviction := by
  intro s w a v i hs hw hf
  obtain ⟨hc, harch, -⟩ := memWrite_spec hs w a v
  obtain ⟨hi, hv, htag⟩ := Cache.find_some hf
  refine ⟨fun b hb => ⟨?_, ?_⟩, fun b hb => ?_⟩
  · rw [memWrite_memByte hs, if_neg (by simp [hw]), locate_memByte (checkAlign_coherent hs w a) (storedAt_wordAddr hb),
      checkAlign_memByte]
  · rw [evict_memByte_eq_archByte hc hi hv (htag.trans (storedAt_wordAddr hb).symm), harch, if_pos hb]
  · exact evict_memByte_other hc.memory (hc.tagEven i hi) (by rwa [htag])

end Sys2Proof.Machine
end

section
/-! PROOFS. Hits, resets and stored words (spec 20_memory.md R71, R72, R83, R84): a hit uses no bus, a reset drops what
was dirty, and a fetch reads what ST stored. -/

namespace Sys2Proof.Machine

open Sys2Proof Sys2Proof.Claim

/-! ## Hits (R71, R72) -/

/-- R53: the report of an access is its only effect. -/
theorem checkAlign_eq (s : State) (w : Width) (a : Word) :
    s.checkAlign w a = { s with diags := s.diags ++ alignReport w a } := by
  cases w
  · cases ho : isOdd a <;> simp [State.checkAlign, State.report, alignReport, Diag.fatal, ho]
  · simp [State.checkAlign, alignReport]

/-- R70, R71: a line that is found stays where it is. -/
theorem locate_of_find {s : State} {t : Word} {i : Nat} (h : s.cache.find t = some i) : s.locate t = s := by
  simp [State.locate, h]

theorem lineFor_of_find {s : State} {t : Word} {i : Nat} (h : s.cache.find t = some i) : s.lineFor t = i := by
  simp [State.lineFor, h]

/-- R70: a fill of a line that has every byte the read needs does nothing. -/
theorem fill_of_valid {s : State} {w : Width} {a : Word} {i : Nat}
    (hlo : needsLo w a = true → (s.cache.get i).vlo = true) (hhi : needsHi w a = true → (s.cache.get i).vhi = true) :
    s.fill w a i = s := by
  have hl : s.fillLo w a i = s := by
    rw [State.fillLo, if_neg]
    simpa using hlo
  have hh : s.fillHi w a i = s := by
    rw [State.fillHi, if_neg]
    simpa using hhi
  rw [State.fill, if_neg, hl, hh]
  cases w
  · simp [hlo rfl]
  · simp

/-- R72: a read hit is the report of its address and a touch. -/
theorem memRead_of_hit {s : State} {w : Width} {a : Word} {i : Nat} (hf : s.cache.find (wordAddr a) = some i)
    (hlo : needsLo w a = true → (s.cache.get i).vlo = true) (hhi : needsHi w a = true → (s.cache.get i).vhi = true) :
    (s.memRead w a).2 = (s.checkAlign w a).touch i := by
  have hfill : s.readFill w a = s.checkAlign w a := by
    rw [State.readFill, locate_of_find (by rwa [checkAlign_cache]), lineFor_of_find hf, fill_of_valid] <;> simpa
  rw [State.memRead, hfill, lineFor_of_find hf]

/-- Settles O22: a touch changes the cache only, and there the counters. -/
theorem readHitChangesOnlyAges : Obligations.ReadHitChangesOnlyAges := by
  intro s w a i hf hlo hhi
  refine ⟨s.cache.touch i, ?_, Cache.size_touch .., fun j hj => ?_⟩
  · rw [memRead_of_hit hf hlo hhi, checkAlign_eq]
    rfl
  · rw [Cache.get_touch hj]

/-- R71: a byte write hit is a store into the line, the write-through and a touch. -/
theorem memWrite_byte_of_hit {s : State} {a : Word} {i : Nat} (hf : s.cache.find (wordAddr a) = some i) (v : Word) :
    s.memWrite .byte a v =
      ((s.modifyLine i (fun l => l.store .byte a v (dirtyOnWrite s.writePolicy))).writeThrough .byte a v).touch i := by
  rw [State.memWrite, checkAlign_byte, locate_of_find hf, lineFor_of_find hf]

/-- R71: the line of a byte write hit afterwards: the store, and a new counter. -/
theorem memWrite_byte_line {s : State} {a : Word} {i : Nat} (hf : s.cache.find (wordAddr a) = some i) (v : Word) :
    ∃ n, (s.memWrite .byte a v).cache.get i =
      { (s.cache.get i).store .byte a v (dirtyOnWrite s.writePolicy) with age := n } := by
  obtain ⟨hi, -, -⟩ := Cache.find_some hf
  rw [memWrite_byte_of_hit hf, State.touch_cache, Cache.get_touch (by simpa using hi), writeThrough_cache,
    State.modifyLine_cache, Cache.get_modify hi, if_pos rfl]
  exact ⟨_, rfl⟩

/-- Settles O28: a byte store changes one byte of the line with its flags, and under write-back nothing else follows. -/
theorem byteWriteHitLeavesTheSiblingByte : Obligations.ByteWriteHitLeavesTheSiblingByte := by
  intro s a v i hf
  obtain ⟨n, hline⟩ := memWrite_byte_line hf v
  refine ⟨fun ho => ?_, fun ho => ?_, fun hw => ?_⟩
  · rw [hline]
    simp [Line.store, ho]
  · rw [hline]
    simp [Line.store, ho]
  · rw [memWrite_byte_of_hit hf]
    simp [State.writeThrough, hw]

/-! ## Reset (R84, R270) -/

theorem resetBlock_agesDistinct (s : State) (wp : Config.WritePolicy) (org : Config.Organisation) :
    AgesDistinct (s.resetBlock wp org) := by
  intro i _ j _ _
  rw [resetBlock_line]
  exact .inr rfl

/-- R84: after a reset no line holds a byte, so a program sees main memory. -/
theorem resetBlock_archByte (s : State) (wp : Config.WritePolicy) (org : Config.Organisation) (b : Word) :
    (s.resetBlock wp org).archByte b = s.memByte b := by
  refine State.archByte_uncached fun i v hi => ?_
  have hvalid := hi.valid
  rw [resetBlock_line] at hvalid
  simp [Line.reset, Line.valid] at hvalid

/-- Settles O15: every line of the reset cache is invalid and of age 0. -/
theorem resetMakesCoherentAndDropsDirtyBytes : Obligations.ResetMakesCoherentAndDropsDirtyBytes :=
  fun s wp org h => ⟨resetBlock_coherent h wp org, resetBlock_agesDistinct s wp org, resetBlock_archByte s wp org⟩

/-! ## Fetching a stored word (R83) -/

/-- R51, R71: after a word `MemWrite` a program sees the stored word at the address. -/
theorem memWrite_archWord {s : State} (h : s.Coherent) (a v : Word) : (s.memWrite .word a v).archWord a = v := by
  obtain ⟨-, harch, -⟩ := memWrite_spec h .word a v
  have heven := wordAddr_even a
  simp [State.archWord, harch, storedAt, storedByte, wordAddr_succ heven, even_succ_odd heven]

/-- R144: an ST in a legal mode is a `MemWrite` at the effective address, beside registers and the clock. -/
theorem execSt_local {m : ModeBits} {w : Width} {src dst : Reg} {r : Resolved} {s t : State}
    (hr : resolveIndexed m w (s.x dst) = some r) (h : exec (.st m w src dst) s = .next t) :
    Local (.st m w src dst) (s.memWrite w r.ea (s.x src)) t := by
  have hexec : exec (.st m w src dst) s = retire ((s.memWrite w r.ea (s.x src)).writeBack dst src r) := by
    simp only [exec, execSt, hr]
  obtain rfl : _ = t := Host.Outcome.next.inj (hexec.symm.trans h)
  exact ((Local.refl _ _).writeBack ..).tick _

/-- Settles O54: the fetch reads through the cache the word the program sees, which is the stored one. -/
theorem storedWordIsFetched : Obligations.StoredWordIsFetched := by
  intro m src dst r s t hs hr h
  have hl := execSt_local hr h
  obtain ⟨hw, -, -⟩ := memWrite_spec hs .word r.ea (s.x src)
  obtain ⟨hir, -, -, -⟩ := fetch_spec (setX_coherent (hl.coherent hw) .r7 r.ea)
  have hpc : (t.setX .r7 r.ea).pc = r.ea := State.setX_x_same ..
  calc (t.setX .r7 r.ea).fetch.ir = (t.setX .r7 r.ea).archWord r.ea := by rw [hir, hpc]
    _ = (s.memWrite .word r.ea (s.x src)).archWord r.ea := by simp [State.archWord, hl.archByte]
    _ = s.x src := memWrite_archWord hs ..

end Sys2Proof.Machine
end


section
/-! PROOFS. The decision tree (spec 30_encoding.md R110) against the encoder (R103): every word is the encoding of the
instruction it decodes to, or one of the table of R112. -/

namespace Sys2Proof

open Sys2Proof.Machine Sys2Proof.Claim

/-! ## Fields of a word as numbers (R102 to R108) -/

@[simp] theorem regBits_dstField (w : Word) : (regBits (dstField w)).toNat = w.toNat % 8 := by
  rw [dstField, regBits_regOfBits, field_toNat]; simp

@[simp] theorem regBits_srcField (w : Word) : (regBits (srcField w)).toNat = w.toNat / 8 % 8 := by
  rw [srcField, regBits_regOfBits]; exact field_toNat w 3 3

@[simp] theorem widthBit_widthField (w : Word) : (widthBit (widthField w)).toNat = w.toNat / 64 % 2 := by
  rw [widthField, bit_eq]
  rcases Nat.mod_two_eq_zero_or_one (w.toNat / 64) with h | h <;> simp [h, widthOfBit, widthBit]

@[simp] theorem operandNumber_operandField (w : Word) :
    operandNumber (operandField w) = w.toNat / 128 % 2 * 16 + w.toNat / 8 % 8 := by
  rw [operandField, bit_eq]
  rcases Nat.mod_two_eq_zero_or_one (w.toNat / 128) with h | h
  · simp [h, operandNumber, regBits_regOfBits, Nat.shiftRight_eq_div_pow]
  · simp [h, operandNumber, constBits_constOfBits, Nat.shiftRight_eq_div_pow]

/-- R/C weighs 16 and SRC is below 8. -/
theorem operandNumber_bounds (src : Operand) : operandNumber src < 24 ∧ operandNumber src % 16 < 8 := by
  cases src with
  | reg r =>
    have h := (regBits r).isLt
    rw [operandNumber]; omega
  | const k =>
    have h := (constBits k).isLt
    rw [operandNumber]; omega

@[simp] theorem toNat_getLsbD (w : Word) (j : Nat) : (w.getLsbD j).toNat = w.toNat / 2 ^ j % 2 := by
  rw [bit_eq]
  rcases Nat.mod_two_eq_zero_or_one (w.toNat / 2 ^ j) with h | h <;> simp [h]

@[simp] theorem off7Field_toNat (w : Word) : (off7Field w).toNat = w.toNat / 128 % 128 := field_toNat w 7 7

@[simp] theorem immField_toNat (w : Word) : (immField w).toNat = w.toNat / 8 % 256 := field_toNat w 3 8

@[simp] theorem brOffField_toNat (w : Word) : (brOffField w).toNat = w.toNat % 1024 := by
  rw [brOffField, field_toNat, Nat.pow_zero, Nat.div_one]; rfl

@[simp] theorem blOffField_toNat (w : Word) : (blOffField w).toNat = w.toNat % 8192 := by
  rw [blOffField, field_toNat, Nat.pow_zero, Nat.div_one]; rfl

/-! ## A word put together again from its fields (R103) -/

section
variable {w : Word}

theorem encodeBL_fields (h : w.toNat / 8192 = 0) : encode (.bl (blOffField w)) = w := by
  apply BitVec.eq_of_toNat_eq
  rw [encodeBL_toNat, blOffField_toNat]; omega

theorem encodeBC_fields {c : BitVec 3} (h : w.toNat / 1024 = 8 + c.toNat) : encodeBC c (brOffField w) = w := by
  apply BitVec.eq_of_toNat_eq
  rw [encodeBC_toNat, brOffField_toNat]; omega

theorem encodeA2_fields {f : BitVec 4} (h : w.toNat / 256 = 64 + f.toNat) :
    encodeA2 f (operandField w) (widthField w) (dstField w) = w := by
  apply BitVec.eq_of_toNat_eq
  rw [encodeA2_toNat, widthBit_widthField, operandNumber_operandField, regBits_dstField]; omega

theorem encodeMov_fields (h : w.toNat / 128 = 152) :
    encode (.mov (widthField w) (srcField w) (dstField w)) = w := by
  apply BitVec.eq_of_toNat_eq
  rw [encodeMov_toNat, widthBit_widthField, regBits_srcField, regBits_dstField]; omega

theorem encodeSwap_fields (h : w.toNat / 64 = 306) : encode (.swap (srcField w) (dstField w)) = w := by
  apply BitVec.eq_of_toNat_eq
  rw [encodeSwap_toNat, regBits_srcField, regBits_dstField]; omega

theorem encodeR1_fields {u : BitVec 3} (h : w.toNat / 128 = 154) (hu : w.toNat / 8 % 8 = u.toNat) :
    encodeR1 (widthField w) u (dstField w) = w := by
  apply BitVec.eq_of_toNat_eq
  rw [encodeR1_toNat, widthBit_widthField, regBits_dstField]; omega

theorem encodeR1_word_fields {u : BitVec 3} (h : w.toNat / 64 = 308) (hu : w.toNat / 8 % 8 = u.toNat) :
    encodeR1 .word u (dstField w) = w := by
  have hw : widthField w = .word := widthField_eq (by simp [widthBit]; omega)
  rw [← hw]
  exact encodeR1_fields (by omega) hu

theorem encodeIX_fields {t : BitVec 1} (h : w.toNat / 1024 = 22 + t.toNat) :
    encodeIX t (modeField w) (widthField w) (srcField w) (dstField w) = w := by
  apply BitVec.eq_of_toNat_eq
  rw [encodeIX_toNat, widthBit_widthField, regBits_srcField, regBits_dstField]
  simp only [modeField, toNat_getLsbD]; omega

theorem encodeMI_fields {e : BitVec 2} (h : w.toNat / 2048 = 12 + e.toNat) :
    encodeMI e (immField w) (dstField w) = w := by
  apply BitVec.eq_of_toNat_eq
  rw [encodeMI_toNat, immField_toNat, regBits_dstField]; omega

theorem encodeRL_fields {t : BitVec 1} (h : w.toNat / 16384 = 2 + t.toNat) :
    encodeRL t (off7Field w) (widthField w) (srcField w) (dstField w) = w := by
  apply BitVec.eq_of_toNat_eq
  rw [encodeRL_toNat, off7Field_toNat, widthBit_widthField, regBits_srcField, regBits_dstField]; omega

end

/-! ## The decision tree accounts for every word (R110, R112) -/

/-- R112: the words of the table's ranges. -/
def UndefinedWord (w : Word) : Prop :=
  0x4CC0 ≤ w.toNat ∧ w.toNat ≤ 0x4CFF ∨ 0x4D10 ≤ w.toNat ∧ w.toNat ≤ 0x4D17 ∨ 0x4D50 ≤ w.toNat ∧ w.toNat ≤ 0x4D57 ∨
  0x4D28 ≤ w.toNat ∧ w.toNat ≤ 0x4D3F ∨ 0x4D68 ≤ w.toNat ∧ w.toNat ≤ 0x4D7F ∨ 0x4D58 ≤ w.toNat ∧ w.toNat ≤ 0x4D5F ∨
  0x4D60 ≤ w.toNat ∧ w.toNat ≤ 0x4D67 ∨ 0x4D80 ≤ w.toNat ∧ w.toNat ≤ 0x4DFF ∨ 0x4E00 ≤ w.toNat ∧ w.toNat ≤ 0x4FFF ∨
  0x5000 ≤ w.toNat ∧ w.toNat ≤ 0x57FF

/-- An answer of the decoder accounts for the word: an instruction whose encoding is the word, or the rejection of a word
of the table of R112. -/
def AccountsFor (w : Word) : Except Reject Instr → Prop
  | .ok i => encode i = w
  | .error _ => UndefinedWord w

section
variable {w : Word}

/-- R110: the branch leaf keeps the condition field. -/
theorem encode_decodeBranch (w : Word) : encode (decodeBranch w) = encodeBC (w.extractLsb' 10 3) (brOffField w) := by
  unfold decodeBranch
  generalize w.extractLsb' 10 3 = c
  obtain ⟨⟨c, hc⟩⟩ := c
  interval_cases c <;> rfl

/-- R110: the move-immediate leaf keeps the selector field. -/
theorem encode_decodeMoveImm (w : Word) :
    encode (decodeMoveImm w) = encodeMI (w.extractLsb' 11 2) (immField w) (dstField w) := by
  unfold decodeMoveImm
  generalize w.extractLsb' 11 2 = e
  obtain ⟨⟨e, he⟩⟩ := e
  interval_cases e <;> rfl

/-- R110: functions 0 to 11 of the register group are the two-operand instructions. -/
theorem decodeRegisterGroup_A2 (hf : (w.extractLsb' 8 4).toNat < 12) : ∃ i, decodeRegisterGroup w = .ok i ∧
    encode i = encodeA2 (w.extractLsb' 8 4) (operandField w) (widthField w) (dstField w) := by
  unfold decodeRegisterGroup
  generalize w.extractLsb' 8 4 = f at *
  obtain ⟨⟨f, _⟩⟩ := f
  replace hf : f < 12 := hf
  interval_cases f <;> exact ⟨_, rfl, rfl⟩

theorem decodeBranch_accountsFor (h : w.toNat / 8192 = 1) : encode (decodeBranch w) = w := by
  rw [encode_decodeBranch]
  exact encodeBC_fields (by rw [field_toNat]; omega)

theorem decodeMoveImm_accountsFor (h : w.toNat / 8192 = 3) : encode (decodeMoveImm w) = w := by
  rw [encode_decodeMoveImm]
  exact encodeMI_fields (by rw [field_toNat]; omega)

theorem decodeOneOperand_accountsFor (h : w.toNat / 256 = 77) : AccountsFor w (decodeOneOperand w) := by
  have hu : (w.extractLsb' 3 3).toNat = w.toNat / 8 % 8 := field_toNat ..
  simp only [decodeOneOperand, bit_eq, decide_eq_true_eq]
  split
  · simp only [AccountsFor, UndefinedWord]; omega
  · split
    · next hsra => exact encodeR1_fields (by omega) (by rw [← hu, hsra]; rfl)
    · next hrrc => exact encodeR1_fields (by omega) (by rw [← hu, hrrc]; rfl)
    · next hswpb =>
      split
      · simp only [AccountsFor, UndefinedWord]; omega
      · exact encodeR1_word_fields (by omega) (by rw [← hu, hswpb]; rfl)
    · next hsxt =>
      split
      · simp only [AccountsFor, UndefinedWord]; omega
      · exact encodeR1_word_fields (by omega) (by rw [← hu, hsxt]; rfl)
    · next h0 h1 h3 h4 =>
      simp only [imp_false] at h0 h1 h3 h4
      simp only [AccountsFor, UndefinedWord]; omega

theorem decodeRegisterGroup_accountsFor (h : w.toNat / 4096 = 4) : AccountsFor w (decodeRegisterGroup w) := by
  have hfield : (w.extractLsb' 8 4).toNat = w.toNat / 256 % 16 := field_toNat ..
  by_cases hA2 : (w.extractLsb' 8 4).toNat < 12
  · obtain ⟨i, hi, henc⟩ := decodeRegisterGroup_A2 hA2
    rw [hi]
    exact henc.trans (encodeA2_fields (by omega))
  · obtain h12 | h13 | h14 : w.toNat / 256 = 76 ∨ w.toNat / 256 = 77 ∨ 78 ≤ w.toNat / 256 := by omega
    · have hf : (w.extractLsb' 8 4).toNat = 12 := by omega
      simp only [decodeRegisterGroup, hf, bit_eq, Bool.not_eq_true', decide_eq_false_iff_not]
      split
      · exact encodeMov_fields (by omega)
      · split
        · exact encodeSwap_fields (by omega)
        · simp only [AccountsFor, UndefinedWord]; omega
    · have hf : (w.extractLsb' 8 4).toNat = 13 := by omega
      simp only [decodeRegisterGroup, hf]
      exact decodeOneOperand_accountsFor h13
    · obtain hf | hf : (w.extractLsb' 8 4).toNat = 14 ∨ (w.extractLsb' 8 4).toNat = 15 := by omega
      all_goals
        simp only [decodeRegisterGroup, hf]
        simp only [AccountsFor, UndefinedWord]; omega

/-- R110, R112: every word is the encoding of what it decodes to, or in the table of R112. -/
theorem decode_accountsFor (w : Word) : AccountsFor w (decode w) := by
  have hlt := w.isLt
  simp only [decode, bit_eq, Bool.not_eq_true', decide_eq_true_eq, decide_eq_false_iff_not]
  split
  · split
    · exact encodeRL_fields (by simp; omega)
    · exact encodeRL_fields (by simp; omega)
  split
  · split
    · exact encodeBL_fields (by omega)
    · exact decodeBranch_accountsFor (by omega)
  split
  · exact decodeMoveImm_accountsFor (by omega)
  split
  · exact decodeRegisterGroup_accountsFor (by omega)
  split
  · simp only [AccountsFor, UndefinedWord]; omega
  split
  · exact encodeIX_fields (by simp; omega)
  · exact encodeIX_fields (by simp; omega)

end

/-- Settles O3: a decoded word is accounted for by the instruction it decodes to. -/
theorem encodeOfDecodeIsTheWord : Obligations.EncodeOfDecodeIsTheWord := by
  intro w i h
  have hacc := decode_accountsFor w
  rwa [h] at hacc

/-! ## The words that are no instruction (R112) -/

section
variable (w : Width) (src dst : Reg)

theorem encodeBC_not_undefinedWord (c : BitVec 3) (off : BitVec Config.brOffBits) :
    ¬ UndefinedWord (encodeBC c off) := by
  have hc := c.isLt
  have hoff : off.toNat < 1024 := off.isLt
  simp only [UndefinedWord, encodeBC_toNat]; omega

theorem encodeA2_not_undefinedWord {f : BitVec 4} (hf : f.toNat < 12) (src : Operand) :
    ¬ UndefinedWord (encodeA2 f src w dst) := by
  have hw := widthBit_le w
  have hdst := (regBits dst).isLt
  have hsrc := operandNumber_bounds src
  simp only [UndefinedWord, encodeA2_toNat]; omega

theorem encodeR1_not_undefinedWord {u : BitVec 3} (hu : u.toNat ≤ 1) : ¬ UndefinedWord (encodeR1 w u dst) := by
  have hw := widthBit_le w
  have hdst := (regBits dst).isLt
  simp only [UndefinedWord, encodeR1_toNat]; omega

theorem encodeR1_word_not_undefinedWord {u : BitVec 3} (hu : u.toNat = 3 ∨ u.toNat = 4) :
    ¬ UndefinedWord (encodeR1 .word u dst) := by
  have hw : (widthBit .word).toNat = 0 := rfl
  have hdst := (regBits dst).isLt
  simp only [UndefinedWord, encodeR1_toNat]; omega

theorem encodeIX_not_undefinedWord (t : BitVec 1) (m : ModeBits) : ¬ UndefinedWord (encodeIX t m w src dst) := by
  simp only [UndefinedWord, encodeIX_toNat]; omega

theorem encodeMI_not_undefinedWord (e : BitVec 2) (b : Byte) : ¬ UndefinedWord (encodeMI e b dst) := by
  simp only [UndefinedWord, encodeMI_toNat]; omega

theorem encodeRL_not_undefinedWord (t : BitVec 1) (off : BitVec 7) : ¬ UndefinedWord (encodeRL t off w src dst) := by
  simp only [UndefinedWord, encodeRL_toNat]; omega

end

/-- R112: no instruction's word is in the table. -/
theorem encode_not_undefinedWord (i : Instr) : ¬ UndefinedWord (encode i) := by
  cases i with
  | bl off =>
    have hoff : off.toNat < 8192 := off.isLt
    simp only [UndefinedWord, encodeBL_toNat]; omega
  | beq off | bne off | bc off | bnc off | bn off | bge off | blt off | bra off => exact encodeBC_not_undefinedWord _ _
  | add src w dst | addc src w dst | sub src w dst | subc src w dst | dadd src w dst | cmp src w dst | xor src w dst
  | and src w dst | or src w dst | bit src w dst | bic src w dst | bis src w dst =>
    exact encodeA2_not_undefinedWord _ _ (by decide) _
  | mov w src dst =>
    have hw := widthBit_le w
    have hsrc := (regBits src).isLt
    have hdst := (regBits dst).isLt
    simp only [UndefinedWord, encodeMov_toNat]; omega
  | swap src dst =>
    have hsrc := (regBits src).isLt
    have hdst := (regBits dst).isLt
    simp only [UndefinedWord, encodeSwap_toNat]; omega
  | sra w dst | rrc w dst => exact encodeR1_not_undefinedWord _ _ (by decide)
  | swpb dst | sxt dst => exact encodeR1_word_not_undefinedWord _ (by decide)
  | ld m w src dst | st m w src dst => exact encodeIX_not_undefinedWord _ _ _ _ _
  | movl b dst | movlz b dst | movls b dst | movh b dst => exact encodeMI_not_undefinedWord _ _ _
  | ldr off w src dst | str off w src dst => exact encodeRL_not_undefinedWord _ _ _ _ _

/-- R112: the decoder rejects exactly the words of the table. -/
theorem decode_error_iff (w : Word) : (∃ e, decode w = .error e) ↔ UndefinedWord w := by
  have hacc := decode_accountsFor w
  cases hd : decode w with
  | error e =>
    rw [hd] at hacc
    exact ⟨fun _ => hacc, fun _ => ⟨e, rfl⟩⟩
  | ok i =>
    rw [hd] at hacc
    have henc : encode i = w := hacc
    have hdef : ¬ UndefinedWord w := henc ▸ encode_not_undefinedWord i
    simp [hdef]

end Sys2Proof
end

section
/-! PROOFS. The opcode map (spec 30_encoding.md R111): the row of an instruction selects its word, and the decoder reads a
word that a row selects as an instruction of that row with the word's fields; so decoding an encoding gives the
instruction back. -/

namespace Sys2Proof

open Sys2Proof.Machine Sys2Proof.Claim

/-! ## The opcode map (R111) -/

/-- R111: match and mask of an instruction. -/
def Instr.row : Instr → Word × Word
  | .bl _ => (0x0000, 0xE000)
  | .beq _ => (0x2000, 0xFC00)
  | .bne _ => (0x2400, 0xFC00)
  | .bc _ => (0x2800, 0xFC00)
  | .bnc _ => (0x2C00, 0xFC00)
  | .bn _ => (0x3000, 0xFC00)
  | .bge _ => (0x3400, 0xFC00)
  | .blt _ => (0x3800, 0xFC00)
  | .bra _ => (0x3C00, 0xFC00)
  | .add _ _ _ => (0x4000, 0xFF00)
  | .addc _ _ _ => (0x4100, 0xFF00)
  | .sub _ _ _ => (0x4200, 0xFF00)
  | .subc _ _ _ => (0x4300, 0xFF00)
  | .dadd _ _ _ => (0x4400, 0xFF00)
  | .cmp _ _ _ => (0x4500, 0xFF00)
  | .xor _ _ _ => (0x4600, 0xFF00)
  | .and _ _ _ => (0x4700, 0xFF00)
  | .or _ _ _ => (0x4800, 0xFF00)
  | .bit _ _ _ => (0x4900, 0xFF00)
  | .bic _ _ _ => (0x4A00, 0xFF00)
  | .bis _ _ _ => (0x4B00, 0xFF00)
  | .mov _ _ _ => (0x4C00, 0xFF80)
  | .swap _ _ => (0x4C80, 0xFFC0)
  | .sra _ _ => (0x4D00, 0xFFB8)
  | .rrc _ _ => (0x4D08, 0xFFB8)
  | .swpb _ => (0x4D18, 0xFFF8)
  | .sxt _ => (0x4D20, 0xFFF8)
  | .ld _ _ _ _ => (0x5800, 0xFC00)
  | .st _ _ _ _ => (0x5C00, 0xFC00)
  | .movl _ _ => (0x6000, 0xF800)
  | .movlz _ _ => (0x6800, 0xF800)
  | .movls _ _ => (0x7000, 0xF800)
  | .movh _ _ => (0x7800, 0xF800)
  | .ldr _ _ _ _ => (0x8000, 0xC000)
  | .str _ _ _ _ => (0xC000, 0xC000)

/-- R111: they are those of the row with its mnemonic. -/
theorem lookup_mnemonic (i : Instr) : opcodeMap.lookup i.mnemonic = some i.row := by cases i <;> rfl

/-- R111: `word & mask = match`, for the row of an instruction. -/
def Instr.Selects (i : Instr) (w : Word) : Prop := w &&& i.row.2 = i.row.1

/-- A mask of the bits from `k` up keeps the multiple of `2 ^ k` at or below the word. -/
theorem and_highMask_toNat (w : Word) (k : Nat) :
    (w &&& BitVec.allOnes 16 <<< k).toNat = w.toNat / 2 ^ k * 2 ^ k := by
  have hshift : w &&& BitVec.allOnes 16 <<< k = (w >>> k) <<< k := by
    apply BitVec.eq_of_getLsbD_eq
    intro j hj
    simp only [BitVec.getLsbD_and, BitVec.getLsbD_shiftLeft, BitVec.getLsbD_allOnes, BitVec.getLsbD_ushiftRight]
    by_cases hk : j < k
    · simp [hk]
    · simp [hj, hk, show k + (j - k) = j by omega, show j - k < 16 by omega]
  have hle : w.toNat / 2 ^ k * 2 ^ k < 2 ^ 16 := (Nat.div_mul_le_self ..).trans_lt w.isLt
  rw [hshift, BitVec.toNat_shiftLeft, BitVec.toNat_ushiftRight, Nat.shiftLeft_eq, Nat.shiftRight_eq_div_pow,
    Nat.mod_eq_of_lt hle]

theorem and_highMask_eq {w mask m : Word} (k : Nat) (hmask : mask = BitVec.allOnes 16 <<< k)
    (h : w.toNat / 2 ^ k * 2 ^ k = m.toNat) : w &&& mask = m :=
  BitVec.eq_of_toNat_eq (by rw [hmask, and_highMask_toNat, h])

section
variable (w : Width) (src dst : Reg)

theorem encodeBC_and (c : BitVec 3) (off : BitVec Config.brOffBits) :
    encodeBC c off &&& 0xFC00 = 0b001#3 ++ c ++ 0#10 := by
  have hoff : off.toNat < 1024 := off.isLt
  refine and_highMask_eq 10 rfl ?_
  rw [encodeBC_toNat, append_toNat, append_toNat]; simp; omega

theorem encodeA2_and (f : BitVec 4) (src : Operand) : encodeA2 f src w dst &&& 0xFF00 = 0b0100#4 ++ f ++ 0#8 := by
  have hw := widthBit_le w
  have hsrc := operandNumber_bounds src
  have hdst := (regBits dst).isLt
  refine and_highMask_eq 8 rfl ?_
  rw [encodeA2_toNat, append_toNat, append_toNat]
  simp; omega

theorem encodeR1_and (u : BitVec 3) : encodeR1 w u dst &&& 0xFFB8 = 0b010011010#9 ++ 0#1 ++ u ++ 0#3 := by
  cases w <;> cases dst <;> revert u <;> decide

theorem encodeR1_word_and (u : BitVec 3) : encodeR1 .word u dst &&& 0xFFF8 = 0b0100110100#10 ++ u ++ 0#3 := by
  have hw : (widthBit .word).toNat = 0 := rfl
  refine and_highMask_eq 3 rfl ?_
  rw [encodeR1_toNat, append_toNat, append_toNat]; simp; omega

theorem encodeIX_and (t : BitVec 1) (m : ModeBits) :
    encodeIX t m w src dst &&& 0xFC00 = 0b01011#5 ++ t ++ 0#10 := by
  have hp := m.prpo.toNat_le
  have hm := m.dec.toNat_le
  have hi := m.inc.toNat_le
  refine and_highMask_eq 10 rfl ?_
  rw [encodeIX_toNat, append_toNat, append_toNat]
  simp; omega

theorem encodeMI_and (e : BitVec 2) (b : Byte) : encodeMI e b dst &&& 0xF800 = 0b011#3 ++ e ++ 0#11 := by
  refine and_highMask_eq 11 rfl ?_
  rw [encodeMI_toNat, append_toNat, append_toNat]; simp; omega

theorem encodeRL_and (t : BitVec 1) (off : BitVec 7) :
    encodeRL t off w src dst &&& 0xC000 = 1#1 ++ t ++ 0#14 := by
  refine and_highMask_eq 14 rfl ?_
  rw [encodeRL_toNat, append_toNat, append_toNat]; simp; omega

end

/-- R111: an instruction's row selects its word. -/
theorem selects_encode (i : Instr) : i.Selects (encode i) := by
  cases i with
  | bl off =>
    have hoff : off.toNat < 8192 := off.isLt
    exact and_highMask_eq (m := 0) 13 rfl (by rw [encodeBL_toNat]; simp; omega)
  | beq off | bne off | bc off | bnc off | bn off | bge off | blt off | bra off => exact encodeBC_and ..
  | add src w dst | addc src w dst | sub src w dst | subc src w dst | dadd src w dst | cmp src w dst | xor src w dst
  | and src w dst | or src w dst | bit src w dst | bic src w dst | bis src w dst => exact encodeA2_and ..
  | mov w src dst =>
    have hw := widthBit_le w
    exact and_highMask_eq (m := 0x4C00) 7 rfl (by rw [encodeMov_toNat]; simp; omega)
  | swap src dst => exact and_highMask_eq (m := 0x4C80) 6 rfl (by rw [encodeSwap_toNat]; simp; omega)
  | sra w dst | rrc w dst => exact encodeR1_and ..
  | swpb dst | sxt dst => exact encodeR1_word_and ..
  | ld m w src dst | st m w src dst => exact encodeIX_and ..
  | movl b dst | movlz b dst | movls b dst | movh b dst => exact encodeMI_and ..
  | ldr off w src dst | str off w src dst => exact encodeRL_and ..

/-- `w` read as an instruction of the same row as `i`: every operand taken from the fields of `w`. -/
def Instr.withFields (w : Word) : Instr → Instr
  | .bl _ => .bl (blOffField w)
  | .beq _ => .beq (brOffField w)
  | .bne _ => .bne (brOffField w)
  | .bc _ => .bc (brOffField w)
  | .bnc _ => .bnc (brOffField w)
  | .bn _ => .bn (brOffField w)
  | .bge _ => .bge (brOffField w)
  | .blt _ => .blt (brOffField w)
  | .bra _ => .bra (brOffField w)
  | .add _ _ _ => .add (operandField w) (widthField w) (dstField w)
  | .addc _ _ _ => .addc (operandField w) (widthField w) (dstField w)
  | .sub _ _ _ => .sub (operandField w) (widthField w) (dstField w)
  | .subc _ _ _ => .subc (operandField w) (widthField w) (dstField w)
  | .dadd _ _ _ => .dadd (operandField w) (widthField w) (dstField w)
  | .cmp _ _ _ => .cmp (operandField w) (widthField w) (dstField w)
  | .xor _ _ _ => .xor (operandField w) (widthField w) (dstField w)
  | .and _ _ _ => .and (operandField w) (widthField w) (dstField w)
  | .or _ _ _ => .or (operandField w) (widthField w) (dstField w)
  | .bit _ _ _ => .bit (operandField w) (widthField w) (dstField w)
  | .bic _ _ _ => .bic (operandField w) (widthField w) (dstField w)
  | .bis _ _ _ => .bis (operandField w) (widthField w) (dstField w)
  | .mov _ _ _ => .mov (widthField w) (srcField w) (dstField w)
  | .swap _ _ => .swap (srcField w) (dstField w)
  | .sra _ _ => .sra (widthField w) (dstField w)
  | .rrc _ _ => .rrc (widthField w) (dstField w)
  | .swpb _ => .swpb (dstField w)
  | .sxt _ => .sxt (dstField w)
  | .ld _ _ _ _ => .ld (modeField w) (widthField w) (srcField w) (dstField w)
  | .st _ _ _ _ => .st (modeField w) (widthField w) (srcField w) (dstField w)
  | .movl _ _ => .movl (immField w) (dstField w)
  | .movlz _ _ => .movlz (immField w) (dstField w)
  | .movls _ _ => .movls (immField w) (dstField w)
  | .movh _ _ => .movh (immField w) (dstField w)
  | .ldr _ _ _ _ => .ldr (off7Field w) (widthField w) (srcField w) (dstField w)
  | .str _ _ _ _ => .str (off7Field w) (widthField w) (srcField w) (dstField w)

theorem withFields_mnemonic (w : Word) (i : Instr) : (i.withFields w).mnemonic = i.mnemonic := by cases i <;> rfl

/-! ## Bits and fields that a mask fixes -/

section
variable {w mask m : Word}

/-- What a mask fixes, a coarser mask fixes. -/
theorem and_coarser {c n : Word} (h : w &&& mask = m) (hc : mask &&& c = c) (hn : m &&& c = n) : w &&& c = n := by
  rw [← hn, ← h, BitVec.and_assoc, hc]

theorem bit_of_and (h : w &&& mask = m) {j : Nat} (hj : mask.getLsbD j = true) : w.getLsbD j = m.getLsbD j := by
  rw [← h, BitVec.getLsbD_and, hj, Bool.and_true]

theorem field_of_and (h : w &&& mask = m) {j k : Nat} (hj : mask.extractLsb' j k = BitVec.allOnes k) :
    w.extractLsb' j k = m.extractLsb' j k := by
  rw [← h, BitVec.extractLsb'_and, hj, BitVec.and_allOnes]

end

section
variable {v : Word}

theorem decode_bl (h : v &&& 0xE000 = 0x0000) : decode v = .ok (.bl (blOffField v)) := by
  have h15 : v.getLsbD 15 = false := bit_of_and h rfl
  have h14 : v.getLsbD 14 = false := bit_of_and h rfl
  have h13 : v.getLsbD 13 = false := bit_of_and h rfl
  simp only [decode, h15, h14, h13]; rfl

theorem decode_branch (h : v &&& 0xE000 = 0x2000) : decode v = .ok (decodeBranch v) := by
  have h15 : v.getLsbD 15 = false := bit_of_and h rfl
  have h14 : v.getLsbD 14 = false := bit_of_and h rfl
  have h13 : v.getLsbD 13 = true := bit_of_and h rfl
  simp only [decode, h15, h14, h13]; rfl

theorem decode_registerGroup (h : v &&& 0xF000 = 0x4000) : decode v = decodeRegisterGroup v := by
  have h15 : v.getLsbD 15 = false := bit_of_and h rfl
  have h14 : v.getLsbD 14 = true := bit_of_and h rfl
  have h13 : v.getLsbD 13 = false := bit_of_and h rfl
  have h12 : v.getLsbD 12 = false := bit_of_and h rfl
  simp only [decode, h15, h14, h13, h12]; rfl

theorem decode_oneOperand (h : v &&& 0xFF00 = 0x4D00) : decode v = decodeOneOperand v := by
  have hf : v.extractLsb' 8 4 = 13#4 := field_of_and h rfl
  rw [decode_registerGroup (and_coarser h rfl rfl), decodeRegisterGroup, hf]; rfl

theorem decode_indexed (h : v &&& 0xF800 = 0x5800) : decode v =
    if v.getLsbD 10 then .ok (.st (modeField v) (widthField v) (srcField v) (dstField v))
    else .ok (.ld (modeField v) (widthField v) (srcField v) (dstField v)) := by
  have h15 : v.getLsbD 15 = false := bit_of_and h rfl
  have h14 : v.getLsbD 14 = true := bit_of_and h rfl
  have h13 : v.getLsbD 13 = false := bit_of_and h rfl
  have h12 : v.getLsbD 12 = true := bit_of_and h rfl
  have h11 : v.getLsbD 11 = true := bit_of_and h rfl
  cases h10 : v.getLsbD 10 <;> simp only [decode, h15, h14, h13, h12, h11, h10] <;> rfl

theorem decode_moveImm (h : v &&& 0xE000 = 0x6000) : decode v = .ok (decodeMoveImm v) := by
  have h15 : v.getLsbD 15 = false := bit_of_and h rfl
  have h14 : v.getLsbD 14 = true := bit_of_and h rfl
  have h13 : v.getLsbD 13 = true := bit_of_and h rfl
  simp only [decode, h15, h14, h13]; rfl

theorem decode_relative (h : v &&& 0x8000 = 0x8000) : decode v =
    if v.getLsbD 14 then .ok (.str (off7Field v) (widthField v) (srcField v) (dstField v))
    else .ok (.ldr (off7Field v) (widthField v) (srcField v) (dstField v)) := by
  have h15 : v.getLsbD 15 = true := bit_of_and h rfl
  cases h14 : v.getLsbD 14 <;> simp only [decode, h15, h14] <;> rfl

end

/-- R110, R111: the decoder reads a word that a row selects as an instruction of that row. -/
theorem decode_of_selects {i : Instr} {v : Word} (h : i.Selects v) : decode v = .ok (i.withFields v) := by
  cases i with (simp only [Instr.Selects, Instr.row] at h)
  | bl off => exact decode_bl h
  | beq off | bne off | bc off | bnc off | bn off | bge off | blt off | bra off =>
    have hc := field_of_and (j := 10) (k := 3) h rfl
    rw [decode_branch (and_coarser h rfl rfl), decodeBranch, hc]; rfl
  | add src w dst | addc src w dst | sub src w dst | subc src w dst | dadd src w dst | cmp src w dst | xor src w dst
  | and src w dst | or src w dst | bit src w dst | bic src w dst | bis src w dst =>
    have hf := field_of_and (j := 8) (k := 4) h rfl
    rw [decode_registerGroup (and_coarser h rfl rfl), decodeRegisterGroup, hf]; rfl
  | mov w src dst =>
    have hf := field_of_and (j := 8) (k := 4) h rfl
    have h7 : v.getLsbD 7 = false := bit_of_and h rfl
    rw [decode_registerGroup (and_coarser h rfl rfl), decodeRegisterGroup, hf, h7]; rfl
  | swap src dst =>
    have hf := field_of_and (j := 8) (k := 4) h rfl
    have h7 : v.getLsbD 7 = true := bit_of_and h rfl
    have h6 : v.getLsbD 6 = false := bit_of_and h rfl
    rw [decode_registerGroup (and_coarser h rfl rfl), decodeRegisterGroup, hf, h7, h6]; rfl
  | sra w dst | rrc w dst =>
    have hu := field_of_and (j := 3) (k := 3) h rfl
    have h7 : v.getLsbD 7 = false := bit_of_and h rfl
    rw [decode_oneOperand (and_coarser h rfl rfl), decodeOneOperand, h7, hu]; rfl
  | swpb dst | sxt dst =>
    have hu := field_of_and (j := 3) (k := 3) h rfl
    have h7 : v.getLsbD 7 = false := bit_of_and h rfl
    have h6 : v.getLsbD 6 = false := bit_of_and h rfl
    rw [decode_oneOperand (and_coarser h rfl rfl), decodeOneOperand, h7, h6, hu]; rfl
  | ld m w src dst | st m w src dst =>
    have ht := bit_of_and (j := 10) h rfl
    rw [decode_indexed (and_coarser h rfl rfl), ht]; rfl
  | movl b dst | movlz b dst | movls b dst | movh b dst =>
    have he := field_of_and (j := 11) (k := 2) h rfl
    rw [decode_moveImm (and_coarser h rfl rfl), decodeMoveImm, he]; rfl
  | ldr off w src dst | str off w src dst =>
    have ht := bit_of_and (j := 14) h rfl
    rw [decode_relative (and_coarser h rfl rfl), ht]; rfl

/-- R111: a row of the map is the row of the instruction with its mnemonic. -/
theorem lookup_of_mem {row : String × Word × Word} (h : row ∈ opcodeMap) : opcodeMap.lookup row.1 = some row.2 := by
  revert row; decide

/-- R111: every row of the map is the row of some instruction, for one the instruction of its match. -/
theorem exists_mnemonic_of_mem {row : String × Word × Word} (h : row ∈ opcodeMap) :
    ∃ i : Instr, i.mnemonic = row.1 := by
  have hmatch : ∀ row ∈ opcodeMap, (decode row.2.1).toOption.map Instr.mnemonic = some row.1 := by decide
  obtain ⟨i, -, hi⟩ := Option.map_eq_some_iff.1 (hmatch row h)
  exact ⟨i, hi⟩

theorem row_of_mem {row : String × Word × Word} (h : row ∈ opcodeMap) {i : Instr} (hi : i.mnemonic = row.1) :
    i.row = row.2 := by
  have hl := lookup_mnemonic i
  rw [hi, lookup_of_mem h] at hl
  exact (Option.some.inj hl).symm

/-- Settles O5: a selected word decodes by its row, and a decoded word is the encoding its row selects. -/
theorem opcodeMapSelectsByMatchAndMask : Obligations.OpcodeMapSelectsByMatchAndMask := by
  intro row hrow w
  constructor
  · intro h
    obtain ⟨i, hi⟩ := exists_mnemonic_of_mem hrow
    have hsel : i.Selects w := by rwa [Instr.Selects, row_of_mem hrow hi]
    exact ⟨_, decode_of_selects hsel, (withFields_mnemonic w i).trans hi⟩
  · rintro ⟨i, hd, hi⟩
    have hsel := selects_encode i
    rwa [encodeOfDecodeIsTheWord w i hd, Instr.Selects, row_of_mem hrow hi] at hsel

/-! ## The fields of an encoding (R103) -/

theorem operandField_eq {v : Word} {src : Operand} (h7 : v.toNat / 128 % 2 = operandNumber src / 16)
    (hs : v.toNat / 8 % 8 = operandNumber src % 16) : operandField v = src := by
  cases src with
  | reg r =>
    have hr := (regBits r).isLt
    simp only [operandNumber] at h7 hs
    have hfield : v.extractLsb' 3 3 = regBits r := field_eq (by omega)
    rw [operandField, bit_eq, hfield, regOfBits_regBits, if_neg]
    simp; omega
  | const k =>
    have hk := (constBits k).isLt
    simp only [operandNumber] at h7 hs
    have hfield : v.extractLsb' 3 3 = constBits k := field_eq (by omega)
    rw [operandField, bit_eq, hfield, constOfBits_constBits, if_pos]
    simp; omega

theorem bit_of_toNat {v : Word} {j : Nat} {b : Bool} (h : v.toNat / 2 ^ j % 2 = b.toNat) : v.getLsbD j = b := by
  rw [bit_eq, h]
  cases b <;> rfl

section
variable (w : Width) (src dst : Reg)

theorem fields_encodeA2 (f : BitVec 4) (src : Operand) : operandField (encodeA2 f src w dst) = src ∧
    widthField (encodeA2 f src w dst) = w ∧ dstField (encodeA2 f src w dst) = dst := by
  have hw := widthBit_le w
  have hdst := (regBits dst).isLt
  have hsrc := operandNumber_bounds src
  have hn := encodeA2_toNat f src w dst
  exact ⟨operandField_eq (by omega) (by omega), widthField_eq (by omega), dstField_eq (by omega)⟩

theorem fields_encodeMov : widthField (encode (.mov w src dst)) = w ∧ srcField (encode (.mov w src dst)) = src ∧
    dstField (encode (.mov w src dst)) = dst := by
  have hw := widthBit_le w
  have hsrc := (regBits src).isLt
  have hdst := (regBits dst).isLt
  have hn := encodeMov_toNat w src dst
  exact ⟨widthField_eq (by omega), srcField_eq (by omega), dstField_eq (by omega)⟩

theorem fields_encodeSwap : srcField (encode (.swap src dst)) = src ∧ dstField (encode (.swap src dst)) = dst := by
  have hsrc := (regBits src).isLt
  have hdst := (regBits dst).isLt
  have hn := encodeSwap_toNat src dst
  exact ⟨srcField_eq (by omega), dstField_eq (by omega)⟩

theorem fields_encodeR1 (u : BitVec 3) :
    widthField (encodeR1 w u dst) = w ∧ dstField (encodeR1 w u dst) = dst := by
  have hw := widthBit_le w
  have hdst := (regBits dst).isLt
  have hn := encodeR1_toNat w u dst
  exact ⟨widthField_eq (by omega), dstField_eq (by omega)⟩

theorem fields_encodeIX (t : BitVec 1) (m : ModeBits) : modeField (encodeIX t m w src dst) = m ∧
    widthField (encodeIX t m w src dst) = w ∧ srcField (encodeIX t m w src dst) = src ∧
    dstField (encodeIX t m w src dst) = dst := by
  have hw := widthBit_le w
  have hsrc := (regBits src).isLt
  have hdst := (regBits dst).isLt
  have hprpo := m.prpo.toNat_le
  have hdec := m.dec.toNat_le
  have hinc := m.inc.toNat_le
  have hn := encodeIX_toNat t m w src dst
  refine ⟨?_, widthField_eq (by omega), srcField_eq (by omega), dstField_eq (by omega)⟩
  rw [modeField, bit_of_toNat (b := m.prpo) (by omega), bit_of_toNat (b := m.dec) (by omega),
    bit_of_toNat (b := m.inc) (by omega)]

theorem fields_encodeMI (e : BitVec 2) (b : Byte) :
    immField (encodeMI e b dst) = b ∧ dstField (encodeMI e b dst) = dst := by
  have hdst := (regBits dst).isLt
  have hb := b.isLt
  have hn := encodeMI_toNat e b dst
  exact ⟨field_eq (by omega), dstField_eq (by omega)⟩

theorem fields_encodeRL (t : BitVec 1) (off : BitVec 7) : off7Field (encodeRL t off w src dst) = off ∧
    widthField (encodeRL t off w src dst) = w ∧ srcField (encodeRL t off w src dst) = src ∧
    dstField (encodeRL t off w src dst) = dst := by
  have hw := widthBit_le w
  have hsrc := (regBits src).isLt
  have hdst := (regBits dst).isLt
  have hoff := off.isLt
  have hn := encodeRL_toNat t off w src dst
  exact ⟨field_eq (by omega), widthField_eq (by omega), srcField_eq (by omega), dstField_eq (by omega)⟩

theorem brOffField_encodeBC (c : BitVec 3) (off : BitVec Config.brOffBits) : brOffField (encodeBC c off) = off := by
  have hoff : off.toNat < 1024 := off.isLt
  have hn := encodeBC_toNat c off
  exact BitVec.eq_of_toNat_eq (by rw [brOffField_toNat]; omega)

theorem blOffField_encode (off : BitVec Config.blOffBits) : blOffField (encode (.bl off)) = off := by
  have hoff : off.toNat < 8192 := off.isLt
  have hn := encodeBL_toNat off
  exact BitVec.eq_of_toNat_eq (by rw [blOffField_toNat]; omega)

end

/-- R103: the fields of an instruction's word are its operands. -/
theorem withFields_encode (i : Instr) : i.withFields (encode i) = i := by
  cases i with
  | bl off => rw [Instr.withFields, blOffField_encode]
  | beq off | bne off | bc off | bnc off | bn off | bge off | blt off | bra off =>
    simp only [Instr.withFields, encode, brOffField_encodeBC]
  | add src w dst | addc src w dst | sub src w dst | subc src w dst | dadd src w dst | cmp src w dst | xor src w dst
  | and src w dst | or src w dst | bit src w dst | bic src w dst | bis src w dst =>
    simp only [Instr.withFields, encode, fields_encodeA2]
  | mov w src dst => simp only [Instr.withFields, fields_encodeMov]
  | swap src dst => simp only [Instr.withFields, fields_encodeSwap]
  | sra w dst | rrc w dst | swpb dst | sxt dst => simp only [Instr.withFields, encode, fields_encodeR1]
  | ld m w src dst | st m w src dst => simp only [Instr.withFields, encode, fields_encodeIX]
  | movl b dst | movlz b dst | movls b dst | movh b dst => simp only [Instr.withFields, encode, fields_encodeMI]
  | ldr off w src dst | str off w src dst => simp only [Instr.withFields, encode, fields_encodeRL]

theorem decode_encode (i : Instr) : decode (encode i) = .ok i := by
  rw [decode_of_selects (selects_encode i), withFields_encode]

/-- R51, R100: the decoder on bytes reads the word they make, and leaves the rest. -/
theorem decodeBytes_of_decode {v : Word} {i : Instr} (h : decode v = .ok i) (rest : List Byte) :
    decodeBytes (lowByte v :: highByte v :: rest) = .ok (i, rest) := by
  have hw : wordOfBytes (lowByte v) (highByte v) = v := joinBytes_highByte_lowByte v
  rw [decodeBytes, hw, h]

/-- Settles O2: an instruction's row selects its word, whose fields are its operands. -/
theorem decodeOfEncodeIsTheInstruction : Obligations.DecodeOfEncodeIsTheInstruction := fun i rest =>
  ⟨decode_encode i, decodeBytes_of_decode (decode_encode i) rest⟩

/-! ## UndefinedWord addressing modes (R141) -/

/-- R108, R141: the undefined modes, by the field of the three mode bits. -/
theorem legal_modeField (v : Word) : (modeField v).legal = false ↔
    v.extractLsb' 7 3 = 0b011#3 ∨ v.extractLsb' 7 3 = 0b100#3 ∨ v.extractLsb' 7 3 = 0b111#3 := by
  have hfield : modeField v =
      ⟨(v.extractLsb' 7 3).getLsbD 2, (v.extractLsb' 7 3).getLsbD 1, (v.extractLsb' 7 3).getLsbD 0⟩ := by
    simp [modeField]
  rw [hfield]
  generalize v.extractLsb' 7 3 = m
  revert m
  decide

theorem encodeIX_within (t : BitVec 1) (m : ModeBits) (w : Width) (src dst : Reg) :
    within 0x5800 0x5FFF (encodeIX t m w src dst) := by
  have hw := widthBit_le w
  have hsrc := (regBits src).isLt
  have hdst := (regBits dst).isLt
  have hprpo := m.prpo.toNat_le
  have hdec := m.dec.toNat_le
  have hinc := m.inc.toNat_le
  simp only [within, encodeIX_toNat]
  simp; omega

/-- R112: the words from 0x5800 to 0x5FFF are the loads and stores with mode bits. -/
theorem decode_of_within {v : Word} (h : within 0x5800 0x5FFF v) : ∃ w src dst,
    decode v = .ok (.ld (modeField v) w src dst) ∨ decode v = .ok (.st (modeField v) w src dst) := by
  have hrange : 0x5800 ≤ v.toNat ∧ v.toNat ≤ 0x5FFF := h
  have hmask : v &&& 0xF800 = 0x5800 := and_highMask_eq 11 rfl (by simp; omega)
  rw [decode_indexed hmask]
  refine ⟨widthField v, srcField v, dstField v, ?_⟩
  cases v.getLsbD 10 <;> simp

/-- R141: only LD and ST can be ill-formed, by their mode. -/
theorem exists_mode_of_not_wellFormed {i : Instr} (h : i.wellFormed = false) : ∃ t m w src dst,
    encode i = encodeIX t m w src dst ∧ m.legal = false := by
  cases i with
  | ld m w src dst => exact ⟨0, m, w, src, dst, rfl, h⟩
  | st m w src dst => exact ⟨1, m, w, src, dst, rfl, h⟩
  | _ => exact absurd h (by simp [Instr.wellFormed])

/-- Settles O4: the rejected words by `decode_error_iff`; of the others only LD and ST have a mode, which the word
holds in bits 9 to 7. -/
theorem undefinedWordsAreThoseOfTheTable : Obligations.UndefinedWordsAreThoseOfTheTable := by
  refine ⟨decode_error_iff, fun v i hd => ⟨fun h => ?_, fun ⟨hv, hmode⟩ => ?_⟩⟩
  · obtain ⟨t, m, w, src, dst, he, hm⟩ := exists_mode_of_not_wellFormed h
    rw [encodeOfDecodeIsTheWord v i hd] at he
    obtain ⟨hmode, -⟩ := fields_encodeIX w src dst t m
    rw [← he] at hmode
    exact ⟨he ▸ encodeIX_within t m w src dst, (legal_modeField v).1 (hmode.symm ▸ hm)⟩
  · obtain ⟨w, src, dst, h | h⟩ := decode_of_within hv
    all_goals
      obtain rfl := Except.ok.inj (hd.symm.trans h)
      exact (legal_modeField v).2 hmode

theorem decode_of_encode_eq {i : Instr} {v : Word} (h : encode i = v) : decode v = .ok i := h ▸ decode_encode i

/-- Settles O1: each word is the encoding of its instruction (R103). -/
theorem decodeReadsTheSpecsExampleWords : Obligations.DecodeReadsTheSpecsExampleWords := by
  refine ⟨?_, ?_, ?_, ?_, ?_, ?_, ?_, ?_, ?_, ?_, ?_, ?_⟩ <;> exact decode_of_encode_eq (by decide)

end Sys2Proof
end

section
/-! PROOFS. A step by what the fetched word decodes to (spec 60_exceptions.md R251, 30_encoding.md R113), LDR and STR
(40_load_store.md R146, R147), and the words that look useless (30_encoding.md R114). -/

namespace Sys2Proof.Machine

open Sys2Proof Sys2Proof.Claim

/-! ## The step of a running core (R251) -/

theorem step_of_ok {s : State} {i : Instr} (hrun : s.stopped = false) (hd : decode s.fetch.ir = .ok i) :
    step s = exec i (s.fetch.tick Config.clkDecode) := by
  simp [step, hrun, hd]

theorem step_of_error {s : State} {e : Reject} (hrun : s.stopped = false) (hd : decode s.fetch.ir = .error e) :
    step s = .next ((s.fetch.report .undefinedOpcode s.fetch.ir).tick Config.clkAbandonedOpcode) := by
  simp [step, hrun, hd, abandon]

/-- R51: two bytes decode as the word they make. -/
theorem decode_of_decodeBytes {lo hi : Byte} {i : Instr} (h : decodeBytes [lo, hi] = .ok (i, [])) :
    decode (joinBytes hi lo) = .ok i := by
  cases hd : decode (joinBytes hi lo) with
  | ok j =>
    have hj := decodeBytes_of_decode hd []
    rw [lowByte_joinBytes, highByte_joinBytes, h] at hj
    simpa using hj.symm
  | error e =>
    simp only [decodeBytes, show wordOfBytes lo hi = joinBytes hi lo from rfl, hd] at h
    contradiction

/-- Settles O7: the fetch puts the word of the two bytes into IR (R101). -/
theorem stepRunsTheDecodedInstruction : Obligations.StepRunsTheDecodedInstruction := by
  intro s i hs hrun hbytes
  obtain ⟨hir, -, -, -⟩ := fetch_spec hs
  have hd : decode (s.archWord s.pc) = .ok i := decode_of_decodeBytes hbytes
  exact step_of_ok hrun (hir ▸ hd)

/-- Settles O9: the step is the fetch and the report of an undefined opcode (R113, R232). -/
theorem undefinedOpcodeIsReportedAndAbandoned : Obligations.UndefinedOpcodeIsReportedAndAbandoned := by
  intro s e hs hrun hd
  obtain ⟨hir, -, harch, hdiags⟩ := fetch_spec hs
  obtain ⟨hpsw, -, -, hst, -, hclk, hpc, hx⟩ := fetch_frame s
  rw [← hir] at hd
  refine ⟨_, step_of_error hrun hd, ?_, fun q hq => ?_, hpsw, harch, hir, ?_, rfl, rfl, ?_, ?_⟩
  · exact hpc
  · simp [hx q hq]
  · simp [hdiags, hir, checkAlign_eq, State.pc]
  · simp [hst, hrun, Diag.fatal]
  · exact hclk.trans (Nat.le_add_right ..)

/-! ## Relative loads and stores (R145 to R147) -/

/-- What no access to memory changes, the end of the instruction and its write of a register keep. -/
theorem Frame.sameControl {i : Instr} {s u t : State} (h : Frame s u) (hl : Local i u t) : SameControl s t :=
  ⟨hl.ir.trans h.ir, hl.writePolicy.trans h.writePolicy, hl.organisation.trans h.organisation,
    hl.stopped.trans h.stopped, (congrArg Cache.size hl.cache).trans h.size, h.clk.trans hl.clk⟩

theorem memRead_diags {s : State} (h : s.Coherent) (w : Width) (a : Word) :
    (s.memRead w a).2.diags = s.diags ++ alignReport w a := by
  obtain ⟨-, -, -, hdiags⟩ := memRead_spec h w a
  rw [hdiags, checkAlign_eq]

theorem memWrite_diags {s : State} (h : s.Coherent) (w : Width) (a v : Word) :
    (s.memWrite w a v).diags = s.diags ++ alignReport w a := by
  obtain ⟨-, -, hdiags⟩ := memWrite_spec h w a v
  rw [hdiags, checkAlign_eq]

/-- R140, R164: what a load of `v` leaves in the registers: a byte goes to the low half of the destination. -/
theorem loadInto_x (s : State) (w : Width) (dst q : Reg) (v : Word) :
    (s.loadInto w dst v).x q = if q = dst then mergeResult w (s.x dst) v else s.x q := State.setX_x ..

/-- R80, R140: the destination's new value, when the value loaded is what `MemRead` answers. -/
theorem mergeResult_memRead {s : State} (h : s.Coherent) (w : Width) (a old : Word) :
    mergeResult w old (s.memRead w a).1 = match w with
      | .word => s.archWord a
      | .byte => withLow old (s.archByte a) := by
  obtain ⟨hv, -, -, -⟩ := memRead_spec h w a
  rw [hv]
  cases w with
  | word => rfl
  | byte => exact mergeResult_byte ..

/-- Settles O51: LDR is one `MemRead` and the write of its destination. -/
theorem ldrLoadsFromBasePlusOffset : Obligations.LdrLoadsFromBasePlusOffset := by
  intro off w src dst s hs
  obtain ⟨-, -, harch, -⟩ := memRead_spec hs w (relativeAddr (s.x src) off)
  have hframe := memRead_frame s w (relativeAddr (s.x src) off)
  have hlocal := (Local.refl (.ldr off w src dst) (s.memRead w (relativeAddr (s.x src) off)).2).writeResult w dst
  refine ⟨_, rfl, ?_, fun q hq => ?_, hframe.psw, hframe.sameControl ((hlocal _).tick _), memRead_diags hs .., harch⟩
  · rw [State.tick_x, loadInto_x, if_pos rfl, hframe.x]
    exact mergeResult_memRead hs ..
  · rw [State.tick_x, loadInto_x, if_neg hq, hframe.x]

/-- Settles O52: STR is one `MemWrite`. -/
theorem strStoresToBasePlusOffset : Obligations.StrStoresToBasePlusOffset := by
  intro off w src dst s hs
  obtain ⟨-, harch, -⟩ := memWrite_spec hs w (relativeAddr (s.x dst) off) (s.x src)
  have hframe := memWrite_frame s w (relativeAddr (s.x dst) off) (s.x src)
  have hlocal := Local.refl (.str off w src dst) (s.memWrite w (relativeAddr (s.x dst) off) (s.x src))
  refine ⟨_, rfl, fun b hb => ?_, fun b hb => ?_, hframe.regs, hframe.psw, hframe.sameControl (hlocal.tick _),
    memWrite_diags hs ..⟩
  · exact (harch b).trans (if_pos hb)
  · exact (harch b).trans (if_neg (Bool.eq_false_iff.1 hb))

/-! ## Words that look useless (R114) -/

theorem completes_retire (s : State) : Completes (retire s) s s.regs s.psw := ⟨_, rfl⟩

theorem completes_retire_setX (s : State) (r : Reg) (v : Word) :
    Completes (retire (s.setX r v)) s (s.regs.put r v) s.psw := ⟨_, rfl⟩

/-- R212: BL with displacement 0 writes the link and leaves the program counter. -/
theorem exec_bl_zero (s : State) : exec (.bl 0) s = retire (s.setX .r5 (s.x .r7)) := by
  have htarget : s.branchTarget (linkDisp 0) = (s.setX .r5 s.pc).x .r7 := BitVec.add_zero _
  show execBl 0 s = _
  rw [execBl, htarget, State.setX_x_self]; rfl

/-- R220: BRA branches by its displacement. -/
theorem exec_bra (off : BitVec Config.brOffBits) (s : State) :
    exec (.bra off) s = retire (s.setX .r7 (s.x .r7 + branchDisp off)) := rfl

/-- R191: a word MOV of a register to itself changes nothing. -/
theorem exec_mov_self (s : State) (r : Reg) : exec (.mov .word r r) s = retire s :=
  congrArg retire (State.setX_x_self s r)

/-- Settles O6: a displacement of 0 leaves the program counter, and the field 0x3FF is the displacement -2 (R105). -/
theorem uselessLookingWordsExecuteAsDefined : Obligations.UselessLookingWordsExecuteAsDefined := by
  intro s
  have hzero : branchDisp 0 = 0#16 := by decide
  have hminusTwo : branchDisp 0x3FF = -2#16 := by decide
  refine ⟨⟨_, decode_of_encode_eq (i := .bl 0) (by decide), rfl, ?_⟩,
    ⟨_, decode_of_encode_eq (i := .mov .word .r0 .r0) (by decide), rfl, ?_⟩,
    ⟨_, decode_of_encode_eq (i := .bra 0) (by decide), rfl, ?_⟩,
    ⟨_, decode_of_encode_eq (i := .bra 0x3FF) (by decide), rfl, ?_⟩⟩
  · rw [exec_bl_zero]
    exact completes_retire_setX ..
  · rw [exec_mov_self]
    exact completes_retire s
  · rw [exec_bra, hzero, BitVec.add_zero, State.setX_x_self]
    exact completes_retire s
  · rw [exec_bra, hminusTwo, ← BitVec.sub_eq_add_neg]
    exact completes_retire_setX ..

end Sys2Proof.Machine
end

section
/-! PROOFS. Loads and stores in the indexed modes (spec 40_load_store.md R140 to R144, 60_exceptions.md R232): what
resolving an address and writing it back do, said once, then LD and ST, and the high byte that every byte form keeps. -/

namespace Sys2Proof.Machine

open Sys2Proof Sys2Proof.Claim

/-! ## The indexed modes (R141) -/

theorem widthDelta_eq (w : Width) : widthDelta w = if w = .word then 2#16 else 1#16 := by cases w <;> rfl

/-- R141: the three undefined modes, of the eight that three mode bits give. -/
theorem legal_eq_false_iff (m : ModeBits) : m.legal = false ↔
    m = ⟨false, true, true⟩ ∨ m = ⟨true, false, false⟩ ∨ m = ⟨true, true, true⟩ := by
  obtain ⟨prpo, dec, inc⟩ := m
  revert prpo dec inc
  decide

/-- R141: an address is resolved in a legal mode and in no other, whatever the width and the address. -/
theorem resolveIndexed_eq_none_iff (m : ModeBits) (w : Width) (a : Word) :
    resolveIndexed m w a = none ↔ m.legal = false := by
  obtain ⟨prpo, dec, inc⟩ := m
  cases prpo <;> cases dec <;> cases inc <;> simp [resolveIndexed, ModeBits.legal]

/-- Settles O48: five values by definition, and no value in the modes that are not legal. -/
theorem indexedAddressesOfTheFiveModes : Obligations.IndexedAddressesOfTheFiveModes := by
  intro w a
  simp only [← widthDelta_eq]
  exact ⟨rfl, rfl, rfl, rfl, rfl, fun m => (resolveIndexed_eq_none_iff m w a).trans (legal_eq_false_iff m)⟩

/-- R141: a mode that does not modify the address register resolves its new value to the old one. -/
theorem resolveIndexed_next_of_unmodified {m : ModeBits} {w : Width} {a : Word} {r : Resolved}
    (h : resolveIndexed m w a = some r) (hm : r.modified = false) : r.next = a := by
  unfold resolveIndexed at h
  split at h <;> cases h
  case h_1 => rfl
  all_goals contradiction

/-! ## The write-back of the address register (R142) -/

section
variable (s : State) (addr other : Reg) (r : Resolved)

@[simp] theorem State.writeBack_psw : (s.writeBack addr other r).psw = s.psw := by unfold State.writeBack; split <;> rfl

@[simp] theorem State.writeBack_diags : (s.writeBack addr other r).diags = s.diags := by
  unfold State.writeBack; split <;> rfl

/-- R142: no register but the address register is written. -/
theorem State.writeBack_x_other {q : Reg} (hq : q ≠ addr) : (s.writeBack addr other r).x q = s.x q := by
  unfold State.writeBack
  split
  · exact State.setX_x_other _ _ hq
  · rfl

/-- R142: an address register that is also the other register named is not written back. -/
@[simp] theorem State.writeBack_same : s.writeBack addr addr r = s := by simp [State.writeBack]

/-- R142: the other register named keeps its value, whether or not it is the address register. -/
@[simp] theorem State.writeBack_x_named : (s.writeBack addr other r).x other = s.x other := by
  by_cases h : other = addr
  · rw [h, State.writeBack_same]
  · exact State.writeBack_x_other _ _ _ _ h

end

/-- R142: the address register takes the value it resolved to, also in the mode that does not modify it. -/
theorem writeBack_x_addr {s : State} {m : ModeBits} {w : Width} {addr other : Reg} {r : Resolved}
    (hr : resolveIndexed m w (s.x addr) = some r) (h : addr ≠ other) : (s.writeBack addr other r).x addr = r.next := by
  cases hm : r.modified with
  | true => rw [State.writeBack, if_pos ⟨hm, h⟩, State.setX_x_same]
  | false => rw [State.writeBack, if_neg (by simp [hm]), resolveIndexed_next_of_unmodified hr hm]

/-! ## LD and ST by the mode -/

section
variable {m : ModeBits} {w : Width} {src dst : Reg} {r : Resolved} {s : State}

/-- R143: LD in a legal mode. -/
theorem exec_ld_of_resolved (hr : resolveIndexed m w (s.x src) = some r) : exec (.ld m w src dst) s =
    retire (((s.memRead w r.ea).2.writeBack src dst r).loadInto w dst (s.memRead w r.ea).1) := by
  simp only [exec, execLd, hr]

/-- R144: ST in a legal mode. -/
theorem exec_st_of_resolved (hr : resolveIndexed m w (s.x dst) = some r) : exec (.st m w src dst) s =
    retire ((s.memWrite w r.ea (s.x src)).writeBack dst src r) := by
  simp only [exec, execSt, hr]

/-- R141: LD in an undefined mode. -/
theorem exec_ld_of_unresolved (hr : resolveIndexed m w (s.x src) = none) : exec (.ld m w src dst) s =
    abandon .undefinedAddrMode s.ir Config.clkAbandonedMode s := by
  simp only [exec, execLd, hr]

/-- R141: ST in an undefined mode. -/
theorem exec_st_of_unresolved (hr : resolveIndexed m w (s.x dst) = none) : exec (.st m w src dst) s =
    abandon .undefinedAddrMode s.ir Config.clkAbandonedMode s := by
  simp only [exec, execSt, hr]

end

/-- R232, R234: to abandon an instruction by a condition that is not fatal adds the event and advances the clock. -/
theorem abandon_eq {d : Diag} (hd : d.fatal = false) (info : Word) (cost : Nat) (s : State) :
    abandon d info cost s = .next { s with diags := s.diags ++ [⟨d, info⟩], clk := s.clk + cost } := by
  simp [abandon, State.report, State.tick, hd]

/-- Settles O53: an undefined mode resolves no address, and UndefinedAddrMode is not fatal. -/
theorem undefinedModeIsReportedAndAbandoned : Obligations.UndefinedModeIsReportedAndAbandoned := by
  intro m w src dst s hm
  have hnone := fun a => (resolveIndexed_eq_none_iff m w a).2 hm
  exact ⟨⟨_, (exec_ld_of_unresolved (hnone _)).trans (abandon_eq rfl ..)⟩,
    ⟨_, (exec_st_of_unresolved (hnone _)).trans (abandon_eq rfl ..)⟩⟩

/-- Settles O49: LD is one `MemRead`, the write-back of its address register and the write of its destination. -/
theorem ldLoadsFromTheResolvedAddress : Obligations.LdLoadsFromTheResolvedAddress := by
  intro m w src dst r s hs hr
  obtain ⟨-, -, harch, -⟩ := memRead_spec hs w r.ea
  have hframe := memRead_frame s w r.ea
  have hlocal := (((Local.refl (.ld m w src dst) (s.memRead w r.ea).2).writeBack src dst r).writeResult w dst
    (s.memRead w r.ea).1).tick (Config.clkExecute + Config.clkInstruction)
  have hresolved : resolveIndexed m w ((s.memRead w r.ea).2.x src) = some r := by rwa [hframe.x]
  refine ⟨_, exec_ld_of_resolved hr, ?_, fun hne => ?_, fun q hdst hsrc => ?_, ?_, hframe.sameControl hlocal, ?_,
    fun b => (hlocal.archByte b).trans (harch b)⟩
  · rw [State.tick_x, loadInto_x, if_pos rfl, State.writeBack_x_named, hframe.x]
    exact mergeResult_memRead hs ..
  · rw [State.tick_x, loadInto_x, if_neg hne, writeBack_x_addr hresolved hne]
  · rw [State.tick_x, loadInto_x, if_neg hdst, State.writeBack_x_other _ _ _ _ hsrc, hframe.x]
  · exact (State.writeBack_psw ..).trans hframe.psw
  · exact (State.writeBack_diags ..).trans (memRead_diags hs ..)

/-- Settles O50: ST is one `MemWrite` and the write-back of its address register, which no byte of memory sees. -/
theorem stStoresToTheResolvedAddress : Obligations.StStoresToTheResolvedAddress := by
  intro m w src dst r s hs hr
  obtain ⟨-, harch, -⟩ := memWrite_spec hs w r.ea (s.x src)
  have hframe := memWrite_frame s w r.ea (s.x src)
  have hexec := exec_st_of_resolved (src := src) hr
  have hlocal := execSt_local hr hexec
  have hresolved : resolveIndexed m w ((s.memWrite w r.ea (s.x src)).x dst) = some r := by rwa [hframe.x]
  refine ⟨_, hexec, fun b hb => ?_, fun b hb => ?_, fun hne => ?_, fun heq => ?_, fun q hq => ?_, ?_,
    hframe.sameControl hlocal, ?_⟩
  · exact (hlocal.archByte b).trans ((harch b).trans (if_pos hb))
  · exact (hlocal.archByte b).trans ((harch b).trans (if_neg (Bool.eq_false_iff.1 hb)))
  · rw [State.tick_x, writeBack_x_addr hresolved hne.symm]
  · subst heq
    rw [State.tick_x, State.writeBack_same, hframe.x]
  · rw [State.tick_x, State.writeBack_x_other _ _ _ _ hq, hframe.x]
  · exact (State.writeBack_psw ..).trans hframe.psw
  · exact (State.writeBack_diags ..).trans (memWrite_diags hs ..)

/-! ## The high byte of the destination of a byte form (R164, R140) -/

/-- R164: an answer from `s` that leaves bits 15 to 8 of register `d` as they were. -/
def KeepsHighByte (d : Reg) (s : State) (r : Result) : Prop := ∀ t, r = .next t → highByte (t.x d) = highByte (s.x d)

section
variable {d : Reg} {s u : State}

theorem KeepsHighByte.retire (h : u.x d = s.x d) : KeepsHighByte d s (retire u) := by
  rintro _ ⟨⟩
  rw [State.tick_x, h]

theorem KeepsHighByte.abandon (e : Diag) (info : Word) (cost : Nat) : KeepsHighByte d s (abandon e info cost s) := by
  rintro _ ⟨⟩
  rw [State.tick_x, State.report_x]

/-- R164: a byte result written where the destination is still the old one. -/
theorem KeepsHighByte.retire_writeResult (h : u.x d = s.x d) (v : Word) :
    KeepsHighByte d s (Machine.retire (u.writeResult .byte d v)) := by
  rintro _ ⟨⟩
  rw [State.tick_x, State.writeResult, State.setX_x_same, mergeResult, highByte_joinBytes, h]

end

@[simp] theorem checkBitIndex_x (s : State) (w : Width) (v : Word) (q : Reg) : (s.checkBitIndex w v).x q = s.x q := by
  cases w
  · rfl
  · simp only [State.checkBitIndex]
    split
    · exact State.report_x ..
    · rfl

/-- R142, R143: the write-back of a load comes before the write of its destination and leaves it alone. -/
theorem exec_ld_keepsHighByte (m : ModeBits) (src dst : Reg) (s : State) :
    KeepsHighByte dst s (exec (.ld m .byte src dst) s) := by
  cases hr : resolveIndexed m .byte (s.x src) with
  | none =>
    rw [exec_ld_of_unresolved hr]
    exact .abandon _ _ _
  | some r =>
    rw [exec_ld_of_resolved hr]
    exact .retire_writeResult (by rw [State.writeBack_x_named, (memRead_frame ..).x]) _

/-- R164: a byte form writes a byte result over a destination that flags, reports and an access to memory have left
alone, or writes no register (CMP, BIT). -/
theorem exec_keepsHighByte {i : Instr} {d : Reg} (h : byteDestination i = some d) (s : State) :
    KeepsHighByte d s (exec i s) := by
  cases i with
  | add src w dst | addc src w dst | sub src w dst | subc src w dst | dadd src w dst | xor src w dst | and src w dst
  | or src w dst | sra w dst | rrc w dst =>
    cases w <;> cases h
    exact .retire_writeResult (State.setPsw_x ..) _
  | bic src w dst | bis src w dst =>
    cases w <;> cases h
    exact .retire_writeResult ((State.setPsw_x ..).trans (checkBitIndex_x ..)) _
  | cmp src w dst =>
    cases w <;> cases h
    exact .retire (State.setPsw_x ..)
  | bit src w dst =>
    cases w <;> cases h
    exact .retire ((State.setPsw_x ..).trans (checkBitIndex_x ..))
  | mov w src dst =>
    cases w <;> cases h
    exact .retire_writeResult rfl _
  | ld m w src dst =>
    cases w <;> cases h
    exact exec_ld_keepsHighByte m src d s
  | ldr off w src dst =>
    cases w <;> cases h
    exact .retire_writeResult ((memRead_frame ..).x _) _
  | _ => contradiction

/-- Settles O42: what `exec_keepsHighByte` says of every answer, said of a next state. -/
theorem byteFormsKeepTheHighByteOfTheDestination : Obligations.ByteFormsKeepTheHighByteOfTheDestination :=
  fun _ _ s t hd h => exec_keepsHighByte hd s t h

end Sys2Proof.Machine
end

section
/-! PROOFS. The add funnel (spec 41_alu.md R161, R162, R166 to R169, R171): its two tables, what it gives at each width,
then ADD and ADDC, the difference it gives on a complemented source for SUB and SUBC, and the comparisons of CMP. -/

namespace Sys2Proof.Machine

open Sys2Proof Sys2Proof.Claim

/-- Settles O32: each table has eight rows. -/
theorem carryAndOverflowTables : Obligations.CarryAndOverflowTables := ⟨by decide, rfl⟩

/-- An instruction that completed left the registers and the status word it completed with. -/
theorem completes_next {r : Result} {s t : State} {regs : RegFile} {p : PSW} (h : Completes r s regs p)
    (ht : r = .next t) : t.regs = regs ∧ t.psw = p := by
  obtain ⟨cost, rfl⟩ := h
  cases ht
  exact ⟨rfl, rfl⟩

/-! ## The funnel at each width -/

/-- R161: the end of ADD, ADDC, SUB and SUBC, for the source `sv` the funnel sees. -/
theorem completes_addInto (s : State) (w : Width) (dst : Reg) (sv : Word) (cin : Bool) :
    Completes (retire (s.addInto w dst sv cin)) s
      (s.regs.put dst (mergeResult w (s.x dst) (funnelSum w sv (s.x dst &&& widthMask w) cin)))
      (funnelFlags s.psw w sv (s.x dst &&& widthMask w) (funnelSum w sv (s.x dst &&& widthMask w) cin)) := ⟨_, rfl⟩

theorem byteWord_beq_zero (b : Byte) : (byteWord b == 0) = decide (b = 0) := by
  rw [beq_eq_decide]
  exact decide_eq_decide.2 byteWord_eq_zero

theorem sumFlags_comm {n : Nat} (p : PSW) (d v : BitVec n) (c : Bool) : sumFlags p d v c = sumFlags p v d c := by
  rw [sumFlags, BitVec.add_comm d, Nat.add_comm d.toNat, Int.add_comm d.toInt, sumFlags]

/-- R162: on words the two tables are the unsigned and the signed overflow of the sum. -/
theorem funnelFlags_word (p : PSW) (d v : Word) (c : Bool) :
    funnelFlags p .word v d (v + d + BitVec.ofNat 16 c.toNat) = sumFlags p d v c := by
  rw [sumFlags_comm]
  simp only [funnelFlags, sumFlags, msbOf_word, carryTable_sum v d c (by decide), overflowTable_sum v d c (by decide),
    beq_eq_decide]

/-- R162: on low bytes the two tables are the unsigned and the signed overflow of the sum. -/
theorem funnelFlags_byte (p : PSW) (d v : Byte) (c : Bool) :
    funnelFlags p .byte (byteWord v) (byteWord d) (byteWord (v + d + BitVec.ofNat 8 c.toNat)) = sumFlags p d v c := by
  rw [sumFlags_comm]
  simp only [funnelFlags, sumFlags, msbOf_byteWord, carryTable_sum v d c (by decide),
    overflowTable_sum v d c (by decide), byteWord_beq_zero]

section
variable (s : State) (dst : Reg) (c : Bool)

/-- R161: the word funnel gives the sum and its flags. -/
theorem completes_addInto_word (v : Word) : Completes (retire (s.addInto .word dst v c)) s
    (s.regs.put dst (s.x dst + v + BitVec.ofNat 16 c.toNat)) (sumFlags s.psw (s.x dst) v c) := by
  have h := completes_addInto s .word dst v c
  rwa [mask_word, funnelSum_word, funnelFlags_word, BitVec.add_comm v] at h

/-- R161, R164: the byte funnel gives the sum of the low bytes and its flags; the high byte stays. -/
theorem completes_addInto_byte (v : Byte) : Completes (retire (s.addInto .byte dst (byteWord v) c)) s
    (s.regs.put dst (withLow (s.x dst) (lowByte (s.x dst) + v + BitVec.ofNat 8 c.toNat)))
    (sumFlags s.psw (lowByte (s.x dst)) v c) := by
  have h := completes_addInto s .byte dst (byteWord v) c
  rwa [mask_byte, funnelSum_byte, funnelFlags_byte, mergeResult_byte, BitVec.add_comm v] at h

end

/-- Settles O33: ADD and ADDC are the funnel on the source, without and with the carry. -/
theorem addAndAddcGiveTheSum : Obligations.AddAndAddcGiveTheSum := by
  intro src dst s
  simp only [exec, execAdd, execAddc, State.aluAdd, State.aluAddc, mask_word, mask_byte]
  refine ⟨?_, ?_, completes_addInto_word .., completes_addInto_byte ..⟩
  · simpa using completes_addInto_word s dst false (s.operand src)
  · simpa using completes_addInto_byte s dst false (lowByte (s.operand src))

/-! ## The difference (R168, R169) -/

theorem toInt_complement {n : Nat} (hn : 0 < n) (v : BitVec n) : (~~~v).toInt = -v.toInt - 1 := by
  have hv := v.isLt
  have hcast : ((2 ^ n - 1 - v.toNat : Nat) : Int) = (2 ^ n : Nat) - 1 - v.toNat := by omega
  rw [BitVec.toInt_eq_msb_cond, BitVec.toInt_eq_msb_cond, BitVec.msb_not, BitVec.toNat_not, hcast]
  cases v.msb <;> simp [hn] <;> omega

/-- The sum with the complemented source and the inverted borrow has the flags of the difference. -/
theorem sumFlags_complement {n : Nat} (hn : 0 < n) (p : PSW) (d v : BitVec n) (b : Bool) :
    sumFlags p d (~~~v) (!b) = diffFlags p d v b := by
  have hr : d + ~~~v + BitVec.ofNat n (!b).toNat = d - v - BitVec.ofNat n b.toNat := by
    rw [BitVec.add_comm d, add_not_eq_sub]
  have hb : (!b).toNat + b.toNat = 1 := by cases b <;> rfl
  have hv := v.isLt
  have hc : 2 ^ n ≤ d.toNat + (2 ^ n - 1 - v.toNat) + (!b).toNat ↔ v.toNat + b.toNat ≤ d.toNat := by omega
  have hsum : d.toInt + (-v.toInt - 1) + ((!b).toNat : Int) = d.toInt - v.toInt - b.toNat := by omega
  simp only [sumFlags, diffFlags, hr, toInt_complement hn, BitVec.toNat_not, hc, hsum]

theorem lowByte_complement (v : Word) : lowByte (~~~v) = ~~~lowByte v := BitVec.extractLsb'_not_of_lt (by decide)

section
variable (s : State) (dst : Reg) (b : Bool)

/-- R168, R169: the word funnel on the complemented source and the inverted borrow. -/
theorem completes_addInto_complement_word (v : Word) : Completes (retire (s.addInto .word dst (~~~v) (!b))) s
    (s.regs.put dst (s.x dst - v - BitVec.ofNat 16 b.toNat)) (diffFlags s.psw (s.x dst) v b) := by
  have h := completes_addInto_word s dst (!b) (~~~v)
  rwa [sumFlags_complement (by decide), BitVec.add_comm (s.x dst), add_not_eq_sub] at h

/-- R168, R169: the byte funnel on the complemented source and the inverted borrow. -/
theorem completes_addInto_complement_byte (v : Byte) :
    Completes (retire (s.addInto .byte dst (byteWord (~~~v)) (!b))) s
      (s.regs.put dst (withLow (s.x dst) (lowByte (s.x dst) - v - BitVec.ofNat 8 b.toNat)))
      (diffFlags s.psw (lowByte (s.x dst)) v b) := by
  have h := completes_addInto_byte s dst (!b) (~~~v)
  rwa [sumFlags_complement (by decide), BitVec.add_comm (lowByte _), add_not_eq_sub] at h

end

/-- Settles O34: SUB and SUBC are the funnel on the complemented source, without and with the borrow. -/
theorem subAndSubcGiveTheDifference : Obligations.SubAndSubcGiveTheDifference := by
  intro src dst s
  simp only [exec, execSub, execSubc, State.aluSub, State.aluSubc, mask_word, mask_byte, lowByte_complement]
  refine ⟨?_, ?_, ?_, ?_⟩
  · simpa using completes_addInto_complement_word s dst false (s.operand src)
  · simpa using completes_addInto_complement_byte s dst false (lowByte (s.operand src))
  · simpa using completes_addInto_complement_word s dst (!s.psw.c) (s.operand src)
  · simpa using completes_addInto_complement_byte s dst (!s.psw.c) (lowByte (s.operand src))

/-! ## The comparisons (R171, R210) -/

section
variable {n : Nat} (p : PSW) (d v : BitVec n)

theorem diffFlags_z : (diffFlags p d v false).z = decide (d = v) := by
  simp [diffFlags, BitVec.sub_eq_iff_eq_add]

theorem diffFlags_c : (diffFlags p d v false).c = decide (v.toNat ≤ d.toNat) := rfl

/-- A difference that does not fit has the sign opposite to the one of the true difference. -/
theorem toInt_sub_cases : (d - v).toInt = d.toInt - v.toInt ∨
    (0 ≤ (d - v).toInt ∧ d.toInt < v.toInt) ∨ ((d - v).toInt < 0 ∧ v.toInt < d.toInt) := by
  cases ho : BitVec.ssubOverflow d v with
  | false => exact .inl (BitVec.toInt_sub_of_not_ssubOverflow (by simp [ho]))
  | true =>
    rw [BitVec.toInt_sub]
    rw [BitVec.ssubOverflow, Bool.or_eq_true, decide_eq_true_eq, decide_eq_true_eq, ge_iff_le,
      BitVec.twoPow_le_toInt_sub_toInt_iff, BitVec.toInt_sub_toInt_lt_twoPow_iff] at ho
    omega

/-- R210: N xor V of a difference is the signed comparison. -/
theorem diffFlags_lt :
    ((diffFlags p d v false).n ^^ (diffFlags p d v false).v) = decide (d.toInt < v.toInt) := by
  simp only [diffFlags, Bool.toNat_false, BitVec.sub_zero, BitVec.msb_eq_toInt, Int.ofNat_zero, Int.sub_zero]
  obtain h | ⟨h, hlt⟩ | ⟨h, hlt⟩ := toInt_sub_cases d v
  · simp only [h, ne_eq, not_true, decide_false, Bool.xor_false, sub_neg]
  · rw [decide_eq_false (by omega), decide_eq_true (by omega), decide_eq_true hlt, Bool.false_xor]
  · rw [decide_eq_true h, decide_eq_true (by omega), decide_eq_false (by omega), Bool.xor_self]

theorem diffFlags_le :
    (!((diffFlags p d v false).n ^^ (diffFlags p d v false).v)) = decide (v.toInt ≤ d.toInt) := by
  rw [diffFlags_lt, ← decide_not]
  exact decide_eq_decide.2 Int.not_lt

end

/-- R171: CMP sets the flags that SUB sets, and keeps every register. -/
theorem completes_cmp {src : Operand} {w : Width} {dst : Reg} {s : State} {regs : RegFile} {p : PSW}
    (h : Completes (exec (.sub src w dst) s) s regs p) : Completes (exec (.cmp src w dst) s) s s.regs p := by
  obtain ⟨-, rfl⟩ := completes_next h rfl
  exact ⟨_, rfl⟩

/-- Settles O35: the flags of SUB, read as comparisons. -/
theorem compareOrdersTheOperands : Obligations.CompareOrdersTheOperands := by
  intro src dst s
  obtain ⟨hword, hbyte, -⟩ := subAndSubcGiveTheDifference src dst s
  exact ⟨⟨_, completes_cmp hword, rfl, diffFlags_z .., diffFlags_c .., diffFlags_le .., diffFlags_lt ..⟩,
    ⟨_, completes_cmp hbyte, rfl, diffFlags_z .., diffFlags_c .., diffFlags_le .., diffFlags_lt ..⟩⟩

end Sys2Proof.Machine
end

section
/-! PROOFS. DADD (spec 41_alu.md R170): the model's decimal sum of bit fields is the digit algorithm on numbers, and on
decimal digits that algorithm is decimal addition. -/

namespace Sys2Proof.Machine

open Sys2Proof Sys2Proof.Claim

/-! ## The digits of the sum -/

/-- R170: one digit by the model's adder, the other `n` on numbers. -/
theorem decimal_succ (n : Nat) {x y : Nat} {a b : BitVec 4} (ha : a.toNat = x % 16) (hb : b.toNat = y % 16) (c : Bool) :
    decimal (n + 1) x y c.toNat =
      let d := decimalDigit a b c
      let r := decimal n (x / 16) (y / 16) d.2.toNat
      (d.1.toNat + 16 * r.1, r.2) := by
  obtain ⟨hcarry, hdigit⟩ := decimalDigit_spec a b c
  have hnum (q : Prop) [Decidable q] : (decide q).toNat = if q then 1 else 0 := by split <;> simp [*]
  simp only [hcarry, hdigit, ha, hb, hnum]
  rfl

/-- Digit `i` of a word, among the digits of the width. -/
theorem nibble_reduced {w : Width} {i : Nat} (hi : i < digits w) (v : Word) :
    (nibble v i).toNat = reduced w v / 16 ^ i % 16 := by
  rw [nibble_toNat, Nat.pow_mul]
  cases w with
  | word => rfl
  | byte =>
    rw [reduced, lowByte_toNat]
    change i < 2 at hi
    interval_cases i <;> omega

/-- R170: the sum of the digits from number `i` on is digit `i` and the sum of those above it. -/
theorem decimal_nibble {w : Width} {i : Nat} (hi : i < digits w) (sv dv : Word) (n : Nat) (c : Bool) :
    decimal (n + 1) (reduced w sv / 16 ^ i) (reduced w dv / 16 ^ i) c.toNat =
      let d := decimalDigit (nibble sv i) (nibble dv i) c
      let r := decimal n (reduced w sv / 16 ^ (i + 1)) (reduced w dv / 16 ^ (i + 1)) d.2.toNat
      (d.1.toNat + 16 * r.1, r.2) := by
  rw [decimal_succ n (nibble_reduced hi sv) (nibble_reduced hi dv), Nat.div_div_eq_div_mul, Nat.div_div_eq_div_mul,
    Nat.pow_succ]

theorem twoDigits_toNat (d0 d1 : BitVec 4) : (0#8 ++ d1 ++ d0 : Word).toNat = d0.toNat + 16 * d1.toNat := by
  have h : (0#8 ++ d1 ++ d0 : Word).toNat = (0#8 ++ d1).toNat * 2 ^ 4 + d0.toNat := append_toNat _ _
  rw [h, append_toNat, BitVec.toNat_zero]; omega

theorem fourDigits_toNat (d0 d1 d2 d3 : BitVec 4) : (d3 ++ d2 ++ d1 ++ d0 : Word).toNat =
    d0.toNat + 16 * (d1.toNat + 16 * (d2.toNat + 16 * d3.toNat)) := by
  have h : (d3 ++ d2 ++ d1 ++ d0 : Word).toNat = (d3 ++ d2 ++ d1).toNat * 2 ^ 4 + d0.toNat := append_toNat _ _
  rw [h, append_toNat, append_toNat]; omega

/-- R170: the model's decimal sum is the one on numbers. -/
theorem decimal_eq_decimalSum (w : Width) (sv dv : Word) (c : Bool) :
    decimal (digits w) (reduced w sv) (reduced w dv) c.toNat =
      ((decimalSum w sv dv c).1.toNat, (decimalSum w sv dv c).2.toNat) := by
  have hfrom (v : Word) : reduced w v = reduced w v / 16 ^ 0 := (Nat.div_one _).symm
  rw [hfrom sv, hfrom dv]
  cases w with
  | byte =>
    rw [decimalSum, twoDigits_toNat]
    simp (disch := decide) only [digits, decimal_nibble]
    rfl
  | word =>
    rw [decimalSum, fourDigits_toNat]
    simp (disch := decide) only [digits, decimal_nibble]
    rfl

/-! ## The result as a number -/

/-- R164: what is written over a register is the result, as a value of the width. -/
theorem reduced_mergeResult (w : Width) (old r : Word) : reduced w (mergeResult w old r) = reduced w r := by
  cases w with
  | word => rfl
  | byte => rw [mergeResult, reduced, lowByte_joinBytes, reduced]

theorem lowByte_eq_ofNat (r : Word) : lowByte r = BitVec.ofNat 8 r.toNat :=
  BitVec.eq_of_toNat_eq (by rw [lowByte_toNat, BitVec.toNat_ofNat])

/-- R170: a decimal sum is a value of its width. -/
theorem reduced_decimalSum (w : Width) (sv dv : Word) (c : Bool) :
    reduced w (decimalSum w sv dv c).1 = (decimalSum w sv dv c).1.toNat := by
  cases w with
  | word => rfl
  | byte => rw [reduced, lowByte_toNat, decimalSum, twoDigits_toNat]; omega

/-- R12: the top bit of a value of the width, as a number. -/
theorem msbOf_eq {w : Width} {r : Word} (h : reduced w r = r.toNat) :
    msbOf w r = decide (2 ^ (4 * digits w - 1) ≤ r.toNat) := by
  cases w with
  | word => rw [msbOf_word, BitVec.msb_eq_decide]; rfl
  | byte =>
    have hr : r = byteWord (lowByte r) := BitVec.eq_of_toNat_eq (by rw [byteWord_toNat]; exact h.symm)
    rw [hr, msbOf_byteWord, BitVec.msb_eq_decide, byteWord_toNat]; rfl

/-! ## DADD -/

theorem completes_dadd (src : Operand) (w : Width) (dst : Reg) (s : State) :
    Completes (exec (.dadd src w dst) s) s
      (s.regs.put dst (mergeResult w (s.x dst) (decimalSum w (s.operand src) (s.x dst) s.psw.c).1))
      (carryLogicFlags s.psw w (decimalSum w (s.operand src) (s.x dst) s.psw.c).2
        (decimalSum w (s.operand src) (s.x dst) s.psw.c).1) := ⟨_, rfl⟩

/-- Settles O36: the sum of `decimal_eq_decimalSum`, written over the destination and read for the flags. -/
theorem daddAddsDigitByDigit : Obligations.DaddAddsDigitByDigit := by
  intro src w dst s
  refine ⟨_, _, completes_dadd src w dst s, ?_⟩
  have hd := reduced_decimalSum w (s.operand src) (s.x dst) s.psw.c
  rw [decimal_eq_decimalSum]
  generalize decimalSum w (s.operand src) (s.x dst) s.psw.c = d at hd ⊢
  refine ⟨congrArg _ ?_, ?_⟩
  · cases w with
    | word => exact ((BitVec.ofNat_toNat ..).trans (BitVec.setWidth_eq _)).symm
    | byte => rw [mergeResult, lowByte_eq_ofNat, withLow]
  · simp [carryLogicFlags, logicFlags, msbOf_eq hd, Bool.toNat_eq_one, beq_eq_decide, ← BitVec.toNat_inj]

/-- R170: on decimal digits the digit algorithm is decimal addition, and its result has decimal digits. -/
theorem decimal_of_decimalDigits {n x y c : Nat} (hx : decimalDigits n x) (hy : decimalDigits n y) (hc : c ≤ 1) :
    decimalDigits n (decimal n x y c).1 ∧
    decimalValue n (decimal n x y c).1 + 10 ^ n * (decimal n x y c).2 = decimalValue n x + decimalValue n y + c := by
  induction n generalizing x y c with
  | zero => simp [decimalDigits, decimalValue, decimal]
  | succ n ih =>
    obtain ⟨hx0, hx⟩ := hx
    obtain ⟨hy0, hy⟩ := hy
    obtain ⟨d, k, hk, hd, hsum, hrec⟩ : ∃ d k, k ≤ 1 ∧ d ≤ 9 ∧ d + 10 * k = x % 16 + y % 16 + c ∧
        decimal (n + 1) x y c =
          (d + 16 * (decimal n (x / 16) (y / 16) k).1, (decimal n (x / 16) (y / 16) k).2) :=
      ⟨_, _, by split <;> omega, by split <;> omega, by split <;> omega, rfl⟩
    obtain ⟨hdigits, hvalue⟩ := ih hx hy hk
    rw [hrec]
    generalize decimal n (x / 16) (y / 16) k = r at hdigits hvalue ⊢
    have hlow : (d + 16 * r.1) % 16 = d := by omega
    have hhigh : (d + 16 * r.1) / 16 = r.1 := by omega
    simp only [decimalDigits, decimalValue, hlow, hhigh, Nat.pow_succ', Nat.mul_assoc]
    exact ⟨⟨hd, hdigits⟩, by omega⟩

/-- Settles O37: `decimal_of_decimalDigits`, for the sum that DADD writes. -/
theorem daddOfDecimalDigitsIsDecimalAddition : Obligations.DaddOfDecimalDigitsIsDecimalAddition := by
  intro src w dst s t hs hd ht
  obtain ⟨hregs, hpsw⟩ := completes_next (completes_dadd src w dst s) ht
  have hx : t.x dst = mergeResult w (s.x dst) (decimalSum w (s.operand src) (s.x dst) s.psw.c).1 := by
    rw [State.x_congr (t := t) (s := s.setX dst _) hregs, State.setX_x_same]
  have h := decimal_of_decimalDigits hs hd (Bool.toNat_le s.psw.c)
  rw [decimal_eq_decimalSum, ← reduced_decimalSum, ← reduced_mergeResult w (s.x dst), ← hx] at h
  rwa [hpsw]

end Sys2Proof.Machine
end

section
/-! PROOFS. The logic and bit instructions (spec 41_alu.md R163, R165, R172 to R177) and the arithmetic unit at its own
interface (R178): the logic flags at each width, the bits of a tested and of a changed value, and the report of an index
or an operation code out of range. -/

namespace Sys2Proof.Machine

open Sys2Proof Sys2Proof.Claim

/-! ## XOR, AND and OR -/

/-- R163: the end of every instruction that writes a result with the logic flags. -/
theorem completes_logicInto (s : State) (w : Width) (dst : Reg) (r : Word) :
    Completes (retire (s.logicInto w dst r)) s
      (s.regs.put dst (mergeResult w (s.x dst) r)) (logicFlags s.psw w r) := ⟨_, rfl⟩

theorem logicFlags_word (p : PSW) (r : Word) : logicFlags p .word r = zn p r := by
  rw [logicFlags, msbOf_word, beq_eq_decide]; rfl

theorem logicFlags_byte (p : PSW) (b : Byte) : logicFlags p .byte (byteWord b) = zn p b := by
  rw [logicFlags, msbOf_byteWord, byteWord_beq_zero, zn]

/-- R163: a word result and its logic flags. -/
theorem completes_logicInto_word (s : State) (dst : Reg) (r : Word) :
    Completes (retire (s.logicInto .word dst r)) s (s.regs.put dst r) (zn s.psw r) := by
  have h := completes_logicInto s .word dst r
  rwa [logicFlags_word] at h

/-- R163, R164: a byte result and its logic flags; the high byte stays. -/
theorem completes_logicInto_byte (s : State) (dst : Reg) (b : Byte) :
    Completes (retire (s.logicInto .byte dst (byteWord b))) s (s.regs.put dst (withLow (s.x dst) b)) (zn s.psw b) := by
  have h := completes_logicInto s .byte dst (byteWord b)
  rwa [logicFlags_byte, mergeResult_byte] at h

theorem lowByte_xor (a b : Word) : lowByte (a ^^^ b) = lowByte a ^^^ lowByte b := BitVec.extractLsb'_xor

theorem lowByte_and (a b : Word) : lowByte (a &&& b) = lowByte a &&& lowByte b := BitVec.extractLsb'_and

theorem lowByte_or (a b : Word) : lowByte (a ||| b) = lowByte a ||| lowByte b := BitVec.extractLsb'_or

/-- Settles O38: the low byte of a bitwise result is the bitwise result of the low bytes. -/
theorem logicInstructionsGiveTheBitwiseResult : Obligations.LogicInstructionsGiveTheBitwiseResult := by
  intro src dst s
  simp only [exec, execXor, execAnd, execOr, State.aluXor, State.aluAnd, State.aluOr, mask_word, mask_byte,
    lowByte_xor, lowByte_and, lowByte_or]
  exact ⟨completes_logicInto_word .., completes_logicInto_byte .., completes_logicInto_word ..,
    completes_logicInto_byte .., completes_logicInto_word .., completes_logicInto_byte ..⟩

/-! ## Reports (R165, R178, R234) -/

/-- R234: a report that is not fatal is one event and nothing else. -/
theorem report_eq {d : Diag} (hd : d.fatal = false) (s : State) (info : Word) :
    s.report d info = { s with diags := s.diags ++ [⟨d, info⟩] } := by
  rw [State.report, hd, Bool.or_false]

/-- R165: the event of a bit index above 7 in byte mode. -/
def bitIndexReport (w : Width) (v : Word) : List Event :=
  if w = .word ∨ v.toNat % 16 ≤ 7 then [] else [⟨.bitIndexRange, BitVec.ofNat 16 (v.toNat % 16)⟩]

/-- R165: the check of the bit index adds its event and changes nothing else. -/
theorem checkBitIndex_eq (s : State) (w : Width) (v : Word) :
    s.checkBitIndex w v = { s with diags := s.diags ++ bitIndexReport w v } := by
  cases w with
  | word => rw [State.checkBitIndex, bitIndexReport, if_pos (.inl rfl), List.append_nil]
  | byte =>
    rw [State.checkBitIndex, bitIndexReport, bitIndex_eq]
    split
    · rw [if_neg (not_or.2 ⟨by decide, by omega⟩), report_eq rfl]
    · rw [if_pos (.inr (by omega)), List.append_nil]

/-- Settles O41: the twelve codes are the instructions by definition; the other four are 12 to 15. -/
theorem unknownAluOperationIsReportedOnly : Obligations.UnknownAluOperationIsReportedOnly := by
  intro s src w dst
  refine ⟨fun code hcode => ?_, rfl⟩
  have hunit : s.aluUnit code src w dst = s.report .unknownAluOp (code.setWidth 16) := by
    obtain rfl | rfl | rfl | rfl : code = 12 ∨ code = 13 ∨ code = 14 ∨ code = 15 := by bv_omega
    all_goals rfl
  rw [hunit, report_eq rfl]

/-! ## Bits of a value of the width -/

theorem masked_getLsbD (w : Width) (a : Word) (j : Nat) :
    (a &&& widthMask w).getLsbD j = (decide (w = .word ∨ j ≤ 7) && a.getLsbD j) := by
  cases w with
  | word => simp [mask_word]
  | byte => simp [mask_byte, byteWord_getLsbD, lowByte_getLsbD, Nat.lt_succ_iff]

/-- R165: the bits of the bit mask, by the low four bits of the source. -/
theorem bitMask_getLsbD_eq (w : Width) (v : Word) (j : Nat) :
    (bitMask w v).getLsbD j = (decide (j = v.toNat % 16) && decide (w = .word ∨ j ≤ 7)) := by
  rw [bitMask_getLsbD, bitIndex_eq]
  cases w with
  | word => simp
  | byte => simp [Nat.lt_succ_iff, show (Width.byte == Width.word) = false from rfl]

/-- R164: the bits of a register that a result was written over. -/
theorem mergeResult_getLsbD (w : Width) (old r : Word) {j : Nat} (hj : j < 16) :
    (mergeResult w old r).getLsbD j = if w = .word ∨ j ≤ 7 then r.getLsbD j else old.getLsbD j := by
  cases w with
  | word => simp [mergeResult]
  | byte =>
    rw [mergeResult, joinBytes_getLsbD, lowByte_getLsbD, highByte_getLsbD]
    by_cases h : j ≤ 7
    · simp [h, Nat.lt_succ_of_le h]
    · simp [h, show ¬ j < 8 by omega, show j - 8 < 8 by omega, show 8 + (j - 8) = j by omega]

/-! ## BIT -/

theorem completes_bit (src : Operand) (w : Width) (dst : Reg) (s : State) :
    CompletesWith (exec (.bit src w dst) s) s s.regs
      (logicFlags s.psw w (s.x dst &&& bitMask w (s.operand src))) (bitIndexReport w (s.operand src)) := by
  have hmask : (s.x dst &&& widthMask w) &&& bitMask w (s.operand src) = s.x dst &&& bitMask w (s.operand src) := by
    rw [bitMask, BitVec.and_assoc, BitVec.and_comm (widthMask w), BitVec.and_assoc, BitVec.and_self]
  show CompletesWith (retire (s.aluBit src w dst)) _ _ _ _
  rw [State.aluBit, checkBitIndex_eq, hmask]
  exact ⟨_, rfl⟩

/-- R175: the tested value has at most the indexed bit. -/
theorem bitTest_getLsbD (w : Width) (a v : Word) (j : Nat) : (a &&& bitMask w v).getLsbD j =
    (decide (j = v.toNat % 16) && decide (w = .word ∨ j ≤ 7) && a.getLsbD j) := by
  rw [← bitMask_getLsbD_eq, Bool.and_comm]
  exact BitVec.getLsbD_and

/-- R175: the tested value is zero unless the indexed bit is in range and 1. -/
theorem bitTest_beq_zero (w : Width) (a v : Word) : (a &&& bitMask w v == 0) =
    !(decide (w = .word ∨ v.toNat % 16 ≤ 7) && a.getLsbD (v.toNat % 16)) := by
  have hindexed : (a &&& bitMask w v).getLsbD (v.toNat % 16) =
      (decide (w = .word ∨ v.toNat % 16 ≤ 7) && a.getLsbD (v.toNat % 16)) := by
    rw [bitTest_getLsbD, decide_eq_true rfl, Bool.true_and]
  rw [← hindexed]
  cases h : (a &&& bitMask w v).getLsbD (v.toNat % 16) with
  | false =>
    refine beq_iff_eq.2 (BitVec.eq_of_getLsbD_eq fun j _ => ?_)
    by_cases hj : j = v.toNat % 16
    · rw [hj, h]; exact BitVec.getLsbD_zero.symm
    · rw [bitTest_getLsbD, decide_eq_false hj, Bool.false_and, Bool.false_and]; exact BitVec.getLsbD_zero.symm
  | true =>
    refine beq_eq_false_iff_ne.2 fun hzero => ?_
    rw [hzero] at h
    exact Bool.false_ne_true (BitVec.getLsbD_zero.symm.trans h)

/-- Settles O39: Z and N of the tested value, bit by bit, for an index in range and out of range. -/
theorem bitTestsTheIndexedBit : Obligations.BitTestsTheIndexedBit := by
  intro src dst s
  have hword := completes_bit src .word dst s
  have hbyte := completes_bit src .byte dst s
  simp only [logicFlags, bitTest_beq_zero, msbOf, bitTest_getLsbD, bitIndexReport, CompletesWith] at hword hbyte ⊢
  refine ⟨?_, fun hk => ?_, fun hk => ?_⟩
  · simpa [eq_comm] using hword
  · simpa [hk, eq_comm] using hbyte
  · have h7 : ¬ 7 = (s.operand src).toNat % 16 := by omega
    simpa [hk.not_ge, h7] using hbyte

/-! ## BIC and BIS -/

/-- R176, R177: the result of BIS (`set`) and of BIC. -/
def changedBit (set : Bool) (w : Width) (a v : Word) : Word :=
  if set then (a &&& widthMask w) ||| bitMask w v else (a &&& widthMask w) &&& ~~~bitMask w v

theorem completes_changedBit (set : Bool) (src : Operand) (w : Width) (dst : Reg) (s : State) :
    CompletesWith (exec (if set then .bis src w dst else .bic src w dst) s) s
      (s.regs.put dst (mergeResult w (s.x dst) (changedBit set w (s.x dst) (s.operand src))))
      (logicFlags s.psw w (changedBit set w (s.x dst) (s.operand src))) (bitIndexReport w (s.operand src)) := by
  have hexec : exec (if set then .bis src w dst else .bic src w dst) s =
      retire ((s.checkBitIndex w (s.operand src)).logicInto w dst (changedBit set w (s.x dst) (s.operand src))) := by
    cases set <;> rfl
  rw [hexec, checkBitIndex_eq]
  exact completes_logicInto ..

/-- R176, R177: the bits of the result. -/
theorem changedBit_getLsbD (set : Bool) (w : Width) (a v : Word) {j : Nat} (hj : j < 16) :
    (changedBit set w a v).getLsbD j =
      (decide (w = .word ∨ j ≤ 7) && if j = v.toNat % 16 then set else a.getLsbD j) := by
  cases set with
  | true =>
    have h : (changedBit true w a v).getLsbD j = ((a &&& widthMask w).getLsbD j || (bitMask w v).getLsbD j) :=
      BitVec.getLsbD_or
    rw [h, masked_getLsbD, bitMask_getLsbD_eq]
    generalize decide (w = .word ∨ j ≤ 7) = inWidth
    split <;> cases inWidth <;> simp [*]
  | false =>
    have h : (changedBit false w a v).getLsbD j = ((a &&& widthMask w).getLsbD j && (~~~bitMask w v).getLsbD j) :=
      BitVec.getLsbD_and
    have hnot : (~~~bitMask w v).getLsbD j = !(bitMask w v).getLsbD j := by
      rw [BitVec.getLsbD_not, decide_eq_true hj, Bool.true_and]
    rw [h, hnot, masked_getLsbD, bitMask_getLsbD_eq]
    generalize decide (w = .word ∨ j ≤ 7) = inWidth
    split <;> cases inWidth <;> simp [*]

/-- R176, R177: the result is a value of the width. -/
theorem changedBit_masked (set : Bool) (w : Width) (a v : Word) :
    changedBit set w a v &&& widthMask w = changedBit set w a v := by
  apply BitVec.eq_of_getLsbD_eq
  intro j hj
  rw [masked_getLsbD, changedBit_getLsbD set w a v hj, ← Bool.and_assoc, Bool.and_self]

/-- R163, R164: the flags of a byte result are those of the low byte of the register it was written over. -/
theorem logicFlags_eq_zn_lowByte {r : Word} (h : r &&& widthMask .byte = r) (p : PSW) (old : Word) :
    logicFlags p .byte r = zn p (lowByte (mergeResult .byte old r)) := by
  rw [mergeResult, lowByte_joinBytes, ← logicFlags_byte, ← mask_byte, h]

/-- Settles O40: the indexed bit, where it is in range, is the one bit of the destination that changes. -/
theorem bicAndBisChangeTheIndexedBit : Obligations.BicAndBisChangeTheIndexedBit := by
  intro src w dst set s
  have h := completes_changedBit set src w dst s
  refine ⟨mergeResult w (s.x dst) (changedBit set w (s.x dst) (s.operand src)), fun j hj => ?_, ?_⟩
  · rw [mergeResult_getLsbD w _ _ hj, changedBit_getLsbD set w _ _ hj]
    obtain rfl | hk := eq_or_ne j ((s.operand src).toNat % 16)
    · split <;> simp [*]
    · split <;> simp [*]
  · cases w with
    | word => rwa [logicFlags_word] at h
    | byte => rwa [logicFlags_eq_zn_lowByte (changedBit_masked ..) _ (s.x dst)] at h

end Sys2Proof.Machine
end

section
/-! PROOFS. The register moves, the one-operand instructions and the move-immediates (spec 42_register_ops.md R191 to
R200): what each writes, the words they refuse with bit 6 set, and the rotation through the carry as a ring of bits. -/

namespace Sys2Proof.Machine

open Sys2Proof Sys2Proof.Claim

/-! ## Register moves and move-immediates -/

/-- R192: a SWAP word with bit 6 set lies in the first space of R112. -/
theorem undefinedWord_swap (src dst : Reg) :
    UndefinedWord (0b0100110011#10 ++ regBits src ++ regBits dst : BitVec 16) := by
  have hnum : (0b0100110011#10 ++ regBits src ++ regBits dst : BitVec 16).toNat =
      (0b0100110011 * 2 ^ 3 + (regBits src).toNat) * 2 ^ 3 + (regBits dst).toNat :=
    (append_toNat _ _).trans (by rw [append_toNat]; rfl)
  have hsrc := (regBits src).isLt
  have hdst := (regBits dst).isLt
  rw [UndefinedWord]; omega

/-- Settles O43: a result written over the destination, and two registers written. -/
theorem movCopiesAndSwapExchanges : Obligations.MovCopiesAndSwapExchanges := fun src dst s =>
  ⟨completes_retire_setX s dst (s.x src), completes_retire_setX s dst (withLow (s.x dst) (lowByte (s.x src))),
    ⟨_, rfl⟩, rfl, rfl, rfl, (decode_error_iff _).2 (undefinedWord_swap src dst)⟩

/-- Settles O47: each writes one register, and its encoding is format MI with its selector (R106). -/
theorem moveImmediatesWriteTheByte : Obligations.MoveImmediatesWriteTheByte := fun b dst s =>
  ⟨completes_retire_setX s dst (joinBytes (highByte (s.x dst)) b), completes_retire_setX s dst (joinBytes 0x00 b),
    completes_retire_setX s dst (joinBytes 0xFF b), completes_retire_setX s dst (joinBytes b (lowByte (s.x dst))),
    rfl, rfl, rfl, rfl⟩

/-! ## SWPB and SXT -/

/-- R195, R196: the words of SWPB and SXT with bit 6 set lie in two spaces of R112. -/
theorem undefinedWord_oneOperand {p : BitVec 13} (hp : p.toNat = 0b0100110101011 ∨ p.toNat = 0b0100110101100)
    (dst : Reg) : UndefinedWord (p ++ regBits dst : BitVec 16) := by
  have hnum : (p ++ regBits dst : BitVec 16).toNat = p.toNat * 2 ^ 3 + (regBits dst).toNat := append_toNat _ _
  have hdst := (regBits dst).isLt
  rw [UndefinedWord]; omega

/-- R196: SXT writes its result with the logic flags of a word. -/
theorem exec_sxt (dst : Reg) (s : State) :
    exec (.sxt dst) s = retire (s.logicInto .word dst ((lowByte (s.x dst)).signExtend 16)) := rfl

/-- Settles O46: a sign extension keeps the signed value. -/
theorem swpbExchangesBytesAndSxtExtendsTheSign : Obligations.SwpbExchangesBytesAndSxtExtendsTheSign := by
  intro dst s
  have hsxt : Completes (exec (.sxt dst) s) s _ _ := exec_sxt dst s ▸ completes_logicInto_word ..
  exact ⟨completes_retire_setX .., ⟨_, BitVec.toInt_signExtend_of_le (by decide), hsxt⟩, rfl, rfl,
    (decode_error_iff _).2 (undefinedWord_oneOperand (.inl rfl) dst),
    (decode_error_iff _).2 (undefinedWord_oneOperand (.inr rfl) dst)⟩

/-! ## SRA and RRC -/

/-- R193, R194: a register shifted right by one with `top` entering at the top of the width; the bit shifted out goes to
C, Z and N are those of the result. -/
def State.shiftInto (s : State) (w : Width) (dst : Reg) (top : Bool) : State :=
  let r := shiftRightIn w top (s.x dst)
  (s.setPsw (carryLogicFlags s.psw w ((s.x dst).getLsbD 0) r)).writeResult w dst r

theorem exec_sra (w : Width) (dst : Reg) (s : State) :
    exec (.sra w dst) s = retire (s.shiftInto w dst (msbOf w (s.x dst))) := rfl

theorem exec_rrc (w : Width) (dst : Reg) (s : State) :
    exec (.rrc w dst) s = retire (s.shiftInto w dst s.psw.c) := rfl

theorem completes_shiftInto (s : State) (w : Width) (dst : Reg) (top : Bool) :
    Completes (retire (s.shiftInto w dst top)) s
      (s.regs.put dst (mergeResult w (s.x dst) (shiftRightIn w top (s.x dst))))
      (carryLogicFlags s.psw w ((s.x dst).getLsbD 0) (shiftRightIn w top (s.x dst))) := ⟨_, rfl⟩

section
variable (s : State) (dst : Reg) (top : Bool)

/-- R193, R194: the word shift on numbers. -/
theorem exists_completes_shiftInto_word : ∃ r : Word, r.toNat = (s.x dst).toNat / 2 + 32768 * top.toNat ∧
    Completes (retire (s.shiftInto .word dst top)) s (s.regs.put dst r)
      { zn s.psw r with c := (s.x dst).getLsbD 0 } := by
  have h := completes_shiftInto s .word dst top
  rw [carryLogicFlags, logicFlags_word] at h
  exact ⟨_, shiftRightIn_word top (s.x dst), h⟩

/-- R193, R194, R164: the byte shift on numbers; the high byte stays. -/
theorem exists_completes_shiftInto_byte : ∃ r : Byte, r.toNat = (lowByte (s.x dst)).toNat / 2 + 128 * top.toNat ∧
    Completes (retire (s.shiftInto .byte dst top)) s (s.regs.put dst (withLow (s.x dst) r))
      { zn s.psw r with c := (s.x dst).getLsbD 0 } := by
  obtain ⟨r, hr, hnum⟩ := shiftRightIn_byte top (s.x dst)
  have h := completes_shiftInto s .byte dst top
  rw [hr, carryLogicFlags, logicFlags_byte, mergeResult_byte] at h
  exact ⟨r, hnum, h⟩

end

/-- R193: half of the unsigned number with the sign bit kept is the signed half, rounded down. -/
theorem toInt_eq_half {n : Nat} {d r : BitVec (n + 1)} (h : r.toNat = d.toNat / 2 + 2 ^ n * d.msb.toNat) :
    r.toInt = d.toInt / 2 := by
  have hd := d.isLt
  have hpow : 2 ^ (n + 1) = 2 * 2 ^ n := Nat.pow_succ'
  rw [BitVec.msb_eq_decide, Nat.add_sub_cancel] at h
  simp only [BitVec.toInt_eq_toNat_cond, hpow] at hd ⊢
  generalize 2 ^ n = p at h hd ⊢
  by_cases hsign : p ≤ d.toNat
  · rw [decide_eq_true hsign, Bool.toNat_true] at h
    rw [if_neg (by omega), if_neg (by omega)]; omega
  · rw [decide_eq_false hsign, Bool.toNat_false] at h
    rw [if_pos (by omega), if_pos (by omega)]; omega

theorem msbOf_lowByte (v : Word) : msbOf .byte v = (lowByte v).msb := by
  rw [BitVec.msb_eq_getLsbD_last, lowByte_getLsbD]; rfl

/-- Settles O44: SRA shifts the sign bit in, RRC the carry. -/
theorem sraHalvesAndRrcRotatesThroughCarry : Obligations.SraHalvesAndRrcRotatesThroughCarry := by
  intro dst s
  simp only [exec_sra, exec_rrc, msbOf_word, msbOf_lowByte]
  refine ⟨?_, ?_, exists_completes_shiftInto_word s dst _, exists_completes_shiftInto_byte s dst _⟩
  · obtain ⟨r, hr, h⟩ := exists_completes_shiftInto_word s dst (s.x dst).msb
    exact ⟨r, toInt_eq_half hr, h⟩
  · obtain ⟨r, hr, h⟩ := exists_completes_shiftInto_byte s dst (lowByte (s.x dst)).msb
    exact ⟨r, toInt_eq_half hr, h⟩

/-! ## A ring of bits -/

/-- The `n + 1` bits of a number rotated right by one. -/
def rotateRing (n m : Nat) : Nat := m / 2 + 2 ^ n * (m % 2)

/-- After `k` rotations the `k` lowest bits stand above the others. -/
theorem rotateRing_iterate {n k : Nat} (hk : k ≤ n + 1) (m : Nat) :
    (rotateRing n)^[k] m = m / 2 ^ k + 2 ^ (n + 1 - k) * (m % 2 ^ k) := by
  induction k with
  | zero => simp [Nat.mod_one]
  | succ k ih =>
    have hsub : n + 1 - k = n - k + 1 := by omega
    have hpow : 2 ^ n = 2 ^ (n - k) * 2 ^ k := by rw [← Nat.pow_add]; congr 1; omega
    rw [Function.iterate_succ_apply', ih (by omega), hsub, Nat.pow_succ', Nat.mul_assoc, rotateRing, hpow,
      Nat.add_mul_div_left _ _ two_pos, Nat.add_mul_mod_self_left, Nat.div_div_eq_div_mul, ← Nat.pow_succ,
      Nat.add_sub_add_right, Nat.mod_pow_succ, Nat.mul_add, Nat.mul_assoc, Nat.add_assoc]

/-- A ring of `n + 1` bits comes round after `n + 1` rotations. -/
theorem rotateRing_iterate_self {n m : Nat} (hm : m < 2 ^ (n + 1)) : (rotateRing n)^[n + 1] m = m := by
  rw [rotateRing_iterate le_rfl, Nat.div_eq_of_lt hm, Nat.mod_eq_of_lt hm, Nat.sub_self, Nat.pow_zero, Nat.one_mul,
    Nat.zero_add]

/-! ## A result written over a register (R164) -/

theorem mergeResult_self (w : Width) (v : Word) : mergeResult w v v = v := by
  cases w with
  | word => rfl
  | byte => exact joinBytes_highByte_lowByte v

theorem mergeResult_mergeResult (w : Width) (old a b : Word) :
    mergeResult w (mergeResult w old a) b = mergeResult w old b := by
  cases w with
  | word => rfl
  | byte => simp only [mergeResult, highByte_joinBytes]

/-- R164: what is written over a register is the result as a value of the width. -/
theorem mergeResult_congr {w : Width} {a b : Word} (h : reduced w a = reduced w b) (old : Word) :
    mergeResult w old a = mergeResult w old b := by
  cases w with
  | word => exact BitVec.eq_of_toNat_eq h
  | byte => rw [mergeResult, mergeResult, BitVec.eq_of_toNat_eq (x := lowByte a) (y := lowByte b) h]

theorem RegFile.put_put (f : RegFile) (r : Reg) (a b : Word) : (f.put r a).put r b = f.put r b := by
  cases r <;> rfl

theorem State.writeResult_x_self (s : State) (w : Width) (r : Reg) : s.writeResult w r (s.x r) = s := by
  rw [State.writeResult, mergeResult_self, State.setX_x_self]

/-! ## Repeated RRC (R194) -/

theorem repeated_eq_iterate {i : Instr} {f : State → State} (h : ∀ s, exec i s = .next (f s)) (n : Nat) (s : State) :
    repeated i n s = .next (f^[n] s) := by
  induction n generalizing s with
  | zero => rfl
  | succ n ih => simp only [repeated, h, ih, Function.iterate_succ_apply]

theorem reduced_lt (w : Width) (v : Word) : reduced w v < 2 ^ (4 * digits w) := by
  cases w with
  | word => exact v.isLt
  | byte => exact (lowByte v).isLt

theorem reduced_shiftRightIn (w : Width) (top : Bool) (v : Word) :
    reduced w (shiftRightIn w top v) = reduced w v / 2 + 2 ^ (4 * digits w - 1) * top.toNat := by
  cases w with
  | word => exact shiftRightIn_word top v
  | byte =>
    obtain ⟨r, hr, hnum⟩ := shiftRightIn_byte top v
    rw [hr, reduced, lowByte_byteWord]
    exact hnum

theorem reduced_mod_two (w : Width) (v : Word) : reduced w v % 2 = (v.getLsbD 0).toNat := by
  rw [toNat_getLsbD]
  cases w with
  | word => rw [reduced]; omega
  | byte => rw [reduced, lowByte_toNat]; omega

section
variable (w : Width) (dst : Reg) (s : State)

/-- R194: the state after RRC. -/
def State.rrcNext : State := (s.shiftInto w dst s.psw.c).tick (Config.clkExecute + Config.clkInstruction)

theorem exec_rrc_eq_next : exec (.rrc w dst) s = .next (s.rrcNext w dst) := rfl

/-- R194: the bits RRC rotates: the register's, with C above them. -/
def State.carryRing : Nat := reduced w (s.x dst) + 2 ^ (4 * digits w) * s.psw.c.toNat

/-- R194: RRC rotates the register and C by one. -/
theorem carryRing_rrcNext : (s.rrcNext w dst).carryRing w dst = rotateRing (4 * digits w) (s.carryRing w dst) := by
  have hx : (s.rrcNext w dst).x dst = mergeResult w (s.x dst) (shiftRightIn w s.psw.c (s.x dst)) := by
    rw [State.rrcNext, State.tick_x, State.shiftInto, State.writeResult, State.setX_x_same, State.setPsw_x]
  have hc : (s.rrcNext w dst).psw.c = (s.x dst).getLsbD 0 := rfl
  have hpow : 2 ^ (4 * digits w) = 2 * 2 ^ (4 * digits w - 1) := by cases w <;> rfl
  rw [State.carryRing, State.carryRing, hx, hc, reduced_mergeResult, reduced_shiftRightIn, ← reduced_mod_two w,
    rotateRing, hpow, Nat.mul_assoc 2 _ s.psw.c.toNat, Nat.add_mul_div_left _ _ two_pos, Nat.add_mul_mod_self_left]

/-- R194, R164: RRC changes no bit of a register beyond its result. -/
theorem rrcNext_writeResult_regs (v : Word) :
    ((s.rrcNext w dst).writeResult w dst v).regs = (s.writeResult w dst v).regs := by
  simp only [State.rrcNext, State.shiftInto, State.writeResult, State.setX_regs, State.tick_regs, State.tick_x,
    State.setX_x_same, State.setPsw_x, State.setPsw_regs, RegFile.put_put, mergeResult_mergeResult]

theorem iterate_rrcNext_writeResult_regs (n : Nat) (v : Word) :
    (((State.rrcNext w dst)^[n] s).writeResult w dst v).regs = (s.writeResult w dst v).regs := by
  induction n with
  | zero => rfl
  | succ n ih => rw [Function.iterate_succ_apply', rrcNext_writeResult_regs, ih]

theorem carryRing_lt : s.carryRing w dst < 2 ^ (4 * digits w + 1) := by
  have hx := reduced_lt w (s.x dst)
  have hc := Nat.mul_le_mul_left (2 ^ (4 * digits w)) (Bool.toNat_le s.psw.c)
  rw [State.carryRing, Nat.pow_succ]; omega

/-- R194: the register's value of the width is read off the ring. -/
theorem carryRing_mod : s.carryRing w dst % 2 ^ (4 * digits w) = reduced w (s.x dst) := by
  rw [State.carryRing, Nat.add_mul_mod_self_left, Nat.mod_eq_of_lt (reduced_lt ..)]

/-- R194: C is read off the top of the ring. -/
theorem carryRing_div_eq_one : s.carryRing w dst / 2 ^ (4 * digits w) = 1 ↔ s.psw.c = true := by
  rw [State.carryRing, Nat.add_mul_div_left _ _ (Nat.two_pow_pos _), Nat.div_eq_of_lt (reduced_lt ..), Nat.zero_add,
    Bool.toNat_eq_one]

/-- R194: as many RRC as the width has bits, and one more for C, restore every register and C. -/
theorem exists_repeated_rrc : ∃ t, repeated (.rrc w dst) (4 * digits w + 1) s = .next t ∧ t.regs = s.regs ∧
    t.psw.c = s.psw.c := by
  refine ⟨_, repeated_eq_iterate (exec_rrc_eq_next w dst) _ s, ?_⟩
  generalize ht : (State.rrcNext w dst)^[4 * digits w + 1] s = t
  have hring : t.carryRing w dst = s.carryRing w dst := by
    rw [← ht, Function.Semiconj.iterate_right (carryRing_rrcNext w dst) _ s]
    exact rotateRing_iterate_self (carryRing_lt w dst s)
  have hframe (v : Word) : (t.writeResult w dst v).regs = (s.writeResult w dst v).regs := by
    rw [← ht, iterate_rrcNext_writeResult_regs]
  have hx : reduced w (t.x dst) = reduced w (s.x dst) := by rw [← carryRing_mod, hring, carryRing_mod]
  have hc : t.psw.c = true ↔ s.psw.c = true := by rw [← carryRing_div_eq_one w dst, hring, carryRing_div_eq_one]
  refine ⟨?_, Bool.eq_iff_iff.2 hc⟩
  calc t.regs
      _ = (t.writeResult w dst (t.x dst)).regs := by rw [State.writeResult_x_self]
      _ = (s.writeResult w dst (t.x dst)).regs := hframe _
      _ = (s.writeResult w dst (s.x dst)).regs := by rw [State.writeResult, mergeResult_congr hx, State.writeResult]
      _ = s.regs := by rw [State.writeResult_x_self]

end

/-- Settles O45: sixteen bits and C, and eight bits and C. -/
theorem rrcSeventeenTimesRestoresTheWord : Obligations.RrcSeventeenTimesRestoresTheWord := fun dst s =>
  ⟨exists_repeated_rrc .word dst s, exists_repeated_rrc .byte dst s⟩

end Sys2Proof.Machine
end

section
/-! PROOFS. The branch unit (spec 43_branch.md R211 to R220): a conditional branch by its condition, said once for the
eight of them, and BL. -/

namespace Sys2Proof.Machine

open Sys2Proof Sys2Proof.Claim

/-- R211: taken, a branch goes to the program counter plus twice the signed field (R105); untaken, it changes nothing. -/
theorem completes_branchIf (cond : Bool) (off : BitVec Config.brOffBits) (s : State) :
    Completes (branchIf cond off s) s
      (if cond then s.regs.put .r7 (s.x .r7 + BitVec.ofInt 16 (2 * off.toInt)) else s.regs) s.psw := by
  cases cond with
  | false => exact completes_retire s
  | true => exact branchDisp_eq off ▸ completes_retire_setX s .r7 (s.x .r7 + branchDisp off)

/-- An instruction that branches on `c` completes as a branch on any condition equal to `c`. -/
theorem completes_of_branches {i : Instr} {s : State} {off : BitVec Config.brOffBits} {c cond : Bool}
    (hi : exec i s = branchIf c off s) (hc : cond = c) : Completes (exec i s) s
      (if cond then s.regs.put .r7 (s.x .r7 + BitVec.ofInt 16 (2 * off.toInt)) else s.regs) s.psw := by
  rw [hi, hc]
  exact completes_branchIf c off s

/-- Settles O55: each branches on its condition (R213 to R220), and its match value and field are its encoding. -/
theorem conditionalBranchesTakeTheirCondition : Obligations.ConditionalBranchesTakeTheirCondition := by
  intro off s
  have hlt : (s.psw.n != s.psw.v) = (s.psw.n ^^ s.psw.v) := by rw [Bool.bne_eq_xor]
  have hge : (s.psw.n == s.psw.v) = !(s.psw.n ^^ s.psw.v) := by rw [← hlt, bne, Bool.not_not]
  exact ⟨⟨completes_of_branches rfl (beq_true _), completes_of_branches rfl (beq_false _),
      completes_of_branches rfl (beq_true _), completes_of_branches rfl (beq_false _),
      completes_of_branches rfl (beq_true _), completes_of_branches rfl hge,
      completes_of_branches rfl hlt, completes_of_branches rfl rfl⟩,
    decode_encode (.beq off), decode_encode (.bne off), decode_encode (.bc off), decode_encode (.bnc off),
    decode_encode (.bn off), decode_encode (.bge off), decode_encode (.blt off), decode_encode (.bra off)⟩

/-- R212: the link is the post-fetch program counter, from which the target is counted. -/
theorem exec_bl (off : BitVec Config.blOffBits) (s : State) :
    exec (.bl off) s = retire ((s.setX .r5 (s.x .r7)).setX .r7 (s.x .r7 + linkDisp off)) := rfl

/-- Settles O56: the displacement is twice the signed field (R105). -/
theorem blLinksAndBranches : Obligations.BlLinksAndBranches := by
  intro off s
  rw [exec_bl, linkDisp_eq]
  exact ⟨⟨_, rfl⟩, rfl, decode_encode (.bl off)⟩

end Sys2Proof.Machine
end

section
/-! PROOFS. The diagnostic events of one step (spec 60_exceptions.md R231, R235): an access to memory, the check of a
bit index and an abandoned instruction each add at most one, and no instruction has two of them. -/

namespace Sys2Proof.Machine

open Sys2Proof Sys2Proof.Claim

/-- R235: what an instruction may add to the events of its fetch. -/
structure LateEvents (ev : List Event) : Prop where
  atMostOne : ev.length ≤ 1
  late : ∀ e ∈ ev, lateDiag e.diag

theorem LateEvents.nil : LateEvents [] := ⟨Nat.zero_le _, by simp⟩

theorem LateEvents.singleton {d : Diag} (hd : lateDiag d) (info : Word) : LateEvents [⟨d, info⟩] :=
  ⟨Nat.le_refl _, by simpa using hd⟩

theorem alignReport_lateEvents (w : Width) (a : Word) : LateEvents (alignReport w a) := by
  unfold alignReport
  split
  · exact .singleton (d := .misalignedWord) trivial a
  · exact .nil

theorem bitIndexReport_lateEvents (w : Width) (v : Word) : LateEvents (bitIndexReport w v) := by
  unfold bitIndexReport
  split
  · exact .nil
  · exact .singleton (d := .bitIndexRange) trivial _

theorem checkBitIndex_diags (s : State) (w : Width) (v : Word) :
    (s.checkBitIndex w v).diags = s.diags ++ bitIndexReport w v := by
  rw [checkBitIndex_eq]

/-- `r` adds to the diagnostic output of `s` at most one event, of a condition met at decode or execute. -/
def ReportsLate (s : State) (r : Result) : Prop :=
  ∀ t, r = .next t → ∃ ev, LateEvents ev ∧ t.diags = s.diags ++ ev

section
variable {s u : State}

theorem ReportsLate.retire {ev : List Event} (hev : LateEvents ev) (h : u.diags = s.diags ++ ev) :
    ReportsLate s (retire u) := by
  rintro _ ⟨⟩
  exact ⟨ev, hev, h⟩

theorem ReportsLate.retire_silent (h : u.diags = s.diags) : ReportsLate s (Machine.retire u) :=
  .retire .nil (h.trans (List.append_nil _).symm)

/-- R165: BIT, BIC and BIS report by their check of the bit index only. -/
theorem ReportsLate.retire_checkBitIndex {w : Width} {v : Word} (h : u.diags = (s.checkBitIndex w v).diags) :
    ReportsLate s (Machine.retire u) :=
  .retire (bitIndexReport_lateEvents w v) (h.trans (checkBitIndex_diags s w v))

/-- R53: a load reports by its access only. -/
theorem ReportsLate.retire_memRead (hs : s.Coherent) {w : Width} {a : Word} (h : u.diags = (s.memRead w a).2.diags) :
    ReportsLate s (Machine.retire u) :=
  .retire (alignReport_lateEvents w a) (h.trans (memRead_diags hs w a))

/-- R53: a store reports by its access only. -/
theorem ReportsLate.retire_memWrite (hs : s.Coherent) {w : Width} {a v : Word}
    (h : u.diags = (s.memWrite w a v).diags) : ReportsLate s (Machine.retire u) :=
  .retire (alignReport_lateEvents w a) (h.trans (memWrite_diags hs w a v))

theorem ReportsLate.abandon {d : Diag} (hd : lateDiag d) (info : Word) (cost : Nat) :
    ReportsLate s (abandon d info cost s) := by
  rintro _ ⟨⟩
  exact ⟨_, .singleton hd info, rfl⟩

theorem ReportsLate.branchIf (cond : Bool) (off : BitVec Config.brOffBits) : ReportsLate s (branchIf cond off s) := by
  refine .retire_silent ?_
  split <;> rfl

end

/-- R141: an undefined mode is reported before any access, which is then not made. -/
theorem exec_ld_reportsLate {s : State} (hs : s.Coherent) (m : ModeBits) (w : Width) (src dst : Reg) :
    ReportsLate s (exec (.ld m w src dst) s) := by
  cases hr : resolveIndexed m w (s.x src) with
  | none => exact exec_ld_of_unresolved hr ▸ .abandon (d := .undefinedAddrMode) trivial _ _
  | some r => exact exec_ld_of_resolved hr ▸ .retire_memRead hs (State.writeBack_diags ..)

theorem exec_st_reportsLate {s : State} (hs : s.Coherent) (m : ModeBits) (w : Width) (src dst : Reg) :
    ReportsLate s (exec (.st m w src dst) s) := by
  cases hr : resolveIndexed m w (s.x dst) with
  | none => exact exec_st_of_unresolved hr ▸ .abandon (d := .undefinedAddrMode) trivial _ _
  | some r => exact exec_st_of_resolved hr ▸ .retire_memWrite hs (State.writeBack_diags ..)

/-- R231: the one event an instruction can report: of a bit index, of a mode or of a misaligned word. -/
theorem exec_reportsLate {s : State} (hs : s.Coherent) (i : Instr) : ReportsLate s (exec i s) := by
  cases i with
  | beq off | bne off | bc off | bnc off | bn off | bge off | blt off | bra off => exact .branchIf _ off
  | bit src w dst | bic src w dst | bis src w dst => exact .retire_checkBitIndex (w := w) (v := s.operand src) rfl
  | ld m w src dst => exact exec_ld_reportsLate hs m w src dst
  | st m w src dst => exact exec_st_reportsLate hs m w src dst
  | ldr off w src dst => exact .retire_memRead hs (w := w) (a := relativeAddr (s.x src) off) rfl
  | str off w src dst =>
    exact .retire_memWrite hs (w := w) (a := relativeAddr (s.x dst) off) (v := s.x src) rfl
  | _ => exact .retire_silent rfl

/-- Settles O12: the fetch reports a misaligned `x[7]` (R25, R53); then the word is reported as no instruction (R113),
or its instruction reports at most one event. -/
theorem stepReportsAtMostTwoEventsInStageOrder : Obligations.StepReportsAtMostTwoEventsInStageOrder := by
  intro s t hs hrun h
  obtain ⟨hir, hfetch, -, -⟩ := fetch_spec hs
  cases hd : decode (s.archWord s.pc) with
  | error e =>
    obtain ⟨t', ht', -, -, -, -, -, hdiags, -⟩ := undefinedOpcodeIsReportedAndAbandoned s e hs hrun hd
    obtain rfl : t' = t := Host.Outcome.next.inj (ht'.symm.trans h)
    have hev : LateEvents [⟨.undefinedOpcode, s.archWord s.pc⟩] :=
      .singleton (d := .undefinedOpcode) trivial _
    exact ⟨_, hdiags, hev.atMostOne, hev.late, fun _ => rfl⟩
  | ok i =>
    obtain ⟨-, -, -, -, -, hdiags, -⟩ := fetchReadsTheWordAndAdvances s hs
    have hexec := step_of_ok hrun (hir ▸ hd)
    obtain ⟨ev, hev, ht⟩ := exec_reportsLate (tick_coherent hfetch Config.clkDecode) i t (hexec.symm.trans h)
    refine ⟨ev, ?_, hev.atMostOne, hev.late, by simp⟩
    rw [ht, State.tick_diags, hdiags]

end Sys2Proof.Machine
end

section
/-! PROOFS. The host port (spec 60_exceptions.md R252, R253) and the loader (R255) after a reset (R272). -/

namespace Sys2Proof.Machine

open Sys2Proof

/-! ## The loader (R255) -/

theorem storeImage_wf {s : State} (h : s.mem.wf = true) (img : List Host.Cell) : (s.storeImage img).mem.wf = true := by
  induction img generalizing s with
  | nil => exact h
  | cons p img ih => exact ih (State.setMemByte_wf h _ _)

/-- R255: the loader writes the cells' addresses only. -/
theorem storeImage_memByte_other {s : State} (h : s.mem.wf = true) {img : List Host.Cell} {b : Word}
    (hb : ∀ p ∈ img, BitVec.ofNat 16 p.1 ≠ b) : (s.storeImage img).memByte b = s.memByte b := by
  induction img generalizing s with
  | nil => rfl
  | cons p img ih =>
    obtain ⟨hp, hrest⟩ := List.forall_mem_cons.1 hb
    exact (ih (State.setMemByte_wf h _ _) hrest).trans ((State.setMemByte_memByte h ..).trans (if_neg hp.symm))

/-- R54: different addresses in the 64 KiB are different words. -/
theorem ofNat_ne_of_ne {a b : Nat} (ha : a < 65536) (hb : b < 65536) (h : a ≠ b) :
    BitVec.ofNat 16 a ≠ BitVec.ofNat 16 b := by
  intro he
  have := congrArg BitVec.toNat he
  rw [BitVec.toNat_ofNat, BitVec.toNat_ofNat] at this
  omega

/-- R255: a cell stays as it was written, since no later cell has its address. -/
theorem storeImage_memByte_mem {s : State} (h : s.mem.wf = true) {img : List Host.Cell}
    (hnodup : (img.map Prod.fst).Nodup) (hrange : ∀ p ∈ img, p.1 < 65536) :
    ∀ p ∈ img, (s.storeImage img).memByte (BitVec.ofNat 16 p.1) = p.2 := by
  induction img generalizing s with
  | nil => simp
  | cons q img ih =>
    obtain ⟨hfresh, hnodup⟩ := List.nodup_cons.1 hnodup
    obtain ⟨hq, hrange⟩ := List.forall_mem_cons.1 hrange
    have hwf := State.setMemByte_wf h (BitVec.ofNat 16 q.1) q.2
    refine List.forall_mem_cons.2 ⟨?_, ih hwf hnodup hrange⟩
    have hother : ∀ p ∈ img, BitVec.ofNat 16 p.1 ≠ BitVec.ofNat 16 q.1 := fun p hp =>
      ofNat_ne_of_ne (hrange p hp) hq fun he => hfresh (he ▸ List.mem_map_of_mem hp)
    exact (storeImage_memByte_other hwf hother).trans ((State.setMemByte_memByte h ..).trans (if_pos rfl))

/-- R84, R255: the loader writes main memory, which a reset leaves alone. -/
theorem storeImage_resetBlock (s : State) (wp : Config.WritePolicy) (org : Config.Organisation)
    (img : List Host.Cell) : (s.resetBlock wp org).storeImage img = (s.storeImage img).resetBlock wp org := by
  induction img generalizing s with
  | nil => rfl
  | cons p img ih => exact ih (s.setMemByte (BitVec.ofNat 16 p.1) p.2)

theorem resetBlock_noneValid (s : State) (wp : Config.WritePolicy) (org : Config.Organisation) :
    (s.resetBlock wp org).cache.toList.any Line.valid = false := by
  simp [State.resetBlock, Cache.toList, Cache.reset, Line.reset, Line.valid]

/-- R273: with no line valid and every address in the 64 KiB the loader does not refuse. -/
theorem loadImage_of_noneValid {s : State} {img : List Host.Cell} (hvalid : s.cache.toList.any Line.valid = false)
    (hrange : ∀ p ∈ img, p.1 < 65536) : loadImage img s = .next (s.storeImage img) := by
  have hfind : img.find? (fun p => decide (65536 ≤ p.1)) = none :=
    List.find?_eq_none.2 fun p hp => by simpa using hrange p hp
  simp [loadImage, hfind, hvalid]

/-- Settles O60: loading after the reset is a reset after the loading, in which a program sees main memory (R84). -/
theorem loadedImageIsWhatTheProgramSees : Obligations.LoadedImageIsWhatTheProgramSees := by
  intro s wp org img h hnodup hrange
  refine ⟨_, loadImage_of_noneValid (resetBlock_noneValid s wp org) hrange, ?_⟩
  rw [storeImage_resetBlock]
  refine ⟨resetBlock_coherent (storeImage_wf h img) wp org, fun p hp => ?_, fun b hb => ?_⟩
  · rw [resetBlock_archByte]
    exact storeImage_memByte_mem h hnodup hrange p hp
  · rw [resetBlock_archByte]
    refine storeImage_memByte_other h fun p hp he => hb p hp ?_
    rw [← he, BitVec.toNat_ofNat, Nat.mod_eq_of_lt (hrange p hp)]

/-! ## Registers and flags (R253) -/

section
variable (s : State)

theorem hostSetFlag_hostGetFlag (f g : FlagName) (b : Bool) :
    (s.hostSetFlag f b).hostGetFlag g = if g = f then b else s.hostGetFlag g := by
  cases f <;> cases g <;> rfl

theorem hostSetPriority_hostGetPriority (f g : PriorityName) (v : BitVec 3) :
    (s.hostSetPriority f v).hostGetPriority g = if g = f then v else s.hostGetPriority g := by
  cases f <;> cases g <;> rfl

theorem hostSetFlag_eq (f : FlagName) (b : Bool) : s.hostSetFlag f b = s.setPsw (s.hostSetFlag f b).psw := by
  cases f <;> rfl

theorem hostSetPriority_eq (f : PriorityName) (v : BitVec 3) :
    s.hostSetPriority f v = s.setPsw (s.hostSetPriority f v).psw := by
  cases f <;> rfl

theorem hostSetFlag_hostGetPriority (f : FlagName) (b : Bool) (g : PriorityName) :
    (s.hostSetFlag f b).hostGetPriority g = s.hostGetPriority g := by
  cases f <;> rfl

theorem hostSetPriority_hostGetFlag (f : PriorityName) (v : BitVec 3) (g : FlagName) :
    (s.hostSetPriority f v).hostGetFlag g = s.hostGetFlag g := by
  cases f <;> rfl

end

/-- Settles O58: a register read after a register write, and the same for each field of the status word. -/
theorem hostSetsAndGetsRegistersAndFlags : Obligations.HostSetsAndGetsRegistersAndFlags := fun s =>
  ⟨s.setX_x, fun _ _ => rfl, fun _ => ⟨rfl, rfl⟩, hostSetFlag_hostGetFlag s, hostSetPriority_hostGetPriority s,
    fun f b => ⟨hostSetFlag_eq s f b, hostSetFlag_hostGetPriority s f b⟩,
    fun f v => ⟨hostSetPriority_eq s f v, hostSetPriority_hostGetFlag s f v⟩⟩

/-! ## RunUntil (R252) -/

section
variable {target : Word} {cancel : Bool} {later : List Bool} {s t : State}

theorem runUntil_of_stopped (hs : s.stopped = true) : runUntil target (cancel :: later) s = .next (true, s) := by
  simp [runUntil, hs]

theorem runUntil_of_step (hs : s.stopped = false) (h : step s = .next t) : runUntil target (cancel :: later) s =
    if cancel = true ∨ t.x .r7 = target then .next (true, t) else runUntil target later t := by
  simp [runUntil, hs, h, State.pc]

end

/-- Settles O59: the loop's one turn, of a stopped and of a running core. -/
theorem runUntilChecksAfterEachInstruction : Obligations.RunUntilChecksAfterEachInstruction :=
  fun _ _ _ _ _ => ⟨runUntil_of_stopped, runUntil_of_step⟩

end Sys2Proof.Machine
end
